-- ==== Sys2Proof/Word.lean ====
section
/-! DEFINITION. The word types of the block: 64-bit registers, bytes, 16-bit register numbers, the four-word key
(`00_scope.md` R13, `20_memory.md` R60, `10_state.md` R22). -/

namespace Sys2Proof

/-- One register of the register port, 64 bits (R60). -/
abbrev Word := BitVec 64

/-- One header or digest byte (R29, R122). -/
abbrev Byte := BitVec 8

/-- A register number, 16 bits (R60). -/
abbrev RegNum := BitVec 16

/-- Key material: four 64-bit words (R22). -/
abbrev Key := Vector Word 4

end Sys2Proof
end

