-- ==== Sys2Proof/Config.lean ====
section
/-! DEFINITION. The parameters of an instance (`00_scope.md` R8, R11; `10_state.md` R20) and the model's free values:
opaque constants with no body, so that nothing can be proved of their values. -/

namespace Sys2Proof

/-- Which keyed pseudorandom function `PRF` the instance is built with (R11, R102): the default of R103 to R106, or
any other total function of the same type (the `n`-th of an unspecified family). -/
inductive PrfChoice where
  | default
  | other (n : Nat)
  deriving DecidableEq, Repr

/-- Which 256-bit hash `H256` the instance is built with (R11, R122): the default of R123 to R127, or any other total
function of the same type. -/
inductive HashChoice where
  | default
  | other (n : Nat)
  deriving DecidableEq, Repr

/-- The configuration of one instance: "immutable configuration constants ... never mutated at runtime" (R8, R11, R20). -/
structure Config where
  /-- `EDGEBITS`, log2 of the node-space size per side (R8). -/
  edgeBits : Nat
  /-- `PROOFSIZE`, the required cycle length (R8); `P` in the rules of the verifier. -/
  proofSize : Nat
  /-- `PRF` (R11, R102). -/
  prf : PrfChoice
  /-- `H256` (R11, R122). -/
  h256 : HashChoice
  /-- `LEGACY_C0` (R11, R130). -/
  legacyC0 : Word
  /-- `LEGACY_C1` (R11, R130). -/
  legacyC1 : Word
  /-- `LEGACY_C2` (R11, R130). -/
  legacyC2 : Word
  /-- `LEGACY_C3` (R11, R130). -/
  legacyC3 : Word
  /-- `HEADERLEN`, the expected header length, absent or a natural number (R11, R173). -/
  headerLen : Option Nat
  /-- `HDR_MAX`, the capacity of the header buffer in bytes (R11, R29). -/
  hdrMax : Nat
  deriving DecidableEq, Repr

/-- The default instance: every parameter at the default R8, R11 and R130 give it. PRESUMED (log 7, log 8): the spec
takes the default `PRF`, `H256` and legacy constants from general knowledge. -/
def Config.default : Config where
  edgeBits := 30
  proofSize := 42
  prf := .default
  h256 := .default
  legacyC0 := 0x736f6d6570736575
  legacyC1 := 0x646f72616e646f6d
  legacyC2 := 0x6c7967656e657261
  legacyC3 := 0x7465646279746573
  headerLen := none
  hdrMax := 256

/-- FREE VALUE (log 7): the `n`-th keyed pseudorandom function other than the default; a total function of the key and
the input, of which nothing else is known (R102). -/
opaque Config.otherPrf : Nat → Key → Word → Word

/-- FREE VALUE (log 7): the `n`-th 256-bit hash other than the default; a total function of the bytes, of which nothing
else is known (R122). -/
opaque Config.otherHash : Nat → List Byte → Vector Byte 32

/-- FREE VALUE (log 3): how many events, after the one numbered by the argument, the host may still make before a
sequencer step that is enabled is taken (R242). Any number, but a number: the fairness of R240. -/
opaque Config.hostLead : Nat → Nat

/-- FREE VALUE (log 5): whether the read that is the event numbered by the argument, of a key word or of `KEY_VALID`
while `VERIFY_HEADER` is busy, returns the value the operation will leave (else the value from before; R231, U6). -/
opaque Config.keyReadIsNew : Nat → Bool

/-- FREE VALUE (log 6): the header byte at an index that nothing has written (R29, U8). -/
opaque Config.unwrittenHdr : Nat → Byte

/-- FREE VALUE (log 6): the endpoint-array entry at an index that nothing has written (R39, U7). -/
opaque Config.unwrittenUvs : Nat → Word

/-- FREE VALUE (log 13): what the read that is the event numbered by the argument returns while `rst = 1` (R220, U9). -/
opaque Config.readInReset : Nat → Word

/-- FREE VALUE (log 14): what a register field of the given width shows for a number that does not fit it; R32 states
no value. -/
opaque Config.oversizedField : (width value : Nat) → Word

end Sys2Proof
end

