-- ==== Sys2Proof/Syntax.lean ====
section
/-! DEFINITION. The seven operations of the block, one constructor per row of the opcode table (`00_scope.md` R3,
`30_encoding.md` R84). All operands but `SIDE` are implicit (R82, R87). -/

namespace Sys2Proof

/-- An operation, as a command word names it (R84). -/
inductive Instr where
  /-- `NOP`, opcode `0x00` (R178). -/
  | nop
  /-- `DERIVE_KEY`, opcode `0x01` (R132). -/
  | deriveKey
  /-- `SIPNODE side`, opcode `0x02` (R111); `side` is the one-bit immediate of R82. -/
  | sipnode (side : BitVec 1)
  /-- `SIPNODE_TAGGED side`, opcode `0x03` (R112). -/
  | sipnodeTagged (side : BitVec 1)
  /-- `VERIFY`, opcode `0x04` (R140). -/
  | verify
  /-- `VERIFY_HEADER`, opcode `0x05` (R174). -/
  | verifyHeader
  /-- `CLEAR`, opcode `0x06` (R179). -/
  | clear
  deriving DecidableEq, Repr

end Sys2Proof
end

