-- ==== Sys2Proof/WellFormed.lean ====
section
/-! DEFINITION. What a valid configuration is (`00_scope.md` R9, R11; `93_implementation_defined.md` U17) and what a
well-formed operation is. -/

namespace Sys2Proof

/-- `1 <= EDGEBITS <= 63` (R9 a). -/
def Config.edgeBitsOk (c : Config) : Bool := decide (1 ≤ c.edgeBits) && decide (c.edgeBits ≤ 63)

/-- `PROOFSIZE` is even, at least 12 and at most 4096 (R9 b, c, d). -/
def Config.proofSizeOk (c : Config) : Bool :=
  decide (c.proofSize % 2 = 0) && decide (12 ≤ c.proofSize) && decide (c.proofSize ≤ 4096)

/-- `HDR_MAX >= 1`, and `HDR_MAX >= HEADERLEN` when `HEADERLEN` is present (R11). -/
def Config.hdrMaxOk (c : Config) : Bool :=
  decide (1 ≤ c.hdrMax) &&
    match c.headerLen with
    | none => true
    | some len => decide (len ≤ c.hdrMax)

/-- A configuration is valid when all of R9 and R11 hold; an invalid one has no instance (R225). -/
def Config.wellFormed (c : Config) : Bool := c.edgeBitsOk && c.proofSizeOk && c.hdrMaxOk

/-- Every term of `Instr` is well-formed: the only field, `SIDE`, is one bit by its type (R82). -/
def Instr.wellFormed : Instr → Bool
  | .nop => true
  | .deriveKey => true
  | .sipnode _ => true
  | .sipnodeTagged _ => true
  | .verify => true
  | .verifyHeader => true
  | .clear => true

end Sys2Proof
end

