-- ==== Sys2Proof/Decode.lean ====
section
/-! DEFINITION. Command words: the decoder, total on every 64-bit word, and the encoder, both from the tables of
`30_encoding.md` (R80 to R85). -/

namespace Sys2Proof

/-- The opcode of each operation (R84). -/
def Instr.opcode : Instr → BitVec 8
  | .nop => 0x00
  | .deriveKey => 0x01
  | .sipnode _ => 0x02
  | .sipnodeTagged _ => 0x03
  | .verify => 0x04
  | .verifyHeader => 0x05
  | .clear => 0x06

/-- The value of bit 8 of the command word: `SIDE` in format S, 0 in format N (R81, R82). -/
def Instr.sideBit : Instr → BitVec 1
  | .nop => 0
  | .deriveKey => 0
  | .sipnode side => side
  | .sipnodeTagged side => side
  | .verify => 0
  | .verifyHeader => 0
  | .clear => 0

/-- The `OPCODE` field, bits `[7:0]` (R81). -/
def opcodeField (w : Word) : BitVec 8 := w.extractLsb' 0 8

/-- Bit 8: `SIDE` in format S, must be 0 in format N (R81). -/
def sideField (w : Word) : BitVec 1 := w.extractLsb' 8 1

/-- Bits `[63:9]`, which must be 0 in both formats (R81). -/
def reservedField (w : Word) : BitVec 55 := w.extractLsb' 9 55

/-- A format N word with this bit 8: the operation, or no operation when the bit is set (R81, R85). -/
def formatN (side : BitVec 1) (i : Instr) : Option Instr := if side = 0 then some i else none

/-- The decoder of a command word (R81, R84): `none` is an illegal word (R85). -/
def decode (w : Word) : Option Instr :=
  if reservedField w ≠ 0 then none
  else
    match (opcodeField w).toNat with
    | 0x00 => formatN (sideField w) .nop
    | 0x01 => formatN (sideField w) .deriveKey
    | 0x02 => some (.sipnode (sideField w))
    | 0x03 => some (.sipnodeTagged (sideField w))
    | 0x04 => formatN (sideField w) .verify
    | 0x05 => formatN (sideField w) .verifyHeader
    | 0x06 => formatN (sideField w) .clear
    | _ => none

/-- A word is illegal (R85): its `OPCODE` is `0x07` to `0xFF`, or a bit of `[63:9]` is set, or it is a format N word
with bit 8 set. -/
def illegalWord (w : Word) : Prop :=
  0x07 ≤ (opcodeField w).toNat ∨ reservedField w ≠ 0 ∨
    ((opcodeField w).toNat ≠ 0x02 ∧ (opcodeField w).toNat ≠ 0x03 ∧ sideField w ≠ 0)

/-- The encoder: opcode in bits `[7:0]`, `SIDE` in bit 8, every other bit 0 (R81, R84). -/
def encode (i : Instr) : Word := i.opcode.setWidth 64 ||| (i.sideBit.setWidth 64 <<< 8)

/-- A row of the opcode table as a mask and a match value (R84). -/
structure OpcodeRow where
  mask : Word
  pattern : Word
  deriving DecidableEq, Repr

/-- The row an operation belongs to: format N rows have mask all ones, format S rows leave bit 8 out; the match value
is the opcode (R84). -/
def Instr.row : Instr → OpcodeRow
  | .nop => ⟨0xFFFFFFFFFFFFFFFF, 0x00⟩
  | .deriveKey => ⟨0xFFFFFFFFFFFFFFFF, 0x01⟩
  | .sipnode _ => ⟨0xFFFFFFFFFFFFFEFF, 0x02⟩
  | .sipnodeTagged _ => ⟨0xFFFFFFFFFFFFFEFF, 0x03⟩
  | .verify => ⟨0xFFFFFFFFFFFFFFFF, 0x04⟩
  | .verifyHeader => ⟨0xFFFFFFFFFFFFFFFF, 0x05⟩
  | .clear => ⟨0xFFFFFFFFFFFFFFFF, 0x06⟩

/-- What the decoder reads from an instruction of the opcode table whose bits are `w`. A command is one 64-bit word
with no byte order (R62 c, R80), so the bits are the word; the bits above `nbits` are 0 by the caller's convention, and
a number of more than 64 bits is no command word. -/
def decodeTableWord (_nbits w : Nat) : Option Instr :=
  if w < 2 ^ 64 then decode (BitVec.ofNat 64 w) else none

end Sys2Proof
end

