-- ==== Sys2Proof/Machine/State.lean ====
section
/-! DEFINITION. The state of one instance with its host (`10_state.md` R20 to R43, `70_reset_and_hazards.md` R242), the
reasons a step can stop, and the state right after reset. Plain data throughout. -/

namespace Sys2Proof.Machine

/-- The sequencer's position, the block's analogue of a program counter (R33, R90). -/
inductive Phase where
  | idle
  | hdrchk
  | hash
  | node
  | scan
  | xorchk
  | walk
  deriving DecidableEq, Repr

/-- The closed verdict set, in the source's order (R88, R89). -/
inductive Verdict where
  | ok
  | headerLength
  | tooBig
  | tooSmall
  | nonMatching
  | branch
  | deadEnd
  | shortCycle
  deriving DecidableEq, Repr

/-- The five sticky refusal flags of `STATUS` (R40, R200 to R205). -/
inductive Err where
  | cmd
  | busy
  | operand
  | hdr
  | addr
  deriving DecidableEq, Repr

/-- The registers of the register map (R66). -/
inductive Reg where
  | cfg0
  | cfg1
  | ctrl
  | cmd
  | status
  | verdict
  | argEdge
  | node
  | hdrLen
  | hdrCount
  | hdrPush
  | key (j : Fin 4)
  | proof (n : Nat)
  deriving DecidableEq, Repr

/-- Who brings about an event of the step relation: the host by its next access, the sequencer by a step, or reset
(R60, R68, R242 a to c). -/
inductive Agent where
  | host
  | sequencer
  | reset
  deriving DecidableEq, Repr

/-- One line of a host program (R92): a register write, a register read, `WAIT`, `RESET`; and an access that a host
presents while `rst = 1`, which resets the block and has no other effect on it (R220). -/
inductive HostAction where
  | wr (a : RegNum) (v : Word)
  | rd (a : RegNum)
  | wait
  | reset
  | resetWr (a : RegNum) (v : Word)
  | resetRd (a : RegNum)
  deriving DecidableEq, Repr

/-- Sparse storage of one of the block's arrays: (index, value) pairs with strictly rising indices. -/
abbrev Bank (α : Type) := List (Nat × α)

/-- Why a step can stop with a fault. The block itself has no fault (R198). -/
inductive Fault where
  /-- Raised by the sequencer step when `PHASE` is `NODE` or `HASH` and `OPC` is not one of the opcodes whose
  operations have a step in that phase (R113, R133): the spec gives such a state no step, and no run reaches it. Safe
  (log 11). -/
  | strayPhase (phase : Phase) (opc : BitVec 8)
  deriving DecidableEq, Repr

/-- Why a step can be refused. -/
inductive Refusal where
  /-- Raised by an arm of `exec` for an instruction with no meaning yet, by its mnemonic. No arm raises it. Safe. -/
  | notModelled (mnemonic : String)
  /-- Raised by `step` when the configuration is invalid: "an invalid configuration has no instance" (R9, R225, U17).
  Safe (log 12). -/
  | invalidConfig
  deriving DecidableEq, Repr

/-- The state of one instance with what is left of its host's program (R21, R242). -/
structure State where
  /-- The instance's constants (R8, R11, R20): parameters, carried here so that one step serves every instance; no
  event changes them (log 1). -/
  cfg : Config
  /-- `KEY[0..3]` (R22). -/
  key : Key
  /-- `KEYV[0..3]` (R23). -/
  keyv : Vector Bool 4
  /-- `ARG_EDGE` (R24). -/
  argEdge : Word
  /-- `NODE` (R25). -/
  node : Word
  /-- `STATUS.NODE_VALID` (R40). -/
  nodeValid : Bool
  /-- `PROOF[0..PROOFSIZE-1]` (R26); an unlisted entry is 0. -/
  proof : Bank Word
  /-- `PROOFV[0..PROOFSIZE-1]` (R27); an unlisted bit is 0. -/
  proofv : Bank Bool
  /-- `HDR[0..HDR_MAX-1]` (R29); an unlisted byte has not been written. -/
  hdr : List Host.Cell
  /-- `HDR_COUNT` (R29). -/
  hdrCount : Nat
  /-- `HDR_OVF` (R29). -/
  hdrOvf : Bool
  /-- `HDR_LEN` (R30). -/
  hdrLen : Word
  /-- `CTRL.LEGACY` (R12, R32 c). -/
  legacy : Bool
  /-- `STATUS.DONE` (R40). -/
  done : Bool
  /-- `VERDICT.VALID`, the same bit as `STATUS.VERDICT_VALID` (R32 f, R40). -/
  verdictValid : Bool
  /-- `VERDICT.CODE` (R32 f, R88). -/
  verdictCode : BitVec 3
  /-- `STATUS.ERR_CMD` (R201). -/
  errCmd : Bool
  /-- `STATUS.ERR_BUSY` (R204). -/
  errBusy : Bool
  /-- `STATUS.ERR_OPERAND` (R202). -/
  errOperand : Bool
  /-- `STATUS.ERR_HDR` (R203). -/
  errHdr : Bool
  /-- `STATUS.ERR_ADDR` (R205). -/
  errAddr : Bool
  /-- `PHASE` (R33). `STATUS.BUSY` is 1 exactly when it is not `IDLE` (log 10). -/
  phase : Phase
  /-- `OPC` (R34). -/
  opc : BitVec 8
  /-- `OPSIDE` (R34). -/
  opside : BitVec 1
  /-- `N`, the scan index (R35). -/
  n : Nat
  /-- `I`, the walk position (R36). -/
  i : Nat
  /-- `STEPS`, the step counter (R36). -/
  steps : Nat
  /-- `XOR0` (R37), `W` bits (log 9). -/
  xor0 : Word
  /-- `XOR1` (R37), `W` bits (log 9). -/
  xor1 : Word
  /-- `PREV` (R38), `W` bits (log 9). -/
  prev : Word
  /-- `UVS[0..2*PROOFSIZE-1]` (R39), entries of `W` bits (log 9); an unlisted entry has not been written. -/
  uvs : Bank Word
  /-- The model's own (log 5): the key from before the running `VERIFY_HEADER`, for the reads R231 leaves open. -/
  keyBefore : Key
  /-- The model's own (log 5): the valid bits that go with `keyBefore`. -/
  keyvBefore : Vector Bool 4
  /-- What is left of the host's program (R242, R243). -/
  program : List HostAction
  /-- The values the host's reads have returned so far, oldest first (R243). -/
  reads : List Word
  /-- The model's own (log 3): how many events the host may still make before a sequencer step that is enabled is
  taken (R240, R242). -/
  lead : Nat
  /-- The resets still to come from outside the host's program: for each, how many events come before it, counted from
  the reset before (R220, R242 c). An input of the machine, like the program (log 13). -/
  resetAfter : List Nat
  /-- The model's own (log 3): the number of events so far, the argument of the free values. -/
  tick : Nat
  deriving DecidableEq, Repr

/-- An instance right after reset (R43), with nothing left of a host program. -/
def State.resetOf (c : Config) : State where
  cfg := c
  key := Vector.replicate 4 0
  keyv := Vector.replicate 4 false
  argEdge := 0
  node := 0
  nodeValid := false
  proof := []
  proofv := []
  hdr := []
  hdrCount := 0
  hdrOvf := false
  hdrLen := 0
  legacy := false
  done := false
  verdictValid := false
  verdictCode := 0
  errCmd := false
  errBusy := false
  errOperand := false
  errHdr := false
  errAddr := false
  phase := .idle
  opc := 0
  opside := 0
  n := 0
  i := 0
  steps := 0
  xor0 := 0
  xor1 := 0
  prev := 0
  uvs := []
  keyBefore := Vector.replicate 4 0
  keyvBefore := Vector.replicate 4 false
  program := []
  reads := []
  lead := 0
  resetAfter := []
  tick := 0

/-- The machine right after reset: the default instance of R8 and R11 in the state of R43. -/
def State.reset : State := State.resetOf Config.default

end Sys2Proof.Machine
end

