-- ==== Sys2Proof/Machine/Ops.lean ====
section
/-! DEFINITION. The named operations over the block's arrays and registers that the meanings are built from: array
reads and writes, refusing (`60_exceptions.md` R200), accepting (`30_encoding.md` R83), consuming operands
(`43_top_level_and_housekeeping.md` R172) and completing (R171; `42_cycle_verifier.md` R163). The block has no trap
(R190): a refusal and a completion with a rejecting verdict take the place of an exception. -/

namespace Sys2Proof.Machine

/-! ### Arrays -/

/-- The value listed at index `a`, if one is. -/
def Bank.get? {α : Type} : Bank α → Nat → Option α
  | [], _ => none
  | (k, v) :: rest, a => if k = a then some v else Bank.get? rest a

/-- Lists `v` at index `a`, in place. -/
def Bank.put {α : Type} : Bank α → Nat → α → Bank α
  | [], a, v => [(a, v)]
  | (k, w) :: rest, a, v =>
    if a < k then (a, v) :: (k, w) :: rest
    else if a = k then (a, v) :: rest
    else (k, w) :: Bank.put rest a v

/-- Lists nothing at index `a`. -/
def Bank.erase {α : Type} (b : Bank α) (a : Nat) : Bank α := b.filter (fun e => decide (e.1 ≠ a))

/-- Writes `v` at index `a` of an array whose unlisted entries read as `dflt`: the entry is left out when it equals
that value. -/
def Bank.write {α : Type} [DecidableEq α] (dflt : α) (b : Bank α) (a : Nat) (v : α) : Bank α :=
  if v = dflt then b.erase a else b.put a v

/-- The canonical form: indices strictly rising, and no entry equal to what an unlisted index reads as (`dflt`; `none`
where that is no fixed value). -/
abbrev Bank.wf {α : Type} [DecidableEq α] (dflt : Option α) (b : Bank α) : Prop :=
  b.Pairwise (fun x y => x.1 < y.1) ∧ ∀ e ∈ b, some e.2 ≠ dflt

/-- Every listed index is below `bound`. -/
abbrev Bank.below {α : Type} (bound : Nat) (b : Bank α) : Prop := ∀ e ∈ b, e.1 < bound

/-- The canonical form of all the block's arrays, each within its bounds: `PROOF` and `PROOFV` below `PROOFSIZE` (R26,
R27), `HDR` below `HDR_MAX` (R29), `UVS` below `2*PROOFSIZE` (R39). -/
abbrev Memory.wf (s : State) : Prop :=
  (Bank.wf (some 0) s.proof ∧ Bank.below s.cfg.proofSize s.proof) ∧
  (Bank.wf (some false) s.proofv ∧ Bank.below s.cfg.proofSize s.proofv) ∧
  (Bank.wf none s.hdr ∧ Bank.below s.cfg.hdrMax s.hdr) ∧
  (Bank.wf none s.uvs ∧ Bank.below (2 * s.cfg.proofSize) s.uvs)

/-- `PROOF[n]` (R26). -/
def State.proofAt (s : State) (n : Nat) : Word := (Bank.get? s.proof n).getD 0

/-- `PROOFV[n]` (R27). -/
def State.proofvAt (s : State) (n : Nat) : Bool := (Bank.get? s.proofv n).getD false

/-- `HDR[b]` (R29); a byte that nothing has written is a free value (log 6). -/
def State.hdrAt (s : State) (b : Nat) : Byte := (Bank.get? s.hdr b).getD (Config.unwrittenHdr b)

/-- The header, `HDR[0 .. HDR_COUNT-1]` (R29). -/
def State.header (s : State) : List Byte := (List.range s.hdrCount).map s.hdrAt

/-! ### Configuration constants -/

/-- The storage width `W` (R10). -/
def Config.width (c : Config) : Nat := if c.edgeBits ≤ 31 then 32 else 64

/-- `NEDGES` (R8). -/
def Config.nedges (c : Config) : Nat := 2 ^ c.edgeBits

/-- `EDGEMASK`, as a 64-bit value (R8). -/
def Config.edgeMask (c : Config) : Word := BitVec.ofNat 64 (Config.nedges c - 1)

/-- A value as a `W`-bit register keeps it (R10, R37 to R39; log 9). -/
def Config.toW (c : Config) (v : Word) : Word := BitVec.ofNat 64 (v.toNat % 2 ^ Config.width c)

/-- `UVS[k]` (R39); an entry that nothing has written is a free value (log 6). -/
def State.uvsAt (s : State) (k : Nat) : Word :=
  (Bank.get? s.uvs k).getD (Config.toW s.cfg (Config.unwrittenUvs k))

/-! ### Register updates -/

/-- `STATUS.BUSY`: `PHASE = IDLE` exactly when it is 0 (R33; log 10). -/
def State.busy (s : State) : Bool := decide (s.phase ≠ .idle)

/-- Sets one sticky `ERR` flag and nothing else (R200). -/
def State.raise (s : State) (e : Err) : State :=
  { s with
    errCmd := s.errCmd || decide (e = .cmd)
    errBusy := s.errBusy || decide (e = .busy)
    errOperand := s.errOperand || decide (e = .operand)
    errHdr := s.errHdr || decide (e = .hdr)
    errAddr := s.errAddr || decide (e = .addr) }

/-- Drops the results: `DONE`, `NODE`, `NODE_VALID`, `VERDICT` (R40, R83, R179). -/
def State.clearResults (s : State) : State :=
  { s with done := false, nodeValid := false, node := 0, verdictValid := false, verdictCode := 0 }

/-- Latches the accepted command and moves to its first phase (R34, R83). -/
def State.latch (s : State) (i : Instr) (first : Phase) : State :=
  { s with opc := i.opcode, opside := i.sideBit, phase := first }

/-- Clears the scan and walk registers, at the acceptance of a verification (R162, R176). -/
def State.clearScan (s : State) : State :=
  { s with n := 0, xor0 := 0, xor1 := 0, prev := 0, i := 0, steps := 0 }

/-- Consumes the proof: `PROOF[n] <- 0; PROOFV[n] <- 0` for all `n` (R28, R172). -/
def State.consumeProof (s : State) : State := { s with proof := [], proofv := [] }

/-- Consumes the header: `HDR_COUNT <- 0; HDR_OVF <- 0; HDR_LEN <- 0` (R31, R172). -/
def State.consumeHeader (s : State) : State := { s with hdrCount := 0, hdrOvf := false, hdrLen := 0 }

/-- Writes a derived key and sets all four valid bits together (R22, R23, R132). -/
def State.setKey (s : State) (k : Key) : State := { s with key := k, keyv := Vector.replicate 4 true }

/-- Writes the generator's result and its valid flag (R25, R40). -/
def State.setNode (s : State) (v : Word) : State := { s with node := v, nodeValid := true }

/-- The code of a verdict (R88). -/
def Verdict.code : Verdict → BitVec 3
  | .ok => 0
  | .headerLength => 1
  | .tooBig => 2
  | .tooSmall => 3
  | .nonMatching => 4
  | .branch => 5
  | .deadEnd => 6
  | .shortCycle => 7

/-- Writes the verdict and its valid bit (R32 f, R163). -/
def State.setVerdict (s : State) (v : Verdict) : State := { s with verdictCode := v.code, verdictValid := true }

/-- `STATUS.DONE <- 1; STATUS.BUSY <- 0; PHASE <- IDLE`: the end of every completion (R163, R171). -/
def State.finish (s : State) : State := { s with done := true, phase := .idle }

/-- Remembers the key from before a `VERIFY_HEADER`, for the reads R231 leaves open (log 5). -/
def State.rememberKey (s : State) : State := { s with keyBefore := s.key, keyvBefore := s.keyv }

/-- `KEY[j] <- v; KEYV[j] <- 1` (R180). -/
def State.writeKey (s : State) (j : Fin 4) (v : Word) : State :=
  { s with key := s.key.set j v, keyv := s.keyv.set j true }

/-- `PROOF[n] <- v; PROOFV[n] <- 1` (R180). -/
def State.writeProof (s : State) (n : Nat) (v : Word) : State :=
  { s with proof := Bank.write 0 s.proof n v, proofv := Bank.write false s.proofv n true }

/-- Appends one byte to the header buffer, or sets `HDR_OVF` and drops it when the buffer is full (R181). -/
def State.pushHeader (s : State) (b : Byte) : State :=
  if s.hdrCount < s.cfg.hdrMax then { s with hdr := Bank.put s.hdr s.hdrCount b, hdrCount := s.hdrCount + 1 }
  else { s with hdrOvf := true }

/-- Records the value a host read returned (R243). -/
def State.record (s : State) (v : Word) : State := { s with reads := s.reads ++ [v] }

/-! ### Refusing, accepting, completing -/

/-- What one event of the block answers. -/
abbrev Result := Host.Outcome State Fault Refusal

/-- `refuse <E>`: no effect but one sticky flag (R200). -/
def refuse (e : Err) (s : State) : Result := .next (s.raise e)

/-- Acceptance of a command other than `NOP` and `CLEAR` (R83 case 4): the command is latched, the old results are
dropped, the block is busy in the operation's first phase. -/
def State.accept (s : State) (i : Instr) (first : Phase) : State := s.clearResults.latch i first

/-- `complete(V)`: the end of a running `VERIFY` or `VERIFY_HEADER`, one atomic action (R163); what a rejecting verdict
changes in place of trap entry (R195). -/
def State.complete (s : State) (v : Verdict) : State :=
  let t := (s.setVerdict v).consumeProof
  (if t.opc = Instr.opcode .verifyHeader then t.consumeHeader else t).finish

/-- `complete(V)` as an event. -/
def complete (v : Verdict) (s : State) : Result := .next (s.complete v)

/-- Goes on with `f` after an event that answers a next state. -/
def andThen (o : Result) (f : State → State) : Result :=
  match o with
  | .next s => .next (f s)
  | .fault r => .fault r
  | .refused r => .refused r

end Sys2Proof.Machine
end

