-- ==== Sys2Proof/Machine/Hash.lean ====
section
/-! DEFINITION. The hash `H256` (`41_header_key_derivation.md` R122): the default, BLAKE2b with a 32-byte digest
(R123 to R127), and the instance's choice. PRESUMED by the spec's own mark: the default is from general knowledge
(G2; log 7). -/

namespace Sys2Proof.Machine

/-- `le64`: eight bytes read as a little-endian 64-bit word (R128). -/
def le64 (b : Vector Byte 8) : Word :=
  b[0].setWidth 64 ||| (b[1].setWidth 64 <<< 8) ||| (b[2].setWidth 64 <<< 16) ||| (b[3].setWidth 64 <<< 24) |||
    (b[4].setWidth 64 <<< 32) ||| (b[5].setWidth 64 <<< 40) ||| (b[6].setWidth 64 <<< 48) |||
    (b[7].setWidth 64 <<< 56)

/-- `le64` of the eight bytes of a list that start at `at`; bytes past its end are 0 (the padding of R126). -/
def le64At (bytes : List Byte) (start : Nat) : Word :=
  le64 (Vector.ofFn (fun j : Fin 8 => bytes.getD (start + j.val) 0))

/-- The initialisation vector `IV` (R123). -/
def blakeIv : Vector Word 8 :=
  #v[0x6a09e667f3bcc908, 0xbb67ae8584caa73b, 0x3c6ef372fe94f82b, 0xa54ff53a5f1d36f1,
    0x510e527fade682d1, 0x9b05688c2b3e6c1f, 0x1f83d9abfb41bd6b, 0x5be0cd19137e2179]

/-- The message schedule `SIGMA` (R125). -/
def blakeSigma : List (List Nat) := [
  [0, 1, 2, 3, 4, 5, 6, 7, 8, 9, 10, 11, 12, 13, 14, 15],
  [14, 10, 4, 8, 9, 15, 13, 6, 1, 12, 0, 2, 11, 7, 5, 3],
  [11, 8, 12, 0, 5, 2, 15, 13, 10, 14, 3, 6, 7, 1, 9, 4],
  [7, 9, 3, 1, 13, 12, 11, 14, 2, 6, 5, 10, 4, 0, 15, 8],
  [9, 0, 5, 7, 2, 4, 10, 15, 14, 1, 11, 12, 6, 8, 3, 13],
  [2, 12, 6, 10, 0, 11, 8, 3, 4, 13, 7, 5, 15, 14, 1, 9],
  [12, 5, 1, 15, 14, 13, 4, 10, 0, 7, 6, 3, 9, 2, 8, 11],
  [13, 11, 7, 14, 12, 1, 3, 9, 5, 0, 15, 4, 8, 6, 2, 10],
  [6, 15, 14, 9, 11, 3, 0, 8, 12, 2, 13, 7, 1, 4, 10, 5],
  [10, 2, 8, 4, 7, 6, 1, 5, 15, 11, 9, 14, 3, 12, 13, 0]]

/-- Four words of the vector `v[0..15]` that one call of `G` works on: `v[a]`, `v[b]`, `v[c]`, `v[d]` (R124). -/
structure Quad where
  a : Word
  b : Word
  c : Word
  d : Word
  deriving DecidableEq, Repr

/-- The mixing function `G` on its four words (R124). -/
def blakeG (q : Quad) (x y : Word) : Quad :=
  let a := q.a + q.b + x
  let d := (q.d ^^^ a).rotateRight 32
  let c := q.c + d
  let b := (q.b ^^^ c).rotateRight 24
  let a := a + b + y
  let d := (d ^^^ a).rotateRight 16
  let c := c + d
  let b := (b ^^^ c).rotateRight 63
  ⟨a, b, c, d⟩

/-- The vector `v[0..15]` as its four columns: column `j` holds `v[j]`, `v[4+j]`, `v[8+j]`, `v[12+j]` (R125). -/
structure Grid where
  q0 : Quad
  q1 : Quad
  q2 : Quad
  q3 : Quad
  deriving DecidableEq, Repr

/-- One of the twelve rounds of `F` (R125): `G` on the four columns, then on the four diagonals. -/
def blakeRound (m : List Word) (v : Grid) (r : Nat) : Grid :=
  let sigma := blakeSigma.getD (r % 10) []
  let w := fun j => m.getD (sigma.getD j 0) 0
  let p0 := blakeG v.q0 (w 0) (w 1)
  let p1 := blakeG v.q1 (w 2) (w 3)
  let p2 := blakeG v.q2 (w 4) (w 5)
  let p3 := blakeG v.q3 (w 6) (w 7)
  let d0 := blakeG ⟨p0.a, p1.b, p2.c, p3.d⟩ (w 8) (w 9)
  let d1 := blakeG ⟨p1.a, p2.b, p3.c, p0.d⟩ (w 10) (w 11)
  let d2 := blakeG ⟨p2.a, p3.b, p0.c, p1.d⟩ (w 12) (w 13)
  let d3 := blakeG ⟨p3.a, p0.b, p1.c, p2.d⟩ (w 14) (w 15)
  ⟨⟨d0.a, d3.b, d2.c, d1.d⟩, ⟨d1.a, d0.b, d3.c, d2.d⟩, ⟨d2.a, d1.b, d0.c, d3.d⟩, ⟨d3.a, d2.b, d1.c, d0.d⟩⟩

/-- The compression function `F(h, block, t, last)` (R125); the block is the 128 bytes of `msg` from `start` on, zero
bytes past its end (R126); `t` counts message bytes and is below `2^128`. -/
def blakeF (h : Vector Word 8) (msg : List Byte) (start t : Nat) (last : Bool) : Vector Word 8 :=
  let m := (List.range 16).map (fun j => le64At msg (start + 8 * j))
  let v : Grid :=
    ⟨⟨h[0], h[4], blakeIv[0], blakeIv[4] ^^^ BitVec.ofNat 64 t⟩,
      ⟨h[1], h[5], blakeIv[1], blakeIv[5] ^^^ BitVec.ofNat 64 (t / 2 ^ 64)⟩,
      ⟨h[2], h[6], blakeIv[2], if last then blakeIv[6] ^^^ 0xFFFFFFFFFFFFFFFF else blakeIv[6]⟩,
      ⟨h[3], h[7], blakeIv[3], blakeIv[7]⟩⟩
  let v := (List.range 12).foldl (blakeRound m) v
  #v[h[0] ^^^ v.q0.a ^^^ v.q0.c, h[1] ^^^ v.q1.a ^^^ v.q1.c, h[2] ^^^ v.q2.a ^^^ v.q2.c, h[3] ^^^ v.q3.a ^^^ v.q3.c,
    h[4] ^^^ v.q0.b ^^^ v.q0.d, h[5] ^^^ v.q1.b ^^^ v.q1.d, h[6] ^^^ v.q2.b ^^^ v.q2.d, h[7] ^^^ v.q3.b ^^^ v.q3.d]

/-- The chaining value before the first block (R123). -/
def blakeInit : Vector Word 8 := blakeIv.set 0 (blakeIv[0] ^^^ 0x0000000001010020)

/-- The number of blocks before the last one: `nb - 1` with `nb = max(1, ceil(L / 128))` (R126). -/
def blakeFullBlocks (len : Nat) : Nat := (len - 1) / 128

/-- The chaining value after the last block (R126). -/
def blakeChain (m : List Byte) : Vector Word 8 :=
  let full := blakeFullBlocks m.length
  let h := (List.range full).foldl (fun h j => blakeF h m (128 * j) (128 * (j + 1)) false) blakeInit
  blakeF h m (128 * full) m.length true

/-- BLAKE2b-256: the first 32 bytes of the chaining value, little-endian (R126). -/
def blake2b256 (m : List Byte) : Vector Byte 32 :=
  let h := blakeChain m
  Vector.ofFn (fun k : Fin 32 => (h[k.val / 8]'(by omega)).extractLsb' (8 * (k.val % 8)) 8)

/-- `H256(m)` of an instance (R122). -/
def h256 (c : Config) (m : List Byte) : Vector Byte 32 :=
  match c.h256 with
  | .default => blake2b256 m
  | .other n => Config.otherHash n m

end Sys2Proof.Machine
end

