-- ==== Sys2Proof/Machine/Operands.lean ====
section
/-! DEFINITION. Operand forms: the register map and its access rights (`20_memory.md` R66, R67), and the operand
conditions of the operations (`30_encoding.md` R87). -/

namespace Sys2Proof.Machine

/-- The first register number of the `PROOF` window (R66). -/
def proofBase : Nat := 0x1000

/-- The register map (R66): `none` is an unmapped number. -/
def Reg.ofNumber (c : Config) (a : RegNum) : Option Reg :=
  match a.toNat with
  | 0x0000 => some .cfg0
  | 0x0001 => some .cfg1
  | 0x0002 => some .ctrl
  | 0x0003 => some .cmd
  | 0x0004 => some .status
  | 0x0005 => some .verdict
  | 0x0006 => some .argEdge
  | 0x0007 => some .node
  | 0x0008 => some .hdrLen
  | 0x0009 => some .hdrCount
  | 0x000A => some .hdrPush
  | 0x0010 => some (.key 0)
  | 0x0011 => some (.key 1)
  | 0x0012 => some (.key 2)
  | 0x0013 => some (.key 3)
  | k => if proofBase ≤ k ∧ k - proofBase < c.proofSize then some (.proof (k - proofBase)) else none

/-- The number of a register of the map (R66). -/
def Reg.number : Reg → RegNum
  | .cfg0 => 0x0000
  | .cfg1 => 0x0001
  | .ctrl => 0x0002
  | .cmd => 0x0003
  | .status => 0x0004
  | .verdict => 0x0005
  | .argEdge => 0x0006
  | .node => 0x0007
  | .hdrLen => 0x0008
  | .hdrCount => 0x0009
  | .hdrPush => 0x000A
  | .key j => BitVec.ofNat 16 (0x0010 + j.val)
  | .proof n => BitVec.ofNat 16 (proofBase + n)

/-- Whether the map allows a write: the register is read-write or write-only (R66). -/
def Reg.writable : Reg → Bool
  | .cfg0 => false
  | .cfg1 => false
  | .ctrl => true
  | .cmd => true
  | .status => false
  | .verdict => false
  | .argEdge => true
  | .node => false
  | .hdrLen => true
  | .hdrCount => false
  | .hdrPush => true
  | .key _ => true
  | .proof _ => true

/-- `STATUS.KEY_VALID`: all four `KEYV` bits (R23). -/
def State.keyValid (s : State) : Bool := s.keyv[0] && s.keyv[1] && s.keyv[2] && s.keyv[3]

/-- `STATUS.PROOF_FULL`: every `PROOFV[n]` is 1 (R27). -/
def State.proofFull (s : State) : Bool := (List.range s.cfg.proofSize).all s.proofvAt

/-- The operand condition of `SIPNODE` and `SIPNODE_TAGGED` (R87, R111): the key is valid and `ARG_EDGE <= EDGEMASK`,
on the full 64-bit register. -/
def State.edgeReady (s : State) : Bool := s.keyValid && decide (s.argEdge ≤ Config.edgeMask s.cfg)

/-- The operand condition of `VERIFY` (R87, R140). -/
def State.proofReady (s : State) : Bool := s.keyValid && s.proofFull

/-- No overflow, and the declared header length is the number of bytes supplied (R87, R134). -/
def State.headerReady (s : State) : Bool := !s.hdrOvf && decide (s.hdrLen.toNat = s.hdrCount)

/-- `LENOK`, the header-length predicate of the top-level entry (R173). -/
def State.lenOk (s : State) : Bool :=
  s.headerReady &&
    match s.cfg.headerLen with
    | none => true
    | some len => decide (s.hdrLen.toNat = len)

end Sys2Proof.Machine
end

