-- ==== Sys2Proof/Machine/Derivation.lean ====
section
/-! DEFINITION. Unit KDF (`41_header_key_derivation.md`): cutting the digest into key words, the legacy transform,
`DERIVE_KEY` and the sequencer step of phase `HASH`. -/

namespace Sys2Proof.Machine

/-- `hw[j]`, the 64-bit words of the digest, little-endian, word 0 from the first eight bytes (R128). -/
def hashWords (d : Vector Byte 32) : Vector Word 4 :=
  Vector.ofFn (fun j : Fin 4 => le64 (Vector.ofFn (fun b : Fin 8 => d[8 * j.val + b.val]'(by omega))))

/-- The key from the hash words: as they are, or by the legacy transform, which uses the first two (R129, R130). -/
def keyOfWords (c : Config) (hw : Vector Word 4) (legacy : Bool) : Key :=
  if legacy then #v[hw[0] ^^^ c.legacyC0, hw[1] ^^^ c.legacyC1, hw[0] ^^^ c.legacyC2, hw[1] ^^^ c.legacyC3]
  else hw

/-- `derive_key(header, legacy)` (R129). -/
def deriveKey (c : Config) (header : List Byte) (legacy : Bool) : Key :=
  keyOfWords c (hashWords (h256 c header)) legacy

/-- The key that the header and the keying mode held give (R132, R176). -/
def State.derivedKey (s : State) : Key := deriveKey s.cfg s.header s.legacy

/-- `DERIVE_KEY` written to `CMD` (R83, R87, R132): refused while busy, or with `ERR_HDR` when the header overflowed or
its declared length differs from the bytes supplied; else accepted, in phase `HASH`. -/
def execDeriveKey (s : State) : Result :=
  if s.busy then refuse .busy s
  else if s.headerReady then .next (s.accept .deriveKey .hash)
  else refuse .hdr s

/-- The completion of `DERIVE_KEY` (R132). -/
def State.finishDeriveKey (s : State) : State := ((s.setKey s.derivedKey).consumeHeader).finish

/-- The key step of `VERIFY_HEADER`: writes the key, keeps the header, goes on to scanning (R133, R176). -/
def State.keyForScan (s : State) : State := { s.setKey s.derivedKey with phase := .scan }

/-- The sequencer step of phase `HASH` (R133). -/
def stepHash (s : State) : Result :=
  if s.opc = Instr.opcode .deriveKey then .next s.finishDeriveKey
  else if s.opc = Instr.opcode .verifyHeader then .next s.keyForScan
  else .fault (.strayPhase s.phase s.opc)

end Sys2Proof.Machine
end

