-- ==== Sys2Proof/Machine/Generator.lean ====
section
/-! DEFINITION. Unit GEN (`40_edge_endpoint_generator.md`): the keyed pseudorandom function, the two forms of the
endpoint, `SIPNODE`, `SIPNODE_TAGGED` and the sequencer step of phase `NODE`. -/

namespace Sys2Proof.Machine

/-- The four working words of the default `PRF` (R103). -/
structure SipWords where
  v0 : Word
  v1 : Word
  v2 : Word
  v3 : Word
  deriving DecidableEq, Repr

/-- One round `SIPROUND` of the default `PRF`; additions modulo `2^64` (R104, R106). -/
def sipRound (s : SipWords) : SipWords :=
  let v0 := s.v0 + s.v1
  let v2 := s.v2 + s.v3
  let v1 := s.v1.rotateLeft 13
  let v3 := s.v3.rotateLeft 16
  let v1 := v1 ^^^ v0
  let v3 := v3 ^^^ v2
  let v0 := v0.rotateLeft 32
  let v2 := v2 + v1
  let v0 := v0 + v3
  let v1 := v1.rotateLeft 17
  let v3 := v3.rotateLeft 21
  let v1 := v1 ^^^ v2
  let v3 := v3 ^^^ v0
  let v2 := v2.rotateLeft 32
  ⟨v0, v1, v2, v3⟩

/-- Initial state of the default `PRF` (R103). -/
def sipInit (key : Key) (x : Word) : SipWords := ⟨key[0], key[1], key[2], key[3] ^^^ x⟩

/-- The input and the constant mixed in after the first two rounds (R105). -/
def sipMix (s : SipWords) (x : Word) : SipWords := { s with v0 := s.v0 ^^^ x, v2 := s.v2 ^^^ 0x00000000000000FF }

/-- The default `PRF` (R105): two rounds, the mix, four rounds, XOR. PRESUMED by the spec's own mark: from general
knowledge (G1; log 7). -/
def sipHash (key : Key) (x : Word) : Word :=
  let s := sipMix (sipRound (sipRound (sipInit key x))) x
  let s := sipRound (sipRound (sipRound (sipRound s)))
  s.v0 ^^^ s.v1 ^^^ s.v2 ^^^ s.v3

/-- `PRF(key, x)` of an instance (R102). -/
def prf (c : Config) (key : Key) (x : Word) : Word :=
  match c.prf with
  | .default => sipHash key x
  | .other n => Config.otherPrf n key x

/-- `sipnode(key, e, s)`, the first form of the endpoint (R107). The block evaluates it only for `e <= EDGEMASK`
(R101), where `2*e + s` does not wrap around. -/
def sipnode (c : Config) (key : Key) (e : Word) (side : BitVec 1) : Word :=
  prf c key (2 * e + side.setWidth 64) &&& Config.edgeMask c

/-- `sipnode_tagged(key, e, s)`, the second form (R109). -/
def sipnodeTagged (c : Config) (key : Key) (e : Word) (side : BitVec 1) : Word :=
  (sipnode c key e side <<< 1) ||| side.setWidth 64

/-- `SIPNODE side` written to `CMD` (R83, R87, R111): refused while busy, or when the key is not valid or
`ARG_EDGE > EDGEMASK`; else accepted, in phase `NODE`. -/
def execSipnode (side : BitVec 1) (s : State) : Result :=
  if s.busy then refuse .busy s
  else if s.edgeReady then .next (s.accept (.sipnode side) .node)
  else refuse .operand s

/-- `SIPNODE_TAGGED side` written to `CMD` (R83, R87, R112): operands and refusals as `SIPNODE`. -/
def execSipnodeTagged (side : BitVec 1) (s : State) : Result :=
  if s.busy then refuse .busy s
  else if s.edgeReady then .next (s.accept (.sipnodeTagged side) .node)
  else refuse .operand s

/-- The completion of `SIPNODE` (R111). -/
def State.finishSipnode (s : State) : State := (s.setNode (sipnode s.cfg s.key s.argEdge s.opside)).finish

/-- The completion of `SIPNODE_TAGGED` (R112). -/
def State.finishSipnodeTagged (s : State) : State :=
  (s.setNode (sipnodeTagged s.cfg s.key s.argEdge s.opside)).finish

/-- The sequencer step of phase `NODE` (R113): by the latched opcode, the completion of R111 or of R112. -/
def stepNode (s : State) : Result :=
  if s.opc = Instr.opcode (.sipnode 0) then .next s.finishSipnode
  else if s.opc = Instr.opcode (.sipnodeTagged 0) then .next s.finishSipnodeTagged
  else .fault (.strayPhase s.phase s.opc)

end Sys2Proof.Machine
end

