-- ==== Sys2Proof/Machine/Verifier.lean ====
section
/-! DEFINITION. Unit VER (`42_cycle_verifier.md`): the verification procedure as a pure function (R141 to R153), the
operation `VERIFY` (R140) and the sequencer steps of phases `SCAN`, `XORCHK` and `WALK` (R162). -/

namespace Sys2Proof.Machine

/-! ### The procedure as a pure function -/

/-- The other positions of the same side as `i`, in the order they are looked at: `(i + 2*t) mod (2*P)` for
`t = 1 .. P-1` (R147). -/
def candidates (p i : Nat) : List Nat := (List.range (p - 1)).map (fun t => (i + 2 * (t + 1)) % (2 * p))

/-- The candidates that hold the value of position `i` (R147). -/
def matchesOf (p : Nat) (uvs : Nat → Word) (i : Nat) : List Nat :=
  (candidates p i).filter (fun k => decide (uvs k = uvs i))

/-- `find_match(uvs, i)`: the number of matching candidates and, when it is 1, the matching position (R147). -/
def findMatch (p : Nat) (uvs : Nat → Word) (i : Nat) : Nat × Nat :=
  ((matchesOf p uvs i).length, (matchesOf p uvs i).headD 0)

/-- The XOR of the `P` entries of one side (R146, R153). -/
def xorSide (p : Nat) (uvs : Nat → Word) (side : Nat) : Word :=
  (List.range p).foldl (fun acc n => acc ^^^ uvs (2 * n + side)) 0

/-- The loop of `walk_verdict` (R153), from position `i` with `steps` steps made; `fuel` bounds the steps still made
and is never used up before the cap of R154 when it starts at `P + 1 - steps`. -/
def walkFrom (p : Nat) (uvs : Nat → Word) : (fuel i steps : Nat) → Verdict
  | 0, _, _ => .shortCycle
  | fuel + 1, i, steps =>
    let m := findMatch p uvs i
    if m.1 > 1 then .branch
    else if m.1 = 0 then .deadEnd
    else
      let i' := m.2 ^^^ 1
      let steps' := steps + 1
      if i' = 0 ∨ steps' = p + 1 then (if i' = 0 ∧ steps' = p then .ok else .shortCycle)
      else walkFrom p uvs fuel i' steps'

/-- `walk_verdict(uvs)`: the XOR check and the walk from position 0 (R146, R153). -/
def walkVerdict (p : Nat) (uvs : Nat → Word) : Verdict :=
  if xorSide p uvs 0 ≠ 0 ∨ xorSide p uvs 1 ≠ 0 then .nonMatching
  else walkFrom p uvs (p + 1) 0 0

/-- The checks of step 1 on `count` edges from index `n` on: the first rejection in index order, the bound check first
at each index (R142, R143, R144); `none` when every edge passes. -/
def scanVerdict (c : Config) (edges : Nat → Word) : (count n : Nat) → Option Verdict
  | 0, _ => none
  | count + 1, n =>
    if edges n > Config.edgeMask c then some .tooBig
    else if n > 0 ∧ edges n ≤ edges (n - 1) then some .tooSmall
    else scanVerdict c edges count (n + 1)

/-- The endpoint array of a sequence of edges: position `k` belongs to edge `k >> 1` and side `k & 1` (R145). -/
def endpoints (c : Config) (key : Key) (edges : Nat → Word) (k : Nat) : Word :=
  sipnode c key (edges (k / 2)) (BitVec.ofNat 1 (k % 2))

/-- `verify(edges, key)`, the whole procedure (R141). -/
def verify (c : Config) (edges : Nat → Word) (key : Key) : Verdict :=
  match scanVerdict c edges c.proofSize 0 with
  | some v => v
  | none => walkVerdict c.proofSize (endpoints c key edges)

/-! ### The operation and its sequencer steps -/

/-- `VERIFY` written to `CMD` (R83, R87, R140, R162): refused while busy, or when the key is not valid or the proof is
not full; else accepted, with the scan registers cleared, in phase `SCAN`. -/
def execVerify (s : State) : Result :=
  if s.busy then refuse .busy s
  else if s.proofReady then .next ((s.accept .verify .scan).clearScan)
  else refuse .operand s

/-- The part of a scan step that an accepted edge `e` takes: both endpoints into the array and into the accumulators,
and on to the next edge or to the XOR check (R162, R145). -/
def State.scanEdge (s : State) (e : Word) : State :=
  let u := Config.toW s.cfg (sipnode s.cfg s.key e 0)
  let v := Config.toW s.cfg (sipnode s.cfg s.key e 1)
  { s with
    uvs := Bank.put (Bank.put s.uvs (2 * s.n) u) (2 * s.n + 1) v
    xor0 := s.xor0 ^^^ u
    xor1 := s.xor1 ^^^ v
    prev := Config.toW s.cfg e
    n := s.n + 1
    phase := if s.n + 1 = s.cfg.proofSize then .xorchk else .scan }

/-- The sequencer step of phase `SCAN`, "scanning-edge-n" (R162). -/
def stepScan (s : State) : Result :=
  let e := s.proofAt s.n
  if e > Config.edgeMask s.cfg then complete .tooBig s
  else if s.n > 0 ∧ e ≤ s.prev then complete .tooSmall s
  else .next (s.scanEdge e)

/-- The sequencer step of phase `XORCHK` (R162). -/
def stepXorchk (s : State) : Result :=
  if s.xor0 ≠ 0 ∨ s.xor1 ≠ 0 then complete .nonMatching s
  else .next { s with i := 0, steps := 0, phase := .walk }

/-- The sequencer step of phase `WALK`, "walking-cycle" (R162, R148 to R154). -/
def stepWalk (s : State) : Result :=
  let m := findMatch s.cfg.proofSize s.uvsAt s.i
  if m.1 > 1 then complete .branch s
  else if m.1 = 0 then complete .deadEnd s
  else
    let t := { s with i := m.2 ^^^ 1, steps := s.steps + 1 }
    if t.i = 0 then complete (if t.steps = s.cfg.proofSize then .ok else .shortCycle) t
    else if t.steps = s.cfg.proofSize + 1 then complete .shortCycle t
    else .next t

end Sys2Proof.Machine
end

