-- ==== Sys2Proof/Machine/TopLevel.lean ====
section
/-! DEFINITION. The top-level entry `VERIFY_HEADER` and the housekeeping operations `NOP` and `CLEAR`
(`43_top_level_and_housekeeping.md`). -/

namespace Sys2Proof.Machine

/-- `verify_header(header, declared_len, ovf, edges, legacy)` as a pure function: the verdict and, when the length
check passes, the key it derived (R175). -/
def verifyHeader (c : Config) (header : List Byte) (declaredLen : Nat) (ovf : Bool) (edges : Nat → Word)
    (legacy : Bool) : Verdict × Option Key :=
  if ovf ∨ declaredLen ≠ header.length ∨ (∃ len, c.headerLen = some len ∧ declaredLen ≠ len) then
    (.headerLength, none)
  else
    let key := deriveKey c header legacy
    (verify c edges key, some key)

/-- `VERIFY_HEADER` written to `CMD` (R83, R87, R174, R176): refused while busy or when the proof is not full, the key
need not be valid; else accepted, with the scan registers cleared, in phase `HDRCHK`. -/
def execVerifyHeader (s : State) : Result :=
  if s.busy then refuse .busy s
  else if s.proofFull then .next ((s.accept .verifyHeader .hdrchk).clearScan.rememberKey)
  else refuse .operand s

/-- The sequencer step of phase `HDRCHK` (R176). -/
def stepHdrchk (s : State) : Result :=
  if s.lenOk then .next { s with phase := .hash } else complete .headerLength s

/-- `NOP` written to `CMD` (R83, R178): refused while busy, else nothing changes. -/
def execNop (s : State) : Result := if s.busy then refuse .busy s else .next s

/-- `CLEAR` written to `CMD` (R83, R179): refused while busy, else it executes within the write. -/
def execClear (s : State) : Result :=
  if s.busy then refuse .busy s else .next (s.consumeProof.consumeHeader.clearResults)

end Sys2Proof.Machine
end

