-- ==== Sys2Proof/Machine/Dispatch.lean ====
section
/-! DEFINITION. What each operation's command word does when it is written to `CMD` (`30_encoding.md` R83). -/

namespace Sys2Proof.Machine

/-- The `CMD` write of an operation: refused, executed within the write, or accepted (R83). -/
def exec (i : Instr) (s : State) : Host.Outcome State Fault Refusal :=
  match i with
  | .nop => Sys2Proof.Machine.execNop s
  | .deriveKey => Sys2Proof.Machine.execDeriveKey s
  | .sipnode side => Sys2Proof.Machine.execSipnode side s
  | .sipnodeTagged side => Sys2Proof.Machine.execSipnodeTagged side s
  | .verify => Sys2Proof.Machine.execVerify s
  | .verifyHeader => Sys2Proof.Machine.execVerifyHeader s
  | .clear => Sys2Proof.Machine.execClear s

end Sys2Proof.Machine
end

