-- ==== Sys2Proof/Machine/Flags.lean ====
section
/-! DEFINITION. The words the status, verdict and configuration registers read as, every field listed in
`10_state.md` R32; and what a verdict says (`60_exceptions.md` R193). -/

namespace Sys2Proof.Machine

/-- A flag at bit `b` of a register. -/
def flagAt (f : Bool) (b : Nat) : Word := if f then (1 : Word) <<< b else 0

/-- A number in a register field of `width` bits; a number that does not fit shows a free value (log 14). -/
def numberField (width value : Nat) : Word :=
  if value < 2 ^ width then BitVec.ofNat 64 value
  else BitVec.ofNat 64 ((Config.oversizedField width value).toNat % 2 ^ width)

/-- `CFG0`: `EDGEBITS`, `W64`, `PROOFSIZE`, `IFVER` = 1 (R32 a). -/
def cfg0Word (c : Config) : Word :=
  numberField 8 c.edgeBits ||| flagAt (decide (Config.width c = 64)) 8 |||
    (numberField 16 c.proofSize <<< 16) ||| ((1 : Word) <<< 32)

/-- `CFG1`: `HDR_MAX`, `HEADERLEN` (0 when absent), `HEADERLEN_EN` (R32 b). -/
def cfg1Word (c : Config) : Word :=
  numberField 32 c.hdrMax |||
    match c.headerLen with
    | none => 0
    | some len => (numberField 31 len <<< 32) ||| ((1 : Word) <<< 63)

/-- `STATUS` with the given value at `KEY_VALID` (R32 e); which value that is while `VERIFY_HEADER` is busy is left
open (R231), so the register port supplies it. -/
def State.statusWord (s : State) (keyValid : Bool) : Word :=
  flagAt s.busy 0 ||| flagAt s.done 1 ||| flagAt keyValid 2 ||| flagAt s.proofFull 3 |||
    flagAt s.nodeValid 4 ||| flagAt s.verdictValid 5 ||| flagAt s.hdrOvf 6 |||
    flagAt s.errCmd 8 ||| flagAt s.errBusy 9 ||| flagAt s.errOperand 10 ||| flagAt s.errHdr 11 |||
    flagAt s.errAddr 12

/-- `VERDICT`: `CODE` in `[2:0]`, `VALID` in bit 7 (R32 f). -/
def State.verdictWord (s : State) : Word := s.verdictCode.setWidth 64 ||| flagAt s.verdictValid 7

/-- `CTRL`: `LEGACY` in bit 0 (R32 c). -/
def State.ctrlWord (s : State) : Word := flagAt s.legacy 0

/-- The code of a phase (R90). -/
def Phase.code : Phase → BitVec 3
  | .idle => 0
  | .hdrchk => 1
  | .hash => 2
  | .node => 3
  | .scan => 4
  | .xorchk => 5
  | .walk => 6

/-- The boolean "valid/invalid" of a verdict: its code is 0 (R88). -/
def Verdict.valid (v : Verdict) : Bool := decide (v.code = 0)

/-- The explanation of a verdict, a pure function of the tag (R193). -/
def Verdict.explanation : Verdict → String
  | .ok => "the proof is valid"
  | .headerLength => "header buffer length disagreed with expected"
  | .tooBig => "edge index exceeds graph bound"
  | .tooSmall => "edges not strictly ascending"
  | .nonMatching => "XOR precondition failed"
  | .branch => "node degree >2 in induced subgraph"
  | .deadEnd => "no matching endpoint found"
  | .shortCycle => "cycle closed before consuming all proof edges"

end Sys2Proof.Machine
end

