-- ==== Sys2Proof/Machine/Port.lean ====
section
/-! DEFINITION. The register port (`20_memory.md`, `43_top_level_and_housekeeping.md` R180 to R182): `RegRead`,
`RegWrite`, the `CMD` write, and reset (`70_reset_and_hazards.md` R220). -/

namespace Sys2Proof.Machine

/-- The key and `KEY_VALID` are between old and new: `VERIFY_HEADER` is busy (R231). -/
def State.keyUnsettled (s : State) : Bool := s.busy && decide (s.opc = Instr.opcode .verifyHeader)

/-- The key the running `VERIFY_HEADER` will leave (R174, R231). -/
def State.keyAfter (s : State) : Key := if s.lenOk then s.derivedKey else s.keyBefore

/-- The valid bits the running `VERIFY_HEADER` will leave. -/
def State.keyvAfter (s : State) : Vector Bool 4 := if s.lenOk then Vector.replicate 4 true else s.keyvBefore

/-- What a read of `KEYj` returns (R182); while `VERIFY_HEADER` is busy, the value from before or the value after, and
which is a free value for each read (R231, U6; log 5). -/
def State.keyRead (s : State) (j : Fin 4) : Word :=
  if s.keyUnsettled then (if Config.keyReadIsNew s.tick then s.keyAfter[j] else s.keyBefore[j]) else s.key[j]

/-- What a read of `STATUS` shows as `KEY_VALID` (R23, R231; log 5). -/
def State.keyValidRead (s : State) : Bool :=
  if s.keyUnsettled then
    (if Config.keyReadIsNew s.tick then { s with keyv := s.keyvAfter } else { s with keyv := s.keyvBefore }).keyValid
  else s.keyValid

/-- What a read of a mapped register returns (R182). -/
def State.view (s : State) : Reg → Word
  | .cfg0 => cfg0Word s.cfg
  | .cfg1 => cfg1Word s.cfg
  | .ctrl => s.ctrlWord
  | .cmd => 0
  | .status => s.statusWord s.keyValidRead
  | .verdict => s.verdictWord
  | .argEdge => s.argEdge
  | .node => s.node
  | .hdrLen => s.hdrLen
  | .hdrCount => numberField 32 s.hdrCount
  | .hdrPush => 0
  | .key j => s.keyRead j
  | .proof n => s.proofAt n

/-- The value `RegRead(a)` returns; 0 for an unmapped number (R67, R182). -/
def regValue (s : State) (a : RegNum) : Word :=
  match Reg.ofNumber s.cfg a with
  | some r => s.view r
  | none => 0

/-- `RegRead(a)`: no effect on the block but `ERR_ADDR` for an unmapped number; the value is recorded as read
(R65, R67, R182, R243). -/
def regRead (a : RegNum) (s : State) : State :=
  (match Reg.ofNumber s.cfg a with
    | some _ => s
    | none => s.raise .addr).record (regValue s a)

/-- What a write of a writable register other than `CMD` stores while the block is idle (R180). -/
def State.store (s : State) (r : Reg) (v : Word) : State :=
  match r with
  | .ctrl => { s with legacy := v.getLsbD 0 }
  | .argEdge => { s with argEdge := v }
  | .hdrLen => { s with hdrLen := v }
  | .hdrPush => s.pushHeader (v.setWidth 8)
  | .key j => s.writeKey j v
  | .proof n => s.writeProof n v
  | .cfg0 => s
  | .cfg1 => s
  | .cmd => s
  | .status => s
  | .verdict => s
  | .node => s
  | .hdrCount => s

/-- `RegWrite(CMD, w)` (R83): the word is decoded; an illegal one is refused with `ERR_BUSY` while busy and with
`ERR_CMD` while idle, a legal one is `exec`, which makes its own busy and operand checks. -/
def writeCmd (w : Word) (s : State) : Result :=
  match decode w with
  | some i => exec i s
  | none => if s.busy then refuse .busy s else refuse .cmd s

/-- `RegWrite(a, v)`, in the order of R206: an access the map does not allow sets `ERR_ADDR`; a write while busy sets
`ERR_BUSY`; a `CMD` write is decoded; any other write stores (R67, R180, R230). -/
def regWrite (a : RegNum) (v : Word) (s : State) : Result :=
  match Reg.ofNumber s.cfg a with
  | none => refuse .addr s
  | some .cmd => writeCmd v s
  | some r =>
    if r.writable then (if s.busy then refuse .busy s else .next (s.store r v))
    else refuse .addr s

/-- Reset as one transition (R220, R221): the block takes the values of R43; the configuration, what is left of the
host's program, the resets still to come, the values read so far and the model's own counters are not the block's and
stay (log 13). -/
def State.resetBlock (s : State) : State :=
  { State.resetOf s.cfg with
    program := s.program
    reads := s.reads
    lead := s.lead
    resetAfter := s.resetAfter
    tick := s.tick }

/-- What one line of a host program does (R92, R220): `WAIT` reads `STATUS`; an access presented while `rst = 1`
resets the block, has no other effect on it, and a read returns a free value (U9; log 13). -/
def hostEvent (x : HostAction) (s : State) : Result :=
  match x with
  | .wr a v => regWrite a v s
  | .rd a => .next (regRead a s)
  | .wait => .next (regRead (Reg.number .status) s)
  | .reset => .next s.resetBlock
  | .resetWr _ _ => .next s.resetBlock
  | .resetRd _ => .next (s.resetBlock.record (Config.readInReset s.tick))

/-- Whether the line is done after this event: `WAIT` is repeated until `BUSY` reads 0 (R92). -/
def HostAction.doneAfter (x : HostAction) (s : State) : Bool :=
  match x with
  | .wait => !s.busy
  | .wr _ _ => true
  | .rd _ => true
  | .reset => true
  | .resetWr _ _ => true
  | .resetRd _ => true

/-- One step of the sequencer: the step of the current phase (R113, R133, R162, R176, R242). In phase `IDLE` no step
is enabled and nothing changes (R223). -/
def seqStep (s : State) : Result :=
  match s.phase with
  | .idle => .next s
  | .hdrchk => stepHdrchk s
  | .hash => stepHash s
  | .node => stepNode s
  | .scan => stepScan s
  | .xorchk => stepXorchk s
  | .walk => stepWalk s

/-- The next event is a reset from outside the host's program (R242 c): one is still to come, and either no event is
left before it or no other event is enabled (R243; log 13). -/
def State.resetNow (s : State) : Bool :=
  match s.resetAfter with
  | [] => false
  | n :: _ => decide (n = 0) || (s.program.isEmpty && !s.busy)

/-- Who brings about the next event (R242): reset, when it comes now; the host whenever it has an access left, the
sequencer exactly while busy; where both may, the host as long as it has a lead (log 3); nobody at the end of a run
(R243). -/
def State.mover (s : State) : Option Agent :=
  if s.resetNow then some .reset
  else
    match s.program, s.busy with
    | [], false => none
    | [], true => some .sequencer
    | _ :: _, false => some .host
    | _ :: _, true => if s.lead = 0 then some .sequencer else some .host

/-- The host's lead after an event (log 3): one less when the host moved ahead of an enabled sequencer step, else a
free value. So a sequencer step that stays enabled is eventually taken (R240), after any number of host events. -/
def State.leadAfter (s : State) (who : Agent) : Nat :=
  match who with
  | .host => if s.busy then s.lead - 1 else Config.hostLead s.tick
  | .sequencer => Config.hostLead s.tick
  | .reset => Config.hostLead s.tick

/-- The resets still to come after an event: a reset that came is no longer to come, any other event brings the next
one nearer (log 13). -/
def State.resetsAfter (s : State) (who : Agent) : List Nat :=
  match who, s.resetAfter with
  | _, [] => []
  | .reset, _ :: rest => rest
  | .host, n :: rest => (n - 1) :: rest
  | .sequencer, n :: rest => (n - 1) :: rest

/-- The bookkeeping after an event of the state `s` that left `t` (log 3, log 13): a finished line leaves the host's
program, the host's lead and the resets to come are carried on, and the event is counted. -/
def State.moveOn (s : State) (who : Agent) (lineDone : Bool) (t : State) : State :=
  { t with
    program := if lineDone then t.program.tail else t.program
    lead := s.leadAfter who
    resetAfter := s.resetsAfter who
    tick := t.tick + 1 }

/-- The event of whoever brings it about. -/
def agentEvent (s : State) : Result :=
  match s.mover with
  | none => .next s
  | some .reset => .next (s.moveOn .reset false s.resetBlock)
  | some .sequencer => andThen (seqStep s) (s.moveOn .sequencer false)
  | some .host =>
    match s.program with
    | [] => .next s
    | x :: _ => andThen (hostEvent x s) (s.moveOn .host (x.doneAfter s))

/-- The resets to come, put off by one event. -/
def putOff : List Nat → List Nat
  | [] => []
  | n :: rest => (n + 1) :: rest

/-- `s` with the `CMD` write of the word `w` as the host's next access and as the next event: one more event that the
host may make, and one more before the next reset. -/
def State.withCommand (s : State) (w : Word) : State :=
  { s with
    program := .wr (Reg.number .cmd) w :: s.program
    lead := s.lead + 1
    resetAfter := putOff s.resetAfter }

end Sys2Proof.Machine
end

