-- ==== Sys2Proof/Machine/HostProgram.lean ====
section
/-! DEFINITION. Host programs as lists of actions: the notation's pseudo-operations (`30_encoding.md` R92) and the
source's entry points (`43_top_level_and_housekeeping.md` R183). -/

namespace Sys2Proof.Machine

/-- `WR <reg>, <value>` (R92). -/
def lineWr (r : Reg) (v : Word) : HostAction := .wr r.number v

/-- `RD <reg>` (R92). -/
def lineRd (r : Reg) : HostAction := .rd r.number

/-- `CMD <mnemonic>` and `CMD <mnemonic>, <side>` (R92). -/
def lineCmd (i : Instr) : HostAction := .wr (Reg.number .cmd) (encode i)

/-- `LOADKEY k0, k1, k2, k3` (R92). -/
def loadKey (k : Key) : List HostAction :=
  [lineWr (.key 0) k[0], lineWr (.key 1) k[1], lineWr (.key 2) k[2], lineWr (.key 3) k[3]]

/-- `LOADPROOF e0, ..., e(P-1)`, in index order (R92). -/
def loadProof (edges : List Word) : List HostAction :=
  (List.range edges.length).map (fun n => lineWr (.proof n) (edges.getD n 0))

/-- `PUSHHDR b0 ... b(L-1)`: the length, then the bytes (R92). -/
def pushHdr (header : List Byte) : List HostAction :=
  lineWr .hdrLen (BitVec.ofNat 64 header.length) :: header.map (fun b => lineWr .hdrPush (b.setWidth 64))

/-- `derive_key(header)` as a host program (R183). -/
def progDeriveKey (header : List Byte) : List HostAction :=
  pushHdr header ++ [lineCmd .deriveKey, .wait, lineRd (.key 0), lineRd (.key 1), lineRd (.key 2), lineRd (.key 3)]

/-- `verify(edges, key)` as a host program (R183). -/
def progVerify (edges : List Word) (key : Key) : List HostAction :=
  loadKey key ++ loadProof edges ++ [lineCmd .verify, .wait, lineRd .verdict]

/-- The top-level entry as a host program (R183). -/
def progVerifyHeader (header : List Byte) (edges : List Word) : List HostAction :=
  pushHdr header ++ loadProof edges ++ [lineCmd .verifyHeader, .wait, lineRd .verdict]

/-- The first form of the generator as a host program (R183). -/
def progSipnode (e : Word) (side : BitVec 1) : List HostAction :=
  [lineWr .argEdge e, lineCmd (.sipnode side), .wait, lineRd .node]

/-- The second form of the generator as a host program (R183). -/
def progSipnodeTagged (e : Word) (side : BitVec 1) : List HostAction :=
  [lineWr .argEdge e, lineCmd (.sipnodeTagged side), .wait, lineRd .node]

end Sys2Proof.Machine
end

