-- ==== Sys2Proof/Machine/Step.lean ====
section
/-! DEFINITION. One step of the machine: one event of the step relation of the block with its host
(`70_reset_and_hazards.md` R242), and how a command comes to be the next event. -/

namespace Sys2Proof.Machine

/-- One event: the host's next access, one sequencer step, or reset (R242); at the end of a run nothing changes
(R243). An invalid configuration has no instance (R9, R225; log 12). -/
def step (s : State) : Host.Outcome State Fault Refusal :=
  if s.cfg.wellFormed then agentEvent s else .refused .invalidConfig

/-- `s` with the command word `w` delivered next: the block fetches no instructions (R70), so the word is the `CMD`
write that the host makes in the next event (log 2). -/
def State.withFetchWord (s : State) (_nbits w : Nat) : State := s.withCommand (BitVec.ofNat 64 w)

end Sys2Proof.Machine
end

