-- ==== Sys2Proof/Safety.lean ====
section
/-! DEFINITION. What counts as a sound state and a sound run, in the terms the statements use: the invariant of every
run, runs of the sequencer alone, and the walk as a sequence of positions. -/

namespace Sys2Proof.Machine

/-- `k` sequencer steps, stopping at the first that answers no next state. -/
def seqRun : Nat → State → Result
  | 0, s => .next s
  | k + 1, s =>
    match seqStep s with
    | .next t => seqRun k t
    | .fault r => .fault r
    | .refused r => .refused r

/-- `k` steps of the machine: `k` events of its run (R242, R243). -/
abbrev run (k : Nat) (s : State) : Result := Sys2Proof.core.run k s

/-- A host action that resets the block (R220, R242 c). -/
def HostAction.resets : HostAction → Bool
  | .reset => true
  | .resetWr _ _ => true
  | .resetRd _ => true
  | .wr _ _ => false
  | .rd _ => false
  | .wait => false

/-- The next event is a reset: from outside, or by the host's next line. -/
def State.resetsNext (s : State) : Bool :=
  match s.mover, s.program with
  | some .reset, _ => true
  | some .host, x :: _ => x.resets
  | some .host, [] => false
  | some .sequencer, _ => false
  | none, _ => false

/-- The host-side bookkeeping that host accesses may change while the block is busy: the sticky flags and the record
of the values read (R65, R68 c). Everything else of `s`, with that of `t`. -/
def State.withFlagsAndReads (s t : State) : State :=
  { s with
    errCmd := t.errCmd
    errBusy := t.errBusy
    errOperand := t.errOperand
    errHdr := t.errHdr
    errAddr := t.errAddr
    reads := t.reads }

/-- All that is not the block's own or that host accesses may change while it is busy: the sticky flags, the values
read, what is left of the host's program, the resets to come and the model's counters. Everything else of `s`, with
that of `t`. -/
def State.withHostSideOf (s t : State) : State :=
  { s.withFlagsAndReads t with
    program := t.program
    lead := t.lead
    resetAfter := t.resetAfter
    tick := t.tick }

/-- The sequencer registers and the endpoint array of `s` (R34 to R39, not host-visible), everything else of `t`. -/
def State.withSequencerOf (t s : State) : State :=
  { t with
    opc := s.opc
    opside := s.opside
    n := s.n
    i := s.i
    steps := s.steps
    xor0 := s.xor0
    xor1 := s.xor1
    prev := s.prev
    uvs := s.uvs
    keyBefore := s.keyBefore
    keyvBefore := s.keyvBefore }

/-! ### The invariant -/

/-- The XOR of the endpoints of one side of the first `n` edges of a sequence (R37, R145). -/
def sideXor (c : Config) (key : Key) (edges : Nat → Word) (side : BitVec 1) (n : Nat) : Word :=
  (List.range n).foldl (fun acc k => acc ^^^ sipnode c key (edges k) side) 0

/-- What the first `N` scan steps leave: the edges they passed are in range and ascending, both endpoints of each stand
in `UVS`, the accumulators hold the XOR of each side, and `PREV` is the last edge (R37, R38, R39, R143, R145). -/
structure Scanned (s : State) : Prop where
  inRange : ∀ k < s.n, s.proofAt k ≤ Config.edgeMask s.cfg
  ascending : ∀ k, k + 1 < s.n → s.proofAt k < s.proofAt (k + 1)
  uSide : ∀ k < s.n, Bank.get? s.uvs (2 * k) = some (sipnode s.cfg s.key (s.proofAt k) 0)
  vSide : ∀ k < s.n, Bank.get? s.uvs (2 * k + 1) = some (sipnode s.cfg s.key (s.proofAt k) 1)
  xorU : s.xor0 = sideXor s.cfg s.key s.proofAt 0 s.n
  xorV : s.xor1 = sideXor s.cfg s.key s.proofAt 1 s.n
  last : ∀ k, s.n = k + 1 → s.prev = s.proofAt k

/-- The operands of a verification that is scanning or walking: `VERIFY`, or `VERIFY_HEADER` whose length check passed
and whose key has been written (R87, R176). -/
structure Verifying (s : State) : Prop where
  opcode : s.opc = Instr.opcode .verify ∨ s.opc = Instr.opcode .verifyHeader
  keyed : s.keyValid = true
  full : s.proofFull = true
  derived : s.opc = Instr.opcode .verifyHeader → s.lenOk = true ∧ s.key = s.derivedKey

/-- What holds in each phase (R33, R35, R36, R113, R133, R162, R176). -/
def PhaseInv (s : State) : Prop :=
  match s.phase with
  | .idle => True
  | .hdrchk =>
    s.opc = Instr.opcode .verifyHeader ∧ s.proofFull = true ∧ s.n = 0 ∧ s.xor0 = 0 ∧ s.xor1 = 0 ∧
      s.key = s.keyBefore ∧ s.keyv = s.keyvBefore
  | .hash =>
    (s.opc = Instr.opcode .deriveKey ∧ s.headerReady = true) ∨
      (s.opc = Instr.opcode .verifyHeader ∧ s.lenOk = true ∧ s.proofFull = true ∧ s.n = 0 ∧ s.xor0 = 0 ∧ s.xor1 = 0)
  | .node =>
    (s.opc = Instr.opcode (.sipnode 0) ∨ s.opc = Instr.opcode (.sipnodeTagged 0)) ∧ s.edgeReady = true
  | .scan => Verifying s ∧ s.n < s.cfg.proofSize ∧ Scanned s
  | .xorchk => Verifying s ∧ s.n = s.cfg.proofSize ∧ Scanned s
  | .walk =>
    Verifying s ∧ s.n = s.cfg.proofSize ∧ Scanned s ∧ s.xor0 = 0 ∧ s.xor1 = 0 ∧ s.steps ≤ s.cfg.proofSize

/-- The invariant of every run: the configuration is valid, the arrays keep their canonical form within their bounds,
every register keeps its range and width (R35 to R39), results are zero while not valid (R25, R40), nothing is shown
while busy (R231), every header byte counted has been written (R29), and the phase agrees with what it stands on. -/
structure Inv (s : State) : Prop where
  config : s.cfg.wellFormed = true
  memory : Memory.wf s
  hdrWithin : s.hdrCount ≤ s.cfg.hdrMax
  hdrWritten : ∀ b < s.hdrCount, (Bank.get? s.hdr b).isSome = true
  overflowFull : s.hdrOvf = true → s.hdrCount = s.cfg.hdrMax
  proofHeld : ∀ n, s.proofvAt n = false → s.proofAt n = 0
  nodeHeld : s.nodeValid = false → s.node = 0
  verdictHeld : s.verdictValid = false → s.verdictCode = 0
  busyQuiet : s.busy = true → s.done = false ∧ s.nodeValid = false ∧ s.verdictValid = false
  scanRange : s.n ≤ s.cfg.proofSize
  walkRange : s.i < 2 * s.cfg.proofSize
  stepRange : s.steps ≤ s.cfg.proofSize + 1
  xorWidth : s.xor0.toNat < 2 ^ Config.width s.cfg ∧ s.xor1.toNat < 2 ^ Config.width s.cfg
  prevWidth : s.prev.toNat < 2 ^ Config.width s.cfg
  uvsWidth : ∀ e ∈ s.uvs, e.2.toNat < 2 ^ Config.width s.cfg
  phase : PhaseInv s

/-! ### The walk as a sequence of positions -/

/-- The position a walk stands on after `k` steps that each found exactly one match, none of which closed the walk
before; `none` once a step found no match or several, or the walk had closed (R148, R151). -/
def walkPos (p : Nat) (uvs : Nat → Word) : Nat → Option Nat
  | 0 => some 0
  | k + 1 =>
    match walkPos p uvs k with
    | none => none
    | some i =>
      if k ≠ 0 ∧ i = 0 then none
      else if (findMatch p uvs i).1 = 1 then some ((findMatch p uvs i).2 ^^^ 1)
      else none

/-- The tagged form of an endpoint array (R160). -/
def taggedArray (uvs : Nat → Word) (k : Nat) : Word := (uvs k <<< 1) ||| BitVec.ofNat 64 (k % 2)

end Sys2Proof.Machine
end

