-- ==== Sys2Proof/Certificates/Slice0/Obligations.lean ====
section
/-! DEFINITION. The statements for the provers, from the numbered rules of spec/. Frames are written as record updates:
`{ s with … }` names every field that changes, so every other field is unchanged, the arrays among them. -/

open Sys2Proof Sys2Proof.Machine

/-! ### Command words (`30_encoding.md`) -/

/-- R81, R84: a word decodes to an operation exactly when it is the word the encoder writes for it, whatever `SIDE`
is: no bit of a word is dropped, and no two words mean the same operation. -/
def Obligations.DecodeAndEncodeAgree : Prop :=
  ∀ (w : Word) (i : Instr), decode w = some i ↔ encode i = w

/-- R85: the decoder refuses exactly the illegal words (opcode `0x07` to `0xFF`, a bit of `[63:9]`, bit 8 in format N),
and writing one to `CMD` while idle sets `ERR_CMD` and changes nothing else. -/
def Obligations.IllegalWordsStartNothing : Prop :=
  (∀ w : Word, decode w = none ↔
    0x07 ≤ (w.extractLsb' 0 8).toNat ∨ w.extractLsb' 9 55 ≠ 0 ∨
      ((w.extractLsb' 0 8).toNat ≠ 0x02 ∧ (w.extractLsb' 0 8).toNat ≠ 0x03 ∧ w.extractLsb' 8 1 ≠ 0)) ∧
  (∀ (s : State) (w : Word), decode w = none → s.busy = false → regWrite 0x0003 w s = .next { s with errCmd := true })

/-- R84: a word decodes to an operation of a row of the opcode map exactly when it agrees with the row's match value
under the row's mask. -/
def Obligations.DecodeFollowsMaskAndMatch : Prop :=
  ∀ (w : Word) (i : Instr), (∃ j, decode w = some j ∧ j.row = i.row) ↔ w &&& i.row.mask = i.row.pattern

/-- R84 (and the encoding vectors of `95_test_vectors.md` section 6): one word of every operation, written out. -/
def Obligations.OpcodeMapWordsDecode : Prop :=
  decode 0x0000000000000000 = some .nop ∧ decode 0x0000000000000001 = some .deriveKey ∧
  decode 0x0000000000000002 = some (.sipnode 0) ∧ decode 0x0000000000000102 = some (.sipnode 1) ∧
  decode 0x0000000000000003 = some (.sipnodeTagged 0) ∧ decode 0x0000000000000103 = some (.sipnodeTagged 1) ∧
  decode 0x0000000000000004 = some .verify ∧ decode 0x0000000000000005 = some .verifyHeader ∧
  decode 0x0000000000000006 = some .clear ∧ decode 0x0000000000000007 = none ∧ decode 0x0000000000000100 = none ∧
  decode 0x0000000000000202 = none ∧ decode 0x8000000000000004 = none

/-! ### The step relation (`70_reset_and_hazards.md` section 6) -/

/-- R83, R242: when the host moves and its next access writes to `CMD` a word that decodes to `i`, the step is `exec`
of `i` at that state; after it the line leaves the host's program and the event is counted. What becomes of the host's
lead and of the resets to come is the model's bookkeeping (log 3, log 13). -/
def Obligations.StepRunsTheDecodedCommand : Prop :=
  ∀ (s : State) (w : Word) (i : Instr) (rest : List HostAction),
    s.cfg.wellFormed = true → s.program = .wr 0x0003 w :: rest → s.mover = some .host → decode w = some i →
    step s = andThen (exec i s) (fun t =>
      { t with
        program := t.program.tail
        lead := if s.busy then s.lead - 1 else Config.hostLead s.tick
        resetAfter := s.resetsAfter .host
        tick := t.tick + 1 })

/-- R242, R243: which event comes next. Reset may come at any time, whatever the block and the host's program are at:
it comes when no event is left before it, or no other event is enabled. Else the host may move whenever it has an
access left, the sequencer exactly while busy, and where both may the host does so as long as it has a lead. At the end
of a run nothing changes. The lead and the resets to come are the model's fields (log 3, log 13). -/
def Obligations.EachStepIsOneEnabledEvent : Prop :=
  ∀ s : State, s.cfg.wellFormed = true →
    (s.program = [] → s.busy = false → s.resetAfter = [] → step s = .next s) ∧
    (∀ n rest, s.resetAfter = n :: rest → (n = 0 ∨ (s.program = [] ∧ s.busy = false)) →
      step s = andThen (hostEvent .reset s) (fun t =>
        { t with lead := Config.hostLead s.tick, resetAfter := rest, tick := s.tick + 1 })) ∧
    (s.resetAfter.head? ≠ some 0 → s.busy = true → (s.program = [] ∨ s.lead = 0) →
      step s = andThen (seqStep s) (s.moveOn .sequencer false)) ∧
    (s.resetAfter.head? ≠ some 0 → ∀ x rest, s.program = x :: rest → (s.busy = false ∨ s.lead ≠ 0) →
      step s = andThen (hostEvent x s) (s.moveOn .host (x.doneAfter s)))

/-- R92, R242: a `WAIT` line is a loop of reads of `STATUS`: each reads it, and the line stays while `BUSY` is 1. -/
def Obligations.WaitReadsStatusUntilIdle : Prop :=
  ∀ (s : State) (rest : List HostAction),
    s.cfg.wellFormed = true → s.program = .wait :: rest → s.mover = some .host →
    ∃ t, step s = .next t ∧ t.reads = s.reads ++ [s.statusWord s.keyValidRead] ∧
      t.program = if s.busy then .wait :: rest else rest

/-- R9, R11, R225: which configurations are valid; an invalid one has no instance, so no step. The refusal's name is
the model's (log 12). -/
def Obligations.InvalidConfigurationHasNoInstance : Prop :=
  (∀ c : Config, c.wellFormed = true ↔
    (1 ≤ c.edgeBits ∧ c.edgeBits ≤ 63) ∧ c.proofSize % 2 = 0 ∧ 12 ≤ c.proofSize ∧ c.proofSize ≤ 4096 ∧
      1 ≤ c.hdrMax ∧ ∀ len, c.headerLen = some len → len ≤ c.hdrMax) ∧
  (∀ s : State, s.cfg.wellFormed = false → step s = .refused .invalidConfig)

/-! ### Operations written while the block may run them (`exec` answers the operation's effect) -/

/-- R178: `NOP` on an idle block changes nothing; on a busy block it is refused with `ERR_BUSY`. -/
def Obligations.NopChangesNothing : Prop :=
  decode 0x0000000000000000 = some .nop ∧ ∀ s : State,
    (s.busy = false → exec .nop s = .next s) ∧
    (s.busy = true → exec .nop s = .next { s with errBusy := true })

/-- R179: `CLEAR` on an idle block drops the proof, the header and the results, within the write, and changes nothing
else; on a busy block it is refused with `ERR_BUSY`; on a block that holds nothing it changes nothing. -/
def Obligations.ClearDropsOperandsAndResults : Prop :=
  decode 0x0000000000000006 = some .clear ∧ ∀ s : State,
    (s.busy = false → ∃ t, exec .clear s = .next t ∧
      t = { s with
        proof := [], proofv := [], hdrCount := 0, hdrOvf := false, hdrLen := 0, node := 0, nodeValid := false
        verdictCode := 0, verdictValid := false, done := false } ∧
      (∀ n, t.proofAt n = 0 ∧ t.proofvAt n = false) ∧ t.busy = false) ∧
    (s.busy = true → exec .clear s = .next { s with errBusy := true }) ∧
    (s.busy = false → s.proof = [] → s.proofv = [] → s.hdrCount = 0 → s.hdrOvf = false → s.hdrLen = 0 → s.node = 0 →
      s.nodeValid = false → s.verdictCode = 0 → s.verdictValid = false → s.done = false → exec .clear s = .next s)

/-- R83, R111, R113: on an idle block with a valid key and `ARG_EDGE <= EDGEMASK`, `SIPNODE side` is accepted, and the
one sequencer step after it writes `sipnode(KEY, ARG_EDGE, side)` to `NODE` and completes. -/
def Obligations.SipnodeLeavesTheEndpoint : Prop :=
  ∀ (s : State) (side : BitVec 1),
    s.busy = false → s.keyValid = true → s.argEdge ≤ Config.edgeMask s.cfg →
    ∃ t, exec (.sipnode side) s = .next t ∧
      t = { s with
        opc := 0x02, opside := side, done := false, nodeValid := false, node := 0, verdictValid := false
        verdictCode := 0, phase := .node } ∧
      seqStep t = .next { t with
        node := prf s.cfg s.key (2 * s.argEdge + side.setWidth 64) &&& Config.edgeMask s.cfg
        nodeValid := true, done := true, phase := .idle }

/-- R83, R112, R113: the same for `SIPNODE_TAGGED`, with the tagged form of the endpoint. -/
def Obligations.SipnodeTaggedLeavesTheTaggedEndpoint : Prop :=
  ∀ (s : State) (side : BitVec 1),
    s.busy = false → s.keyValid = true → s.argEdge ≤ Config.edgeMask s.cfg →
    ∃ t, exec (.sipnodeTagged side) s = .next t ∧
      t = { s with
        opc := 0x03, opside := side, done := false, nodeValid := false, node := 0, verdictValid := false
        verdictCode := 0, phase := .node } ∧
      seqStep t = .next { t with
        node := ((prf s.cfg s.key (2 * s.argEdge + side.setWidth 64) &&& Config.edgeMask s.cfg) <<< 1) |||
          side.setWidth 64
        nodeValid := true, done := true, phase := .idle }

/-- R83, R132, R133: on an idle block whose header did not overflow and whose declared length is the number of bytes
supplied, `DERIVE_KEY` is accepted, and the one sequencer step after it writes the derived key with its valid bits,
consumes the header and completes. -/
def Obligations.DeriveKeyLeavesTheKey : Prop :=
  ∀ s : State,
    s.busy = false → s.hdrOvf = false → s.hdrLen.toNat = s.hdrCount →
    ∃ t, exec .deriveKey s = .next t ∧
      t = { s with
        opc := 0x01, opside := 0, done := false, nodeValid := false, node := 0, verdictValid := false
        verdictCode := 0, phase := .hash } ∧
      seqStep t = .next { t with
        key := deriveKey s.cfg ((List.range s.hdrCount).map s.hdrAt) s.legacy
        keyv := #v[true, true, true, true], hdrCount := 0, hdrOvf := false, hdrLen := 0, done := true
        phase := .idle }

/-- R83, R87, R162, R176: on an idle block with a full proof, `VERIFY` with a valid key, and `VERIFY_HEADER` whatever
the key, are accepted: latched, old results dropped, scan registers cleared, in phase `SCAN` and `HDRCHK`. `keyBefore`
and `keyvBefore` are the model's own (log 5). -/
def Obligations.VerificationsAreAccepted : Prop :=
  ∀ s : State, s.busy = false → s.proofFull = true →
    (s.keyValid = true → exec .verify s = .next { s with
      opc := 0x04, opside := 0, done := false, nodeValid := false, node := 0, verdictValid := false, verdictCode := 0
      n := 0, xor0 := 0, xor1 := 0, prev := 0, i := 0, steps := 0, phase := .scan }) ∧
    exec .verifyHeader s = .next { s with
      opc := 0x05, opside := 0, done := false, nodeValid := false, node := 0, verdictValid := false, verdictCode := 0
      n := 0, xor0 := 0, xor1 := 0, prev := 0, i := 0, steps := 0, phase := .hdrchk, keyBefore := s.key
      keyvBefore := s.keyv }

/-- R140, R161: an accepted `VERIFY` runs, busy until its end, to the verdict `verify(PROOF, KEY)`: the verdict
and its valid bit are written, the proof is consumed, the block is done and idle, and nothing else of the block changes
but the registers of the sequencer. The bound on the sequencer steps here is the one the cap of R154 gives; R164's own
is `VerificationsKeepTheirStepBounds`. -/
def Obligations.VerifyRunsToItsVerdict : Prop :=
  ∀ s : State,
    s.cfg.wellFormed = true → s.busy = false → s.keyValid = true → s.proofFull = true →
    ∃ t u k, exec .verify s = .next t ∧ k ≤ 2 * s.cfg.proofSize + 2 ∧ seqRun k t = .next u ∧
      (∀ j < k, ∃ v, seqRun j t = .next v ∧ v.busy = true) ∧
      u.withSequencerOf s = { s with
        verdictCode := (verify s.cfg s.proofAt s.key).code, verdictValid := true, proof := [], proofv := []
        done := true, nodeValid := false, node := 0 }

/-- R174, R176: an accepted `VERIFY_HEADER` runs, busy until its end, to the verdict of `verify_header`; with any verdict
but `HEADER_LENGTH` the header's key stays in `KEY`, valid; header and proof are consumed on every verdict. -/
def Obligations.VerifyHeaderRunsToItsVerdict : Prop :=
  ∀ s : State,
    s.cfg.wellFormed = true → s.busy = false → s.proofFull = true →
    ∃ t u k, exec .verifyHeader s = .next t ∧ k ≤ 2 * s.cfg.proofSize + 4 ∧ seqRun k t = .next u ∧
      (∀ j < k, ∃ v, seqRun j t = .next v ∧ v.busy = true) ∧
      ∃ result, result = verifyHeader s.cfg s.header s.hdrLen.toNat s.hdrOvf s.proofAt s.legacy ∧
        u.withSequencerOf s = { s with
          verdictCode := result.1.code, verdictValid := true
          key := result.2.getD s.key
          keyv := if result.2.isSome then #v[true, true, true, true] else s.keyv
          proof := [], proofv := [], hdrCount := 0, hdrOvf := false, hdrLen := 0
          done := true, nodeValid := false, node := 0 }

/-- R164, R176: an accepted `VERIFY` has completed after at most `2*P + 1` sequencer steps, an accepted `VERIFY_HEADER`
after at most `2*P + 3` (in phase `IDLE` a further step changes nothing). -/
def Obligations.VerificationsKeepTheirStepBounds : Prop :=
  ∀ s : State,
    s.cfg.wellFormed = true → s.busy = false → s.proofFull = true →
    (s.keyValid = true → ∃ t u, exec .verify s = .next t ∧ seqRun (2 * s.cfg.proofSize + 1) t = .next u ∧
      u.busy = false ∧ u.done = true) ∧
    (∃ t u, exec .verifyHeader s = .next t ∧ seqRun (2 * s.cfg.proofSize + 3) t = .next u ∧
      u.busy = false ∧ u.done = true)

/-! ### Refusals (`60_exceptions.md` section 3) -/

/-- R202: a legal command written while idle with an operand missing or outside its domain sets `ERR_OPERAND` and
changes nothing else. -/
def Obligations.MissingOperandsAreRefused : Prop :=
  ∀ s : State, s.busy = false →
    (∀ side, (s.keyValid = false ∨ Config.edgeMask s.cfg < s.argEdge) →
      exec (.sipnode side) s = .next { s with errOperand := true } ∧
      exec (.sipnodeTagged side) s = .next { s with errOperand := true }) ∧
    ((s.keyValid = false ∨ s.proofFull = false) → exec .verify s = .next { s with errOperand := true }) ∧
    (s.proofFull = false → exec .verifyHeader s = .next { s with errOperand := true })

/-- R203: `DERIVE_KEY` written while idle with an overflowed header or a length mismatch sets `ERR_HDR` and changes
nothing else; `VERIFY_HEADER` does not set `ERR_HDR` but reports the verdict `HEADER_LENGTH`. -/
def Obligations.HeaderMismatchIsRefused : Prop :=
  (∀ s : State, s.busy = false → (s.hdrOvf = true ∨ s.hdrLen.toNat ≠ s.hdrCount) →
    exec .deriveKey s = .next { s with errHdr := true }) ∧
  (∀ s t : State, exec .verifyHeader s = .next t → t.errHdr = s.errHdr) ∧
  (∀ s : State, s.phase = .hdrchk → (s.hdrOvf = true ∨ s.hdrLen.toNat ≠ s.hdrCount) →
    ∃ t, seqStep s = .next t ∧ t.errHdr = s.errHdr ∧ t.verdictValid = true ∧ t.verdictCode = 1)

/-- R204: any write to a mapped writable register, `CMD` with any word included, while the block is busy sets `ERR_BUSY`
and is dropped. -/
def Obligations.WritesWhileBusyAreDropped : Prop :=
  ∀ (s : State) (a : RegNum) (v : Word) (r : Reg),
    s.busy = true → Reg.ofNumber s.cfg a = some r → r.writable = true →
    regWrite a v s = .next { s with errBusy := true }

/-- R67: an access the map does not allow, busy or not, changes nothing but `ERR_ADDR`, and such a read returns 0; a
read of `CMD` or `HDR_PUSH` returns 0, sets no flag and has no effect (`reads` is the record of the values returned). -/
def Obligations.AccessesTheMapDoesNotAllow : Prop :=
  ∀ (s : State) (a : RegNum) (v : Word),
    (Reg.ofNumber s.cfg a = none →
      regWrite a v s = .next { s with errAddr := true } ∧
      regRead a s = { s with errAddr := true, reads := s.reads ++ [0] }) ∧
    (∀ r, Reg.ofNumber s.cfg a = some r → r.writable = false → regWrite a v s = .next { s with errAddr := true }) ∧
    ((a = 0x0003 ∨ a = 0x000A) → regRead a s = { s with reads := s.reads ++ [0] })

/-! ### The register port (`20_memory.md`, `43_top_level_and_housekeeping.md` section 4) -/

/-- R66: the register map with its access rights, and no other number is mapped. -/
def Obligations.RegisterMapIsTheTable : Prop :=
  ∀ c : Config, c.wellFormed = true →
    (Reg.ofNumber c 0x0000 = some .cfg0 ∧ Reg.ofNumber c 0x0001 = some .cfg1 ∧ Reg.ofNumber c 0x0002 = some .ctrl ∧
      Reg.ofNumber c 0x0003 = some .cmd ∧ Reg.ofNumber c 0x0004 = some .status ∧
      Reg.ofNumber c 0x0005 = some .verdict ∧ Reg.ofNumber c 0x0006 = some .argEdge ∧
      Reg.ofNumber c 0x0007 = some .node ∧ Reg.ofNumber c 0x0008 = some .hdrLen ∧
      Reg.ofNumber c 0x0009 = some .hdrCount ∧ Reg.ofNumber c 0x000A = some .hdrPush) ∧
    (∀ j : Fin 4, Reg.ofNumber c (0x0010 + BitVec.ofNat 16 j.val) = some (.key j)) ∧
    (∀ n < c.proofSize, Reg.ofNumber c (0x1000 + BitVec.ofNat 16 n) = some (.proof n)) ∧
    (∀ a, Reg.ofNumber c a ≠ none → a.toNat ≤ 0x000A ∨ (0x0010 ≤ a.toNat ∧ a.toNat ≤ 0x0013) ∨
      (0x1000 ≤ a.toNat ∧ a.toNat < 0x1000 + c.proofSize)) ∧
    (∀ r : Reg, r.writable = false ↔ r ∈ [.cfg0, .cfg1, .status, .verdict, .node, .hdrCount]) ∧
    (∀ s : State, s.view .cmd = 0 ∧ s.view .hdrPush = 0)

/-- R180, R23, R27: what a write of each plainly stored register does while the block is idle, and that it does nothing
else: `CTRL` keeps bit 0 only, a key word or a proof entry also sets its valid bit, all 64 bits of a proof entry are
kept and every other entry reads as before. -/
def Obligations.IdleWritesStore : Prop :=
  ∀ (s : State) (v : Word), s.cfg.wellFormed = true → s.busy = false →
    regWrite 0x0002 v s = .next { s with legacy := v.getLsbD 0 } ∧
    regWrite 0x0006 v s = .next { s with argEdge := v } ∧
    regWrite 0x0008 v s = .next { s with hdrLen := v } ∧
    (∀ j : Fin 4, ∃ t, regWrite (0x0010 + BitVec.ofNat 16 j.val) v s = .next t ∧
      (∀ k : Fin 4, t.key[k] = if k = j then v else s.key[k]) ∧
      (∀ k : Fin 4, t.keyv[k] = if k = j then true else s.keyv[k]) ∧
      { t with key := s.key, keyv := s.keyv } = s) ∧
    (∀ n < s.cfg.proofSize, ∃ t, regWrite (0x1000 + BitVec.ofNat 16 n) v s = .next t ∧
      (∀ k, t.proofAt k = if k = n then v else s.proofAt k) ∧
      (∀ k, t.proofvAt k = if k = n then true else s.proofvAt k) ∧
      { t with proof := s.proof, proofv := s.proofv } = s)

/-- R181: a write of `HDR_PUSH` while idle appends its low byte to the header, every other header byte reads as before;
on a full buffer the byte is dropped and `HDR_OVF` is set. -/
def Obligations.HeaderPushAppendsOneByte : Prop :=
  ∀ (s : State) (v : Word), s.busy = false →
    (s.hdrCount < s.cfg.hdrMax → ∃ t, regWrite 0x000A v s = .next t ∧
      t.header = s.header ++ [v.setWidth 8] ∧
      (∀ b, t.hdrAt b = if b = s.hdrCount then v.setWidth 8 else s.hdrAt b) ∧
      { t with hdr := s.hdr } = { s with hdrCount := s.hdrCount + 1 }) ∧
    (¬ s.hdrCount < s.cfg.hdrMax → regWrite 0x000A v s = .next { s with hdrOvf := true })

/-- R32 e, R40, R23, R27, R33: every bit of `STATUS`; the bits not listed read as 0; and what the flags that are
computed mean. `kv` is the value shown as `KEY_VALID`. -/
def Obligations.StatusBitsAreTheFlags : Prop :=
  (∀ (s : State) (kv : Bool),
    (∀ e ∈ [(0, s.busy), (1, s.done), (2, kv), (3, s.proofFull), (4, s.nodeValid), (5, s.verdictValid),
        (6, s.hdrOvf), (7, false), (8, s.errCmd), (9, s.errBusy), (10, s.errOperand), (11, s.errHdr),
        (12, s.errAddr)], (s.statusWord kv).getLsbD e.1 = e.2) ∧
    (∀ b, 13 ≤ b → (s.statusWord kv).getLsbD b = false)) ∧
  ∀ s : State,
    (s.keyValid = true ↔ ∀ j : Fin 4, s.keyv[j] = true) ∧
    (s.proofFull = true ↔ ∀ n < s.cfg.proofSize, s.proofvAt n = true) ∧
    (s.busy = false ↔ s.phase = .idle)

/-- R32 f, R88: `VERDICT` holds the code in bits 2..0 and the valid bit in bit 7, every other bit 0; the codes are the
positions in the verdict list; only the code 0 is "valid". -/
def Obligations.VerdictWordAndCodes : Prop :=
  (∀ s : State, s.verdictWord.extractLsb' 0 3 = s.verdictCode ∧ s.verdictWord.getLsbD 7 = s.verdictValid ∧
    ∀ b, 3 ≤ b → b ≠ 7 → s.verdictWord.getLsbD b = false) ∧
  [Verdict.ok, .headerLength, .tooBig, .tooSmall, .nonMatching, .branch, .deadEnd, .shortCycle].map Verdict.code =
    [0, 1, 2, 3, 4, 5, 6, 7] ∧
  ∀ v : Verdict, v.valid = true ↔ v = .ok

/-- R32 a, b: the fields of `CFG0` and `CFG1`, for parameters that fit their fields (a valid configuration's `EDGEBITS`
and `PROOFSIZE` always do; for `HDR_MAX` and `HEADERLEN` it is a premise, since the spec states no value else, log 14). -/
def Obligations.ConfigurationWords : Prop :=
  ∀ c : Config, c.wellFormed = true → c.hdrMax < 2 ^ 32 → (∀ len, c.headerLen = some len → len < 2 ^ 31) →
    (cfg0Word c).toNat =
      c.edgeBits + (if c.edgeBits ≤ 31 then 0 else 2 ^ 8) + c.proofSize * 2 ^ 16 + 2 ^ 32 ∧
    (cfg1Word c).toNat =
      c.hdrMax + (match c.headerLen with | none => 0 | some len => len * 2 ^ 32 + 2 ^ 63)

/-- R182, R231, R65: what a read of each register returns, busy or not, and that it has no effect (but that the value is
recorded as read); what the key words and `KEY_VALID` show while no `VERIFY_HEADER` is busy (while one is:
`UnsettledKeyReadsAreOldOrNew`). -/
def Obligations.ReadsReturnTheRegisters : Prop :=
  ∀ s : State, s.cfg.wellFormed = true →
    (regRead 0x0000 s = s.record (cfg0Word s.cfg) ∧ regRead 0x0001 s = s.record (cfg1Word s.cfg) ∧
      regRead 0x0002 s = s.record (if s.legacy then 1 else 0) ∧
      (∃ kv, regRead 0x0004 s = s.record (s.statusWord kv)) ∧ regRead 0x0005 s = s.record s.verdictWord ∧
      regRead 0x0006 s = s.record s.argEdge ∧ regRead 0x0007 s = s.record s.node ∧
      regRead 0x0008 s = s.record s.hdrLen ∧
      (s.hdrCount < 2 ^ 32 → regRead 0x0009 s = s.record (BitVec.ofNat 64 s.hdrCount)) ∧
      (∀ n < s.cfg.proofSize, regRead (0x1000 + BitVec.ofNat 16 n) s = s.record (s.proofAt n))) ∧
    ((s.busy = false ∨ s.opc ≠ 0x05) →
      regRead 0x0004 s = s.record (s.statusWord s.keyValid) ∧
      ∀ j : Fin 4, regRead (0x0010 + BitVec.ofNat 16 j.val) s = s.record s.key[j])

/-- R231: while `VERIFY_HEADER` is busy, a read of a key word returns the value from before the command or the value
the operation will leave, and a read of `STATUS` shows one of the two as `KEY_VALID`; which, is a free value for each
read (log 5). -/
def Obligations.UnsettledKeyReadsAreOldOrNew : Prop :=
  ∀ s : State, s.busy = true → s.opc = 0x05 →
    (∀ j : Fin 4,
      regRead (0x0010 + BitVec.ofNat 16 j.val) s = s.record s.keyBefore[j] ∨
      regRead (0x0010 + BitVec.ofNat 16 j.val) s =
        s.record (if s.lenOk then deriveKey s.cfg s.header s.legacy else s.keyBefore)[j]) ∧
    ∃ old, (old = true ↔ ∀ j : Fin 4, s.keyvBefore[j] = true) ∧
      (regRead 0x0004 s = s.record (s.statusWord old) ∨
        regRead 0x0004 s = s.record (s.statusWord (s.lenOk || old)))

/-! ### Completion, reset and what only reset does -/

/-- R163: `complete(V)` writes the verdict and its valid bit, consumes the proof, and the header when the command was
`VERIFY_HEADER`, sets `DONE`, leaves the block idle, and records nothing else. -/
def Obligations.CompletionWritesTheVerdict : Prop :=
  ∀ (s : State) (v : Verdict),
    (∃ t, complete v s = .next t ∧ t.busy = false ∧ ∀ n, t.proofAt n = 0 ∧ t.proofvAt n = false) ∧
    (s.opc = 0x05 → complete v s = .next { s with
      verdictCode := v.code, verdictValid := true, proof := [], proofv := [], hdrCount := 0, hdrOvf := false
      hdrLen := 0, done := true, phase := .idle }) ∧
    (s.opc ≠ 0x05 → complete v s = .next { s with
      verdictCode := v.code, verdictValid := true, proof := [], proofv := [], done := true, phase := .idle })

/-- R43, R220, R221: reset, at any state, leaves every piece of state at the value of the table (`HDR` and `UVS` are
unspecified there and not named here); the configuration's constants stay. An access presented during reset has no
other effect, and a read returns a free value (R220, U9; that such an access is a line of the host's program is the
model's choice, log 13). -/
def Obligations.ResetLeavesTheTable : Prop :=
  ∀ s : State, ∃ t, hostEvent .reset s = .next t ∧
    (∀ j : Fin 4, t.key[j] = 0 ∧ t.keyv[j] = false) ∧ t.argEdge = 0 ∧ t.node = 0 ∧
    (∀ n, t.proofAt n = 0 ∧ t.proofvAt n = false) ∧ t.hdrCount = 0 ∧ t.hdrOvf = false ∧ t.hdrLen = 0 ∧
    t.legacy = false ∧ t.busy = false ∧ t.done = false ∧ t.nodeValid = false ∧ t.verdictValid = false ∧
    t.errCmd = false ∧ t.errBusy = false ∧ t.errOperand = false ∧ t.errHdr = false ∧ t.errAddr = false ∧
    t.verdictCode = 0 ∧ t.phase = .idle ∧ t.opc = 0 ∧ t.opside = 0 ∧ t.n = 0 ∧ t.i = 0 ∧ t.steps = 0 ∧
    t.xor0 = 0 ∧ t.xor1 = 0 ∧ t.prev = 0 ∧ t.view .verdict = 0 ∧
    (s.cfg.wellFormed = true → t.view .status = 0) ∧ t.cfg = s.cfg ∧
    (∀ a v, hostEvent (.resetWr a v) s = .next t) ∧
    ∀ a, hostEvent (.resetRd a) s = .next (t.record (Config.readInReset s.tick))

/-- R223: from the reset state, with no host program given, nothing happens (the instance is the model's default,
log 1; that no program is given at reset is log 2, and no reset to come log 13). -/
def Obligations.ResetStartsNothing : Prop :=
  step State.reset = .next State.reset ∧
    ∀ c : Config, c.wellFormed = true → step (State.resetOf c) = .next (State.resetOf c)

/-- R20, R40, R23, R220: no event changes the configuration's constants, and a step that is no reset clears no `ERR`
flag and no `KEYV` bit. -/
def Obligations.StepsKeepConfigurationFlagsAndKeyBits : Prop :=
  ∀ s t : State, step s = .next t →
    t.cfg = s.cfg ∧
    (s.resetsNext = false →
      (s.errCmd = true → t.errCmd = true) ∧ (s.errBusy = true → t.errBusy = true) ∧
      (s.errOperand = true → t.errOperand = true) ∧ (s.errHdr = true → t.errHdr = true) ∧
      (s.errAddr = true → t.errAddr = true) ∧ ∀ j : Fin 4, s.keyv[j] = true → t.keyv[j] = true)

/-! ### What the agents leave alone -/

/-- R22, R24, R39, R40, R114, R162, R172: a sequencer step leaves `ARG_EDGE`, `CTRL`, the `ERR` flags, the header bytes
and the host's side alone; only the `HASH` step writes the key, only scan steps write `UVS`, `N`, the accumulators and
`PREV`, only the steps of the XOR check and the walk write `I` and `STEPS`; until its operation completes it leaves the
proof and the header as they are. The key remembered from before the command (log 5) and the model's counters (log 3)
stay. -/
def Obligations.SequencerStepFrame : Prop :=
  ∀ s t : State, seqStep s = .next t →
    t.cfg = s.cfg ∧ t.argEdge = s.argEdge ∧ t.legacy = s.legacy ∧ t.hdr = s.hdr ∧ t.opc = s.opc ∧
    t.opside = s.opside ∧ t.errCmd = s.errCmd ∧ t.errBusy = s.errBusy ∧ t.errOperand = s.errOperand ∧
    t.errHdr = s.errHdr ∧ t.errAddr = s.errAddr ∧ t.program = s.program ∧ t.reads = s.reads ∧
    t.keyBefore = s.keyBefore ∧ t.keyvBefore = s.keyvBefore ∧
    t.lead = s.lead ∧ t.resetAfter = s.resetAfter ∧ t.tick = s.tick ∧
    (s.phase ≠ .scan → t.uvs = s.uvs ∧ t.n = s.n ∧ t.xor0 = s.xor0 ∧ t.xor1 = s.xor1 ∧ t.prev = s.prev) ∧
    (s.phase ≠ .xorchk → s.phase ≠ .walk → t.i = s.i ∧ t.steps = s.steps) ∧
    (s.phase ≠ .hash → t.key = s.key ∧ t.keyv = s.keyv) ∧
    (s.phase ≠ .node → t.node = s.node ∧ t.nodeValid = s.nodeValid) ∧
    (t.busy = true → t.proof = s.proof ∧ t.proofv = s.proofv ∧ t.hdrCount = s.hdrCount ∧ t.hdrOvf = s.hdrOvf ∧
      t.hdrLen = s.hdrLen ∧ t.done = s.done ∧ t.verdictCode = s.verdictCode ∧ t.verdictValid = s.verdictValid)

/-- R68 c, R230, R231: while the block is busy, a host access that is no reset changes nothing but the sticky flags and
the record of the values read. -/
def Obligations.BusyHostAccessesDisturbNothing : Prop :=
  ∀ (s t : State) (x : HostAction), s.busy = true → x.resets = false → hostEvent x s = .next t →
    t = s.withFlagsAndReads t

/-- R40, R241: a sequencer step does not depend on the `ERR` flags or on the reads made, and does not change them: with
any other flags and reads it does the same. -/
def Obligations.SequencerIgnoresFlagsAndReads : Prop :=
  ∀ s r : State, seqStep (s.withFlagsAndReads r) = andThen (seqStep s) (fun t => t.withFlagsAndReads r)

/-! ### Generator and derivation (`40_edge_endpoint_generator.md`, `41_header_key_derivation.md`) -/

/-- R107, R109: in its domain, the generator's input `2*e + s` does not wrap around, the endpoint is below `NEDGES`, and
the tagged form is `2*node + side`, below `2*NEDGES`: the shift drops no bit. -/
def Obligations.EndpointRanges : Prop :=
  ∀ (c : Config) (key : Key) (e : Word) (side : BitVec 1),
    c.wellFormed = true → e ≤ Config.edgeMask c →
    (2 * e + side.setWidth 64).toNat = 2 * e.toNat + side.toNat ∧
    (sipnode c key e side).toNat < 2 ^ c.edgeBits ∧
    (sipnodeTagged c key e side).toNat = 2 * (sipnode c key e side).toNat + side.toNat ∧
    (sipnodeTagged c key e side).toNat < 2 * 2 ^ c.edgeBits

/-- R110: a tagged value holds the untagged node and the side, so two tagged values are equal exactly when their sides
and their untagged nodes are. It is stated for every edge; for one above `EDGEMASK` the spec gives the generator no
value, and that the function is total there is the model's choice (log 18). -/
def Obligations.TaggedFormHoldsNodeAndSide : Prop :=
  ∀ (c : Config) (key key' : Key) (e e' : Word) (side side' : BitVec 1), c.wellFormed = true →
    sipnodeTagged c key e side >>> 1 = sipnode c key e side ∧
    sipnodeTagged c key e side &&& 1 = side.setWidth 64 ∧
    (sipnodeTagged c key e side = sipnodeTagged c key' e' side' ↔
      side = side' ∧ sipnode c key e side = sipnode c key' e' side')

/-- R105, R127, and `95_test_vectors.md` section 3.1: values of the default `PRF`, and the check values of the default
`H256`, each digest as the number whose big-endian bytes are the digest (the spec has both functions from general
knowledge; log 7). -/
def Obligations.DefaultFunctionValues : Prop :=
  (sipHash #v[1, 2, 3, 4] 5 = 0x36231475ca2115e2 ∧
    sipHash #v[0, 0, 0, 0] 0 = 0x3c4ceb5cc070daa0 ∧
    sipHash #v[1, 2, 3, 4] 0xffffffffffffffff = 0xd3af0e4e9d211cb1 ∧
    sipHash #v[0xffffffffffffffff, 0xffffffffffffffff, 0xffffffffffffffff, 0xffffffffffffffff] 1 =
      0xadef896f58ece134) ∧
  ([[], [0x61, 0x62, 0x63], List.replicate 128 0, List.replicate 129 0] : List (List Byte)).map
      (fun m => (blake2b256 m).toList.foldl (fun acc b => acc * 256 + b.toNat) 0) =
    [0x0e5751c026e543b2e8ab2eb06099daa1d1e5df47778f7787faab45cdf12fe3a8,
      0xbddd813c634239723171ef3fee98579b94964e3bb1cb3e427262c8c068d52319,
      0x378d0caaaa3855f1b38693c1d6ef004fd118691c95c959d4efa950d6d6fcf7c1,
      0xbaadfb64c3bd2cd187b54accc5e61a0720ed86bf48c28017873536cf9015d1b8]

/-- R128, R129: in default mode, byte `b` of key word `j` is byte `8*j + b` of the digest, for every header and every
`H256`. The little-endian cut is the spec's own, from general knowledge (G4; PRESUMED, log 7). -/
def Obligations.KeyWordsAreLittleEndian : Prop :=
  ∀ (c : Config) (header : List Byte) (j : Fin 4) (b : Fin 8),
    (deriveKey c header false)[j].extractLsb' (8 * b.val) 8 = (h256 c header)[8 * j.val + b.val]

/-- R129, R130, R131: the legacy key is the first two default words XORed with the four constants, so whatever the
header, `k0 ^ k2` and `k1 ^ k3` are fixed. -/
def Obligations.LegacyKeyWords : Prop :=
  ∀ (c : Config) (header : List Byte),
    deriveKey c header true =
      #v[(deriveKey c header false)[0] ^^^ c.legacyC0, (deriveKey c header false)[1] ^^^ c.legacyC1,
        (deriveKey c header false)[0] ^^^ c.legacyC2, (deriveKey c header false)[1] ^^^ c.legacyC3] ∧
    (deriveKey c header true)[0] ^^^ (deriveKey c header true)[2] = c.legacyC0 ^^^ c.legacyC2 ∧
    (deriveKey c header true)[1] ^^^ (deriveKey c header true)[3] = c.legacyC1 ^^^ c.legacyC3

/-! ### The cycle verifier (`42_cycle_verifier.md`) -/

/-- R147: the candidates of position `i` are the `P - 1` other positions of its side, each once (the rule marks that as
derived); `find_match` gives the number of those that hold the value of `i` and, when it is 1, the position. -/
def Obligations.CandidatesAreTheOtherSameSidePositions : Prop :=
  ∀ p i : Nat, i < 2 * p →
    (candidates p i).length = p - 1 ∧ (candidates p i).Nodup ∧
    (∀ k, k ∈ candidates p i ↔ k < 2 * p ∧ k ≠ i ∧ k % 2 = i % 2) ∧
    ∀ uvs : Nat → Word,
      (findMatch p uvs i).1 = ((List.range (2 * p)).filter
        (fun k => decide (k ≠ i ∧ k % 2 = i % 2 ∧ uvs k = uvs i))).length ∧
      ((findMatch p uvs i).1 = 1 → (findMatch p uvs i).2 < 2 * p ∧ (findMatch p uvs i).2 ≠ i ∧
        (findMatch p uvs i).2 % 2 = i % 2 ∧ uvs (findMatch p uvs i).2 = uvs i)

/-- R142, R143, R144: step 1 passes exactly the sequences that are in range and strictly ascending; else it reports the
first failing index, the bound check first. -/
def Obligations.ScanReportsTheFirstRejection : Prop :=
  ∀ (c : Config) (edges : Nat → Word),
    (scanVerdict c edges c.proofSize 0 = none ↔
      (∀ n < c.proofSize, edges n ≤ Config.edgeMask c) ∧
      ∀ n m, n < m → m < c.proofSize → edges n < edges m) ∧
    ∀ v, scanVerdict c edges c.proofSize 0 = some v ↔
      ∃ n < c.proofSize,
        (∀ k < n, edges k ≤ Config.edgeMask c ∧ (k > 0 → edges (k - 1) < edges k)) ∧
        ((v = .tooBig ∧ Config.edgeMask c < edges n) ∨
          (v = .tooSmall ∧ edges n ≤ Config.edgeMask c ∧ n > 0 ∧ edges n ≤ edges (n - 1)))

/-- R159, R175, R194: the order of the rejections of the top-level entry: the header length; then, with the key derived
from the header, those of `verify`: step 1, the XOR check, the walk; and the inner verifier never reports
`HEADER_LENGTH` (R89, R177). -/
def Obligations.RejectionsComeInOrder : Prop :=
  ∀ (c : Config) (header : List Byte) (len : Nat) (ovf : Bool) (edges : Nat → Word) (legacy : Bool) (key : Key),
    ((verifyHeader c header len ovf edges legacy).1 = .headerLength ↔
      ovf = true ∨ len ≠ header.length ∨ ∃ l, c.headerLen = some l ∧ len ≠ l) ∧
    ((verifyHeader c header len ovf edges legacy).1 = .headerLength →
      (verifyHeader c header len ovf edges legacy).2 = none) ∧
    ((verifyHeader c header len ovf edges legacy).1 ≠ .headerLength →
      verifyHeader c header len ovf edges legacy =
        (verify c edges (deriveKey c header legacy), some (deriveKey c header legacy))) ∧
    verify c edges key ≠ .headerLength ∧
    (∀ v, scanVerdict c edges c.proofSize 0 = some v → verify c edges key = v) ∧
    (scanVerdict c edges c.proofSize 0 = none →
      (verify c edges key = .nonMatching ↔
        xorSide c.proofSize (endpoints c key edges) 0 ≠ 0 ∨ xorSide c.proofSize (endpoints c key edges) 1 ≠ 0) ∧
      (xorSide c.proofSize (endpoints c key edges) 0 = 0 → xorSide c.proofSize (endpoints c key edges) 1 = 0 →
        verify c edges key ∈ [.ok, .branch, .deadEnd, .shortCycle]))

/-- R155, R156: a position a walk stands on is in the array, on the U side before every even-numbered step and on the
V side before every odd-numbered one. -/
def Obligations.WalkAlternatesSides : Prop :=
  ∀ (p : Nat) (uvs : Nat → Word) (k i : Nat), 0 < p → walkPos p uvs k = some i → i < 2 * p ∧ i % 2 = k % 2

/-- R157: the cap is never reached, whatever the endpoint array: a walk makes at most `P` steps, and after `P` of them
it can only stand on position 0. -/
def Obligations.WalkNeverReachesTheCap : Prop :=
  ∀ (p : Nat) (uvs : Nat → Word) (k i : Nat), walkPos p uvs k = some i → k ≤ p ∧ (k = p → i = 0)

/-- R158, forward direction: with verdict `OK` every position has exactly one match, so every node that occurs has
degree 2, and the walk passes every edge: the edges form one closed walk. -/
def Obligations.OkMeansOneSimpleCycle : Prop :=
  ∀ (p : Nat) (uvs : Nat → Word), 0 < p → walkVerdict p uvs = .ok →
    (∀ i < 2 * p, (findMatch p uvs i).1 = 1) ∧
    (∀ e < p, ∃ k < p, ∃ i, walkPos p uvs k = some i ∧ i / 2 = e) ∧ walkPos p uvs p = some 0

/-- R158, converse direction (the source's first testable property): when every position has exactly one match and the
walk from position 0 passes every edge, the verdict is `OK`. -/
def Obligations.SimpleCyclesAreAccepted : Prop :=
  ∀ (p : Nat) (uvs : Nat → Word), 0 < p → (∀ i < 2 * p, (findMatch p uvs i).1 = 1) →
    (∀ e < p, ∃ k < p, ∃ i, walkPos p uvs k = some i ∧ i / 2 = e) → walkVerdict p uvs = .ok

/-- R160: for an even cycle length the verdict is the same whichever form of the endpoint the array holds (untagged
values below `2^63`, so that the shift drops no bit, R109). -/
def Obligations.TaggedArrayGivesTheSameVerdict : Prop :=
  ∀ (p : Nat) (uvs : Nat → Word), p % 2 = 0 → (∀ k, (uvs k).toNat < 2 ^ 63) →
    walkVerdict p (taggedArray uvs) = walkVerdict p uvs

/-- R21, R155, R241: the verdict depends on the key and on the `P` proof entries alone. -/
def Obligations.VerdictDependsOnTheProofAlone : Prop :=
  ∀ (c : Config) (edges edges' : Nat → Word) (key : Key),
    (∀ n < c.proofSize, edges n = edges' n) → verify c edges key = verify c edges' key

/-! ### The invariant of every run, and what it gives -/

/-- R43: the reset state of every valid configuration meets the invariant, the model's default instance (log 1) among
them. -/
def Obligations.InvariantHoldsAtReset : Prop :=
  Inv State.reset ∧ ∀ c : Config, c.wellFormed = true → Inv (State.resetOf c)

/-- R25, R29, R33 to R40, R162, R176: every step keeps the invariant: the arrays' canonical form and bounds, the ranges
and widths of the sequencer registers, results zero while not valid, nothing shown while busy, and in each phase what
the operation stands on. -/
def Obligations.EveryStepKeepsTheInvariant : Prop :=
  ∀ s t : State, Inv s → step s = .next t → Inv t

/-- R198, R242: from a state that meets the invariant a step always answers a next state: no fault, no refusal. -/
def Obligations.SoundStatesNeverStop : Prop :=
  ∀ s : State, Inv s → ∃ t, step s = .next t

/-- R164, R176, R198, R240: from a state that meets the invariant a busy block reaches the end of its operation, with
`DONE` set, within `2*P + 4` sequencer steps (the bounds of R164 and R176 count from acceptance and use that the cap is
never reached, which the invariant does not record). -/
def Obligations.BusyBlockCompletes : Prop :=
  ∀ s : State, Inv s → s.busy = true →
    ∃ k t, k ≤ 2 * s.cfg.proofSize + 4 ∧ seqRun k s = .next t ∧ t.busy = false ∧ t.done = true

/-- R198, R240, R241, R242: in every run in which no reset comes, whatever the host does and however its accesses and the
steps interleave, an operation that is running completes; and at its end the block is as the sequencer's steps alone
leave it, but for the sticky flags and the host's side. The host's lead, any number, is the model's form of the fairness
(log 3). -/
def Obligations.OperationsCompleteInEveryRun : Prop :=
  ∀ s : State, Inv s → s.busy = true → s.resetAfter = [] → (∀ x ∈ s.program, x.resets = false) →
    ∃ k m t u, run k s = .next t ∧ seqRun m s = .next u ∧ u.busy = false ∧ u.done = true ∧
      t = u.withHostSideOf t ∧ ∀ j < k, ∃ v, run j s = .next v ∧ v.busy = true

/-- R240, R243: every run ends, whatever the host program and the resets that come: with no access left, no reset to
come and the block idle, and then the state no longer changes. No host program leaves the block stuck, and every `WAIT`
loop ends (fairness and resets in the model's form, log 3 and log 13). -/
def Obligations.EveryRunEnds : Prop :=
  ∀ s : State, Inv s → ∃ k t, run k s = .next t ∧ t.program = [] ∧ t.busy = false ∧ t.resetAfter = [] ∧
    step t = .next t

/-- R231: while busy, `STATUS` shows `BUSY = 1`, `DONE = 0`, `NODE_VALID = 0`, `VERDICT_VALID = 0`, and `NODE` and
`VERDICT` read 0. -/
def Obligations.BusyBlockShowsNoResult : Prop :=
  ∀ s : State, Inv s → s.busy = true →
    (s.view .status).getLsbD 0 = true ∧ (s.view .status).getLsbD 1 = false ∧ (s.view .status).getLsbD 4 = false ∧
    (s.view .status).getLsbD 5 = false ∧ s.view .node = 0 ∧ s.view .verdict = 0

/-- R162: in a state that meets the invariant and is scanning, a sequencer step rejects the edge at `N` or takes both
its endpoints: they stand at `2*N` and `2*N+1` of `UVS`, every other entry reads as before. -/
def Obligations.ScanStepStoresBothEndpoints : Prop :=
  ∀ s : State, Inv s → s.phase = .scan →
    (Config.edgeMask s.cfg < s.proofAt s.n → seqStep s = complete .tooBig s) ∧
    (s.proofAt s.n ≤ Config.edgeMask s.cfg → s.n > 0 → s.proofAt s.n ≤ s.proofAt (s.n - 1) →
      seqStep s = complete .tooSmall s) ∧
    (s.proofAt s.n ≤ Config.edgeMask s.cfg → (s.n > 0 → s.proofAt (s.n - 1) < s.proofAt s.n) →
      ∃ t, seqStep s = .next t ∧
        (∀ k, t.uvsAt k = if k = 2 * s.n then sipnode s.cfg s.key (s.proofAt s.n) 0
          else if k = 2 * s.n + 1 then sipnode s.cfg s.key (s.proofAt s.n) 1 else s.uvsAt k) ∧
        { t with uvs := s.uvs } = { s with
          xor0 := s.xor0 ^^^ sipnode s.cfg s.key (s.proofAt s.n) 0
          xor1 := s.xor1 ^^^ sipnode s.cfg s.key (s.proofAt s.n) 1
          prev := s.proofAt s.n
          n := s.n + 1
          phase := if s.n + 1 = s.cfg.proofSize then .xorchk else .scan })

/-- R146, R162: in phase `XORCHK` a nonzero accumulator ends the verification with `NON_MATCHING`; else the walk starts
at position 0 with no step made. -/
def Obligations.XorCheckStartsTheWalk : Prop :=
  ∀ s : State, s.phase = .xorchk →
    ((s.xor0 ≠ 0 ∨ s.xor1 ≠ 0) → seqStep s = complete .nonMatching s) ∧
    (s.xor0 = 0 → s.xor1 = 0 → seqStep s = .next { s with i := 0, steps := 0, phase := .walk })

/-- R148 to R152, R154, R162: a walk step counts the other same-side positions that hold the value at `I`: more than
one ends with `BRANCH`, none with `DEAD_END`; the only one, `k`, is crossed to `k ^ 1` and the step is counted; back at
position 0 the verdict is `OK` after exactly `P` steps and `SHORT_CYCLE` otherwise; `P + 1` steps stop the walk. -/
def Obligations.WalkStepFollowsTheOnlyMatch : Prop :=
  ∀ (s : State) (matching : List Nat), s.phase = .walk →
    matching = (candidates s.cfg.proofSize s.i).filter (fun k => decide (s.uvsAt k = s.uvsAt s.i)) →
    (1 < matching.length → seqStep s = complete .branch s) ∧
    (matching = [] → seqStep s = complete .deadEnd s) ∧
    (∀ k, matching = [k] →
      (k ^^^ 1 ≠ 0 → s.steps ≠ s.cfg.proofSize →
        seqStep s = .next { s with i := k ^^^ 1, steps := s.steps + 1 }) ∧
      (k ^^^ 1 = 0 → s.steps + 1 = s.cfg.proofSize →
        seqStep s = complete .ok { s with i := 0, steps := s.steps + 1 }) ∧
      (k ^^^ 1 = 0 → s.steps + 1 ≠ s.cfg.proofSize →
        seqStep s = complete .shortCycle { s with i := 0, steps := s.steps + 1 }) ∧
      (k ^^^ 1 ≠ 0 → s.steps = s.cfg.proofSize →
        seqStep s = complete .shortCycle { s with i := k ^^^ 1, steps := s.steps + 1 }))
end

