-- ==== Sys2Proof/Laws/State.lean ====
section
/-! SUPPORT. One lemma per field per register update of the machine: what the field holds after it. -/

namespace Sys2Proof.Machine

/-! ### `State.raise` -/

@[simp] theorem State.raise_cfg (s : State) (e : Err) :
    (s.raise e).cfg = s.cfg := rfl
@[simp] theorem State.raise_key (s : State) (e : Err) :
    (s.raise e).key = s.key := rfl
@[simp] theorem State.raise_keyv (s : State) (e : Err) :
    (s.raise e).keyv = s.keyv := rfl
@[simp] theorem State.raise_argEdge (s : State) (e : Err) :
    (s.raise e).argEdge = s.argEdge := rfl
@[simp] theorem State.raise_node (s : State) (e : Err) :
    (s.raise e).node = s.node := rfl
@[simp] theorem State.raise_nodeValid (s : State) (e : Err) :
    (s.raise e).nodeValid = s.nodeValid := rfl
@[simp] theorem State.raise_proof (s : State) (e : Err) :
    (s.raise e).proof = s.proof := rfl
@[simp] theorem State.raise_proofv (s : State) (e : Err) :
    (s.raise e).proofv = s.proofv := rfl
@[simp] theorem State.raise_hdr (s : State) (e : Err) :
    (s.raise e).hdr = s.hdr := rfl
@[simp] theorem State.raise_hdrCount (s : State) (e : Err) :
    (s.raise e).hdrCount = s.hdrCount := rfl
@[simp] theorem State.raise_hdrOvf (s : State) (e : Err) :
    (s.raise e).hdrOvf = s.hdrOvf := rfl
@[simp] theorem State.raise_hdrLen (s : State) (e : Err) :
    (s.raise e).hdrLen = s.hdrLen := rfl
@[simp] theorem State.raise_legacy (s : State) (e : Err) :
    (s.raise e).legacy = s.legacy := rfl
@[simp] theorem State.raise_done (s : State) (e : Err) :
    (s.raise e).done = s.done := rfl
@[simp] theorem State.raise_verdictValid (s : State) (e : Err) :
    (s.raise e).verdictValid = s.verdictValid := rfl
@[simp] theorem State.raise_verdictCode (s : State) (e : Err) :
    (s.raise e).verdictCode = s.verdictCode := rfl
@[simp] theorem State.raise_errCmd (s : State) (e : Err) :
    (s.raise e).errCmd = (s.errCmd || decide (e = .cmd)) := rfl
@[simp] theorem State.raise_errBusy (s : State) (e : Err) :
    (s.raise e).errBusy = (s.errBusy || decide (e = .busy)) := rfl
@[simp] theorem State.raise_errOperand (s : State) (e : Err) :
    (s.raise e).errOperand = (s.errOperand || decide (e = .operand)) := rfl
@[simp] theorem State.raise_errHdr (s : State) (e : Err) :
    (s.raise e).errHdr = (s.errHdr || decide (e = .hdr)) := rfl
@[simp] theorem State.raise_errAddr (s : State) (e : Err) :
    (s.raise e).errAddr = (s.errAddr || decide (e = .addr)) := rfl
@[simp] theorem State.raise_phase (s : State) (e : Err) :
    (s.raise e).phase = s.phase := rfl
@[simp] theorem State.raise_opc (s : State) (e : Err) :
    (s.raise e).opc = s.opc := rfl
@[simp] theorem State.raise_opside (s : State) (e : Err) :
    (s.raise e).opside = s.opside := rfl
@[simp] theorem State.raise_n (s : State) (e : Err) :
    (s.raise e).n = s.n := rfl
@[simp] theorem State.raise_i (s : State) (e : Err) :
    (s.raise e).i = s.i := rfl
@[simp] theorem State.raise_steps (s : State) (e : Err) :
    (s.raise e).steps = s.steps := rfl
@[simp] theorem State.raise_xor0 (s : State) (e : Err) :
    (s.raise e).xor0 = s.xor0 := rfl
@[simp] theorem State.raise_xor1 (s : State) (e : Err) :
    (s.raise e).xor1 = s.xor1 := rfl
@[simp] theorem State.raise_prev (s : State) (e : Err) :
    (s.raise e).prev = s.prev := rfl
@[simp] theorem State.raise_uvs (s : State) (e : Err) :
    (s.raise e).uvs = s.uvs := rfl
@[simp] theorem State.raise_keyBefore (s : State) (e : Err) :
    (s.raise e).keyBefore = s.keyBefore := rfl
@[simp] theorem State.raise_keyvBefore (s : State) (e : Err) :
    (s.raise e).keyvBefore = s.keyvBefore := rfl
@[simp] theorem State.raise_program (s : State) (e : Err) :
    (s.raise e).program = s.program := rfl
@[simp] theorem State.raise_reads (s : State) (e : Err) :
    (s.raise e).reads = s.reads := rfl
@[simp] theorem State.raise_lead (s : State) (e : Err) :
    (s.raise e).lead = s.lead := rfl
@[simp] theorem State.raise_resetAfter (s : State) (e : Err) :
    (s.raise e).resetAfter = s.resetAfter := rfl
@[simp] theorem State.raise_tick (s : State) (e : Err) :
    (s.raise e).tick = s.tick := rfl

/-! ### `State.clearResults` -/

@[simp] theorem State.clearResults_cfg (s : State) :
    (s.clearResults).cfg = s.cfg := rfl
@[simp] theorem State.clearResults_key (s : State) :
    (s.clearResults).key = s.key := rfl
@[simp] theorem State.clearResults_keyv (s : State) :
    (s.clearResults).keyv = s.keyv := rfl
@[simp] theorem State.clearResults_argEdge (s : State) :
    (s.clearResults).argEdge = s.argEdge := rfl
@[simp] theorem State.clearResults_node (s : State) :
    (s.clearResults).node = 0 := rfl
@[simp] theorem State.clearResults_nodeValid (s : State) :
    (s.clearResults).nodeValid = false := rfl
@[simp] theorem State.clearResults_proof (s : State) :
    (s.clearResults).proof = s.proof := rfl
@[simp] theorem State.clearResults_proofv (s : State) :
    (s.clearResults).proofv = s.proofv := rfl
@[simp] theorem State.clearResults_hdr (s : State) :
    (s.clearResults).hdr = s.hdr := rfl
@[simp] theorem State.clearResults_hdrCount (s : State) :
    (s.clearResults).hdrCount = s.hdrCount := rfl
@[simp] theorem State.clearResults_hdrOvf (s : State) :
    (s.clearResults).hdrOvf = s.hdrOvf := rfl
@[simp] theorem State.clearResults_hdrLen (s : State) :
    (s.clearResults).hdrLen = s.hdrLen := rfl
@[simp] theorem State.clearResults_legacy (s : State) :
    (s.clearResults).legacy = s.legacy := rfl
@[simp] theorem State.clearResults_done (s : State) :
    (s.clearResults).done = false := rfl
@[simp] theorem State.clearResults_verdictValid (s : State) :
    (s.clearResults).verdictValid = false := rfl
@[simp] theorem State.clearResults_verdictCode (s : State) :
    (s.clearResults).verdictCode = 0 := rfl
@[simp] theorem State.clearResults_errCmd (s : State) :
    (s.clearResults).errCmd = s.errCmd := rfl
@[simp] theorem State.clearResults_errBusy (s : State) :
    (s.clearResults).errBusy = s.errBusy := rfl
@[simp] theorem State.clearResults_errOperand (s : State) :
    (s.clearResults).errOperand = s.errOperand := rfl
@[simp] theorem State.clearResults_errHdr (s : State) :
    (s.clearResults).errHdr = s.errHdr := rfl
@[simp] theorem State.clearResults_errAddr (s : State) :
    (s.clearResults).errAddr = s.errAddr := rfl
@[simp] theorem State.clearResults_phase (s : State) :
    (s.clearResults).phase = s.phase := rfl
@[simp] theorem State.clearResults_opc (s : State) :
    (s.clearResults).opc = s.opc := rfl
@[simp] theorem State.clearResults_opside (s : State) :
    (s.clearResults).opside = s.opside := rfl
@[simp] theorem State.clearResults_n (s : State) :
    (s.clearResults).n = s.n := rfl
@[simp] theorem State.clearResults_i (s : State) :
    (s.clearResults).i = s.i := rfl
@[simp] theorem State.clearResults_steps (s : State) :
    (s.clearResults).steps = s.steps := rfl
@[simp] theorem State.clearResults_xor0 (s : State) :
    (s.clearResults).xor0 = s.xor0 := rfl
@[simp] theorem State.clearResults_xor1 (s : State) :
    (s.clearResults).xor1 = s.xor1 := rfl
@[simp] theorem State.clearResults_prev (s : State) :
    (s.clearResults).prev = s.prev := rfl
@[simp] theorem State.clearResults_uvs (s : State) :
    (s.clearResults).uvs = s.uvs := rfl
@[simp] theorem State.clearResults_keyBefore (s : State) :
    (s.clearResults).keyBefore = s.keyBefore := rfl
@[simp] theorem State.clearResults_keyvBefore (s : State) :
    (s.clearResults).keyvBefore = s.keyvBefore := rfl
@[simp] theorem State.clearResults_program (s : State) :
    (s.clearResults).program = s.program := rfl
@[simp] theorem State.clearResults_reads (s : State) :
    (s.clearResults).reads = s.reads := rfl
@[simp] theorem State.clearResults_lead (s : State) :
    (s.clearResults).lead = s.lead := rfl
@[simp] theorem State.clearResults_resetAfter (s : State) :
    (s.clearResults).resetAfter = s.resetAfter := rfl
@[simp] theorem State.clearResults_tick (s : State) :
    (s.clearResults).tick = s.tick := rfl

/-! ### `State.latch` -/

@[simp] theorem State.latch_cfg (s : State) (j : Instr) (p : Phase) :
    (s.latch j p).cfg = s.cfg := rfl
@[simp] theorem State.latch_key (s : State) (j : Instr) (p : Phase) :
    (s.latch j p).key = s.key := rfl
@[simp] theorem State.latch_keyv (s : State) (j : Instr) (p : Phase) :
    (s.latch j p).keyv = s.keyv := rfl
@[simp] theorem State.latch_argEdge (s : State) (j : Instr) (p : Phase) :
    (s.latch j p).argEdge = s.argEdge := rfl
@[simp] theorem State.latch_node (s : State) (j : Instr) (p : Phase) :
    (s.latch j p).node = s.node := rfl
@[simp] theorem State.latch_nodeValid (s : State) (j : Instr) (p : Phase) :
    (s.latch j p).nodeValid = s.nodeValid := rfl
@[simp] theorem State.latch_proof (s : State) (j : Instr) (p : Phase) :
    (s.latch j p).proof = s.proof := rfl
@[simp] theorem State.latch_proofv (s : State) (j : Instr) (p : Phase) :
    (s.latch j p).proofv = s.proofv := rfl
@[simp] theorem State.latch_hdr (s : State) (j : Instr) (p : Phase) :
    (s.latch j p).hdr = s.hdr := rfl
@[simp] theorem State.latch_hdrCount (s : State) (j : Instr) (p : Phase) :
    (s.latch j p).hdrCount = s.hdrCount := rfl
@[simp] theorem State.latch_hdrOvf (s : State) (j : Instr) (p : Phase) :
    (s.latch j p).hdrOvf = s.hdrOvf := rfl
@[simp] theorem State.latch_hdrLen (s : State) (j : Instr) (p : Phase) :
    (s.latch j p).hdrLen = s.hdrLen := rfl
@[simp] theorem State.latch_legacy (s : State) (j : Instr) (p : Phase) :
    (s.latch j p).legacy = s.legacy := rfl
@[simp] theorem State.latch_done (s : State) (j : Instr) (p : Phase) :
    (s.latch j p).done = s.done := rfl
@[simp] theorem State.latch_verdictValid (s : State) (j : Instr) (p : Phase) :
    (s.latch j p).verdictValid = s.verdictValid := rfl
@[simp] theorem State.latch_verdictCode (s : State) (j : Instr) (p : Phase) :
    (s.latch j p).verdictCode = s.verdictCode := rfl
@[simp] theorem State.latch_errCmd (s : State) (j : Instr) (p : Phase) :
    (s.latch j p).errCmd = s.errCmd := rfl
@[simp] theorem State.latch_errBusy (s : State) (j : Instr) (p : Phase) :
    (s.latch j p).errBusy = s.errBusy := rfl
@[simp] theorem State.latch_errOperand (s : State) (j : Instr) (p : Phase) :
    (s.latch j p).errOperand = s.errOperand := rfl
@[simp] theorem State.latch_errHdr (s : State) (j : Instr) (p : Phase) :
    (s.latch j p).errHdr = s.errHdr := rfl
@[simp] theorem State.latch_errAddr (s : State) (j : Instr) (p : Phase) :
    (s.latch j p).errAddr = s.errAddr := rfl
@[simp] theorem State.latch_phase (s : State) (j : Instr) (p : Phase) :
    (s.latch j p).phase = p := rfl
@[simp] theorem State.latch_opc (s : State) (j : Instr) (p : Phase) :
    (s.latch j p).opc = j.opcode := rfl
@[simp] theorem State.latch_opside (s : State) (j : Instr) (p : Phase) :
    (s.latch j p).opside = j.sideBit := rfl
@[simp] theorem State.latch_n (s : State) (j : Instr) (p : Phase) :
    (s.latch j p).n = s.n := rfl
@[simp] theorem State.latch_i (s : State) (j : Instr) (p : Phase) :
    (s.latch j p).i = s.i := rfl
@[simp] theorem State.latch_steps (s : State) (j : Instr) (p : Phase) :
    (s.latch j p).steps = s.steps := rfl
@[simp] theorem State.latch_xor0 (s : State) (j : Instr) (p : Phase) :
    (s.latch j p).xor0 = s.xor0 := rfl
@[simp] theorem State.latch_xor1 (s : State) (j : Instr) (p : Phase) :
    (s.latch j p).xor1 = s.xor1 := rfl
@[simp] theorem State.latch_prev (s : State) (j : Instr) (p : Phase) :
    (s.latch j p).prev = s.prev := rfl
@[simp] theorem State.latch_uvs (s : State) (j : Instr) (p : Phase) :
    (s.latch j p).uvs = s.uvs := rfl
@[simp] theorem State.latch_keyBefore (s : State) (j : Instr) (p : Phase) :
    (s.latch j p).keyBefore = s.keyBefore := rfl
@[simp] theorem State.latch_keyvBefore (s : State) (j : Instr) (p : Phase) :
    (s.latch j p).keyvBefore = s.keyvBefore := rfl
@[simp] theorem State.latch_program (s : State) (j : Instr) (p : Phase) :
    (s.latch j p).program = s.program := rfl
@[simp] theorem State.latch_reads (s : State) (j : Instr) (p : Phase) :
    (s.latch j p).reads = s.reads := rfl
@[simp] theorem State.latch_lead (s : State) (j : Instr) (p : Phase) :
    (s.latch j p).lead = s.lead := rfl
@[simp] theorem State.latch_resetAfter (s : State) (j : Instr) (p : Phase) :
    (s.latch j p).resetAfter = s.resetAfter := rfl
@[simp] theorem State.latch_tick (s : State) (j : Instr) (p : Phase) :
    (s.latch j p).tick = s.tick := rfl

/-! ### `State.clearScan` -/

@[simp] theorem State.clearScan_cfg (s : State) :
    (s.clearScan).cfg = s.cfg := rfl
@[simp] theorem State.clearScan_key (s : State) :
    (s.clearScan).key = s.key := rfl
@[simp] theorem State.clearScan_keyv (s : State) :
    (s.clearScan).keyv = s.keyv := rfl
@[simp] theorem State.clearScan_argEdge (s : State) :
    (s.clearScan).argEdge = s.argEdge := rfl
@[simp] theorem State.clearScan_node (s : State) :
    (s.clearScan).node = s.node := rfl
@[simp] theorem State.clearScan_nodeValid (s : State) :
    (s.clearScan).nodeValid = s.nodeValid := rfl
@[simp] theorem State.clearScan_proof (s : State) :
    (s.clearScan).proof = s.proof := rfl
@[simp] theorem State.clearScan_proofv (s : State) :
    (s.clearScan).proofv = s.proofv := rfl
@[simp] theorem State.clearScan_hdr (s : State) :
    (s.clearScan).hdr = s.hdr := rfl
@[simp] theorem State.clearScan_hdrCount (s : State) :
    (s.clearScan).hdrCount = s.hdrCount := rfl
@[simp] theorem State.clearScan_hdrOvf (s : State) :
    (s.clearScan).hdrOvf = s.hdrOvf := rfl
@[simp] theorem State.clearScan_hdrLen (s : State) :
    (s.clearScan).hdrLen = s.hdrLen := rfl
@[simp] theorem State.clearScan_legacy (s : State) :
    (s.clearScan).legacy = s.legacy := rfl
@[simp] theorem State.clearScan_done (s : State) :
    (s.clearScan).done = s.done := rfl
@[simp] theorem State.clearScan_verdictValid (s : State) :
    (s.clearScan).verdictValid = s.verdictValid := rfl
@[simp] theorem State.clearScan_verdictCode (s : State) :
    (s.clearScan).verdictCode = s.verdictCode := rfl
@[simp] theorem State.clearScan_errCmd (s : State) :
    (s.clearScan).errCmd = s.errCmd := rfl
@[simp] theorem State.clearScan_errBusy (s : State) :
    (s.clearScan).errBusy = s.errBusy := rfl
@[simp] theorem State.clearScan_errOperand (s : State) :
    (s.clearScan).errOperand = s.errOperand := rfl
@[simp] theorem State.clearScan_errHdr (s : State) :
    (s.clearScan).errHdr = s.errHdr := rfl
@[simp] theorem State.clearScan_errAddr (s : State) :
    (s.clearScan).errAddr = s.errAddr := rfl
@[simp] theorem State.clearScan_phase (s : State) :
    (s.clearScan).phase = s.phase := rfl
@[simp] theorem State.clearScan_opc (s : State) :
    (s.clearScan).opc = s.opc := rfl
@[simp] theorem State.clearScan_opside (s : State) :
    (s.clearScan).opside = s.opside := rfl
@[simp] theorem State.clearScan_n (s : State) :
    (s.clearScan).n = 0 := rfl
@[simp] theorem State.clearScan_i (s : State) :
    (s.clearScan).i = 0 := rfl
@[simp] theorem State.clearScan_steps (s : State) :
    (s.clearScan).steps = 0 := rfl
@[simp] theorem State.clearScan_xor0 (s : State) :
    (s.clearScan).xor0 = 0 := rfl
@[simp] theorem State.clearScan_xor1 (s : State) :
    (s.clearScan).xor1 = 0 := rfl
@[simp] theorem State.clearScan_prev (s : State) :
    (s.clearScan).prev = 0 := rfl
@[simp] theorem State.clearScan_uvs (s : State) :
    (s.clearScan).uvs = s.uvs := rfl
@[simp] theorem State.clearScan_keyBefore (s : State) :
    (s.clearScan).keyBefore = s.keyBefore := rfl
@[simp] theorem State.clearScan_keyvBefore (s : State) :
    (s.clearScan).keyvBefore = s.keyvBefore := rfl
@[simp] theorem State.clearScan_program (s : State) :
    (s.clearScan).program = s.program := rfl
@[simp] theorem State.clearScan_reads (s : State) :
    (s.clearScan).reads = s.reads := rfl
@[simp] theorem State.clearScan_lead (s : State) :
    (s.clearScan).lead = s.lead := rfl
@[simp] theorem State.clearScan_resetAfter (s : State) :
    (s.clearScan).resetAfter = s.resetAfter := rfl
@[simp] theorem State.clearScan_tick (s : State) :
    (s.clearScan).tick = s.tick := rfl

/-! ### `State.consumeProof` -/

@[simp] theorem State.consumeProof_cfg (s : State) :
    (s.consumeProof).cfg = s.cfg := rfl
@[simp] theorem State.consumeProof_key (s : State) :
    (s.consumeProof).key = s.key := rfl
@[simp] theorem State.consumeProof_keyv (s : State) :
    (s.consumeProof).keyv = s.keyv := rfl
@[simp] theorem State.consumeProof_argEdge (s : State) :
    (s.consumeProof).argEdge = s.argEdge := rfl
@[simp] theorem State.consumeProof_node (s : State) :
    (s.consumeProof).node = s.node := rfl
@[simp] theorem State.consumeProof_nodeValid (s : State) :
    (s.consumeProof).nodeValid = s.nodeValid := rfl
@[simp] theorem State.consumeProof_proof (s : State) :
    (s.consumeProof).proof = [] := rfl
@[simp] theorem State.consumeProof_proofv (s : State) :
    (s.consumeProof).proofv = [] := rfl
@[simp] theorem State.consumeProof_hdr (s : State) :
    (s.consumeProof).hdr = s.hdr := rfl
@[simp] theorem State.consumeProof_hdrCount (s : State) :
    (s.consumeProof).hdrCount = s.hdrCount := rfl
@[simp] theorem State.consumeProof_hdrOvf (s : State) :
    (s.consumeProof).hdrOvf = s.hdrOvf := rfl
@[simp] theorem State.consumeProof_hdrLen (s : State) :
    (s.consumeProof).hdrLen = s.hdrLen := rfl
@[simp] theorem State.consumeProof_legacy (s : State) :
    (s.consumeProof).legacy = s.legacy := rfl
@[simp] theorem State.consumeProof_done (s : State) :
    (s.consumeProof).done = s.done := rfl
@[simp] theorem State.consumeProof_verdictValid (s : State) :
    (s.consumeProof).verdictValid = s.verdictValid := rfl
@[simp] theorem State.consumeProof_verdictCode (s : State) :
    (s.consumeProof).verdictCode = s.verdictCode := rfl
@[simp] theorem State.consumeProof_errCmd (s : State) :
    (s.consumeProof).errCmd = s.errCmd := rfl
@[simp] theorem State.consumeProof_errBusy (s : State) :
    (s.consumeProof).errBusy = s.errBusy := rfl
@[simp] theorem State.consumeProof_errOperand (s : State) :
    (s.consumeProof).errOperand = s.errOperand := rfl
@[simp] theorem State.consumeProof_errHdr (s : State) :
    (s.consumeProof).errHdr = s.errHdr := rfl
@[simp] theorem State.consumeProof_errAddr (s : State) :
    (s.consumeProof).errAddr = s.errAddr := rfl
@[simp] theorem State.consumeProof_phase (s : State) :
    (s.consumeProof).phase = s.phase := rfl
@[simp] theorem State.consumeProof_opc (s : State) :
    (s.consumeProof).opc = s.opc := rfl
@[simp] theorem State.consumeProof_opside (s : State) :
    (s.consumeProof).opside = s.opside := rfl
@[simp] theorem State.consumeProof_n (s : State) :
    (s.consumeProof).n = s.n := rfl
@[simp] theorem State.consumeProof_i (s : State) :
    (s.consumeProof).i = s.i := rfl
@[simp] theorem State.consumeProof_steps (s : State) :
    (s.consumeProof).steps = s.steps := rfl
@[simp] theorem State.consumeProof_xor0 (s : State) :
    (s.consumeProof).xor0 = s.xor0 := rfl
@[simp] theorem State.consumeProof_xor1 (s : State) :
    (s.consumeProof).xor1 = s.xor1 := rfl
@[simp] theorem State.consumeProof_prev (s : State) :
    (s.consumeProof).prev = s.prev := rfl
@[simp] theorem State.consumeProof_uvs (s : State) :
    (s.consumeProof).uvs = s.uvs := rfl
@[simp] theorem State.consumeProof_keyBefore (s : State) :
    (s.consumeProof).keyBefore = s.keyBefore := rfl
@[simp] theorem State.consumeProof_keyvBefore (s : State) :
    (s.consumeProof).keyvBefore = s.keyvBefore := rfl
@[simp] theorem State.consumeProof_program (s : State) :
    (s.consumeProof).program = s.program := rfl
@[simp] theorem State.consumeProof_reads (s : State) :
    (s.consumeProof).reads = s.reads := rfl
@[simp] theorem State.consumeProof_lead (s : State) :
    (s.consumeProof).lead = s.lead := rfl
@[simp] theorem State.consumeProof_resetAfter (s : State) :
    (s.consumeProof).resetAfter = s.resetAfter := rfl
@[simp] theorem State.consumeProof_tick (s : State) :
    (s.consumeProof).tick = s.tick := rfl

/-! ### `State.consumeHeader` -/

@[simp] theorem State.consumeHeader_cfg (s : State) :
    (s.consumeHeader).cfg = s.cfg := rfl
@[simp] theorem State.consumeHeader_key (s : State) :
    (s.consumeHeader).key = s.key := rfl
@[simp] theorem State.consumeHeader_keyv (s : State) :
    (s.consumeHeader).keyv = s.keyv := rfl
@[simp] theorem State.consumeHeader_argEdge (s : State) :
    (s.consumeHeader).argEdge = s.argEdge := rfl
@[simp] theorem State.consumeHeader_node (s : State) :
    (s.consumeHeader).node = s.node := rfl
@[simp] theorem State.consumeHeader_nodeValid (s : State) :
    (s.consumeHeader).nodeValid = s.nodeValid := rfl
@[simp] theorem State.consumeHeader_proof (s : State) :
    (s.consumeHeader).proof = s.proof := rfl
@[simp] theorem State.consumeHeader_proofv (s : State) :
    (s.consumeHeader).proofv = s.proofv := rfl
@[simp] theorem State.consumeHeader_hdr (s : State) :
    (s.consumeHeader).hdr = s.hdr := rfl
@[simp] theorem State.consumeHeader_hdrCount (s : State) :
    (s.consumeHeader).hdrCount = 0 := rfl
@[simp] theorem State.consumeHeader_hdrOvf (s : State) :
    (s.consumeHeader).hdrOvf = false := rfl
@[simp] theorem State.consumeHeader_hdrLen (s : State) :
    (s.consumeHeader).hdrLen = 0 := rfl
@[simp] theorem State.consumeHeader_legacy (s : State) :
    (s.consumeHeader).legacy = s.legacy := rfl
@[simp] theorem State.consumeHeader_done (s : State) :
    (s.consumeHeader).done = s.done := rfl
@[simp] theorem State.consumeHeader_verdictValid (s : State) :
    (s.consumeHeader).verdictValid = s.verdictValid := rfl
@[simp] theorem State.consumeHeader_verdictCode (s : State) :
    (s.consumeHeader).verdictCode = s.verdictCode := rfl
@[simp] theorem State.consumeHeader_errCmd (s : State) :
    (s.consumeHeader).errCmd = s.errCmd := rfl
@[simp] theorem State.consumeHeader_errBusy (s : State) :
    (s.consumeHeader).errBusy = s.errBusy := rfl
@[simp] theorem State.consumeHeader_errOperand (s : State) :
    (s.consumeHeader).errOperand = s.errOperand := rfl
@[simp] theorem State.consumeHeader_errHdr (s : State) :
    (s.consumeHeader).errHdr = s.errHdr := rfl
@[simp] theorem State.consumeHeader_errAddr (s : State) :
    (s.consumeHeader).errAddr = s.errAddr := rfl
@[simp] theorem State.consumeHeader_phase (s : State) :
    (s.consumeHeader).phase = s.phase := rfl
@[simp] theorem State.consumeHeader_opc (s : State) :
    (s.consumeHeader).opc = s.opc := rfl
@[simp] theorem State.consumeHeader_opside (s : State) :
    (s.consumeHeader).opside = s.opside := rfl
@[simp] theorem State.consumeHeader_n (s : State) :
    (s.consumeHeader).n = s.n := rfl
@[simp] theorem State.consumeHeader_i (s : State) :
    (s.consumeHeader).i = s.i := rfl
@[simp] theorem State.consumeHeader_steps (s : State) :
    (s.consumeHeader).steps = s.steps := rfl
@[simp] theorem State.consumeHeader_xor0 (s : State) :
    (s.consumeHeader).xor0 = s.xor0 := rfl
@[simp] theorem State.consumeHeader_xor1 (s : State) :
    (s.consumeHeader).xor1 = s.xor1 := rfl
@[simp] theorem State.consumeHeader_prev (s : State) :
    (s.consumeHeader).prev = s.prev := rfl
@[simp] theorem State.consumeHeader_uvs (s : State) :
    (s.consumeHeader).uvs = s.uvs := rfl
@[simp] theorem State.consumeHeader_keyBefore (s : State) :
    (s.consumeHeader).keyBefore = s.keyBefore := rfl
@[simp] theorem State.consumeHeader_keyvBefore (s : State) :
    (s.consumeHeader).keyvBefore = s.keyvBefore := rfl
@[simp] theorem State.consumeHeader_program (s : State) :
    (s.consumeHeader).program = s.program := rfl
@[simp] theorem State.consumeHeader_reads (s : State) :
    (s.consumeHeader).reads = s.reads := rfl
@[simp] theorem State.consumeHeader_lead (s : State) :
    (s.consumeHeader).lead = s.lead := rfl
@[simp] theorem State.consumeHeader_resetAfter (s : State) :
    (s.consumeHeader).resetAfter = s.resetAfter := rfl
@[simp] theorem State.consumeHeader_tick (s : State) :
    (s.consumeHeader).tick = s.tick := rfl

/-! ### `State.setKey` -/

@[simp] theorem State.setKey_cfg (s : State) (k : Key) :
    (s.setKey k).cfg = s.cfg := rfl
@[simp] theorem State.setKey_key (s : State) (k : Key) :
    (s.setKey k).key = k := rfl
@[simp] theorem State.setKey_keyv (s : State) (k : Key) :
    (s.setKey k).keyv = Vector.replicate 4 true := rfl
@[simp] theorem State.setKey_argEdge (s : State) (k : Key) :
    (s.setKey k).argEdge = s.argEdge := rfl
@[simp] theorem State.setKey_node (s : State) (k : Key) :
    (s.setKey k).node = s.node := rfl
@[simp] theorem State.setKey_nodeValid (s : State) (k : Key) :
    (s.setKey k).nodeValid = s.nodeValid := rfl
@[simp] theorem State.setKey_proof (s : State) (k : Key) :
    (s.setKey k).proof = s.proof := rfl
@[simp] theorem State.setKey_proofv (s : State) (k : Key) :
    (s.setKey k).proofv = s.proofv := rfl
@[simp] theorem State.setKey_hdr (s : State) (k : Key) :
    (s.setKey k).hdr = s.hdr := rfl
@[simp] theorem State.setKey_hdrCount (s : State) (k : Key) :
    (s.setKey k).hdrCount = s.hdrCount := rfl
@[simp] theorem State.setKey_hdrOvf (s : State) (k : Key) :
    (s.setKey k).hdrOvf = s.hdrOvf := rfl
@[simp] theorem State.setKey_hdrLen (s : State) (k : Key) :
    (s.setKey k).hdrLen = s.hdrLen := rfl
@[simp] theorem State.setKey_legacy (s : State) (k : Key) :
    (s.setKey k).legacy = s.legacy := rfl
@[simp] theorem State.setKey_done (s : State) (k : Key) :
    (s.setKey k).done = s.done := rfl
@[simp] theorem State.setKey_verdictValid (s : State) (k : Key) :
    (s.setKey k).verdictValid = s.verdictValid := rfl
@[simp] theorem State.setKey_verdictCode (s : State) (k : Key) :
    (s.setKey k).verdictCode = s.verdictCode := rfl
@[simp] theorem State.setKey_errCmd (s : State) (k : Key) :
    (s.setKey k).errCmd = s.errCmd := rfl
@[simp] theorem State.setKey_errBusy (s : State) (k : Key) :
    (s.setKey k).errBusy = s.errBusy := rfl
@[simp] theorem State.setKey_errOperand (s : State) (k : Key) :
    (s.setKey k).errOperand = s.errOperand := rfl
@[simp] theorem State.setKey_errHdr (s : State) (k : Key) :
    (s.setKey k).errHdr = s.errHdr := rfl
@[simp] theorem State.setKey_errAddr (s : State) (k : Key) :
    (s.setKey k).errAddr = s.errAddr := rfl
@[simp] theorem State.setKey_phase (s : State) (k : Key) :
    (s.setKey k).phase = s.phase := rfl
@[simp] theorem State.setKey_opc (s : State) (k : Key) :
    (s.setKey k).opc = s.opc := rfl
@[simp] theorem State.setKey_opside (s : State) (k : Key) :
    (s.setKey k).opside = s.opside := rfl
@[simp] theorem State.setKey_n (s : State) (k : Key) :
    (s.setKey k).n = s.n := rfl
@[simp] theorem State.setKey_i (s : State) (k : Key) :
    (s.setKey k).i = s.i := rfl
@[simp] theorem State.setKey_steps (s : State) (k : Key) :
    (s.setKey k).steps = s.steps := rfl
@[simp] theorem State.setKey_xor0 (s : State) (k : Key) :
    (s.setKey k).xor0 = s.xor0 := rfl
@[simp] theorem State.setKey_xor1 (s : State) (k : Key) :
    (s.setKey k).xor1 = s.xor1 := rfl
@[simp] theorem State.setKey_prev (s : State) (k : Key) :
    (s.setKey k).prev = s.prev := rfl
@[simp] theorem State.setKey_uvs (s : State) (k : Key) :
    (s.setKey k).uvs = s.uvs := rfl
@[simp] theorem State.setKey_keyBefore (s : State) (k : Key) :
    (s.setKey k).keyBefore = s.keyBefore := rfl
@[simp] theorem State.setKey_keyvBefore (s : State) (k : Key) :
    (s.setKey k).keyvBefore = s.keyvBefore := rfl
@[simp] theorem State.setKey_program (s : State) (k : Key) :
    (s.setKey k).program = s.program := rfl
@[simp] theorem State.setKey_reads (s : State) (k : Key) :
    (s.setKey k).reads = s.reads := rfl
@[simp] theorem State.setKey_lead (s : State) (k : Key) :
    (s.setKey k).lead = s.lead := rfl
@[simp] theorem State.setKey_resetAfter (s : State) (k : Key) :
    (s.setKey k).resetAfter = s.resetAfter := rfl
@[simp] theorem State.setKey_tick (s : State) (k : Key) :
    (s.setKey k).tick = s.tick := rfl

/-! ### `State.setNode` -/

@[simp] theorem State.setNode_cfg (s : State) (v : Word) :
    (s.setNode v).cfg = s.cfg := rfl
@[simp] theorem State.setNode_key (s : State) (v : Word) :
    (s.setNode v).key = s.key := rfl
@[simp] theorem State.setNode_keyv (s : State) (v : Word) :
    (s.setNode v).keyv = s.keyv := rfl
@[simp] theorem State.setNode_argEdge (s : State) (v : Word) :
    (s.setNode v).argEdge = s.argEdge := rfl
@[simp] theorem State.setNode_node (s : State) (v : Word) :
    (s.setNode v).node = v := rfl
@[simp] theorem State.setNode_nodeValid (s : State) (v : Word) :
    (s.setNode v).nodeValid = true := rfl
@[simp] theorem State.setNode_proof (s : State) (v : Word) :
    (s.setNode v).proof = s.proof := rfl
@[simp] theorem State.setNode_proofv (s : State) (v : Word) :
    (s.setNode v).proofv = s.proofv := rfl
@[simp] theorem State.setNode_hdr (s : State) (v : Word) :
    (s.setNode v).hdr = s.hdr := rfl
@[simp] theorem State.setNode_hdrCount (s : State) (v : Word) :
    (s.setNode v).hdrCount = s.hdrCount := rfl
@[simp] theorem State.setNode_hdrOvf (s : State) (v : Word) :
    (s.setNode v).hdrOvf = s.hdrOvf := rfl
@[simp] theorem State.setNode_hdrLen (s : State) (v : Word) :
    (s.setNode v).hdrLen = s.hdrLen := rfl
@[simp] theorem State.setNode_legacy (s : State) (v : Word) :
    (s.setNode v).legacy = s.legacy := rfl
@[simp] theorem State.setNode_done (s : State) (v : Word) :
    (s.setNode v).done = s.done := rfl
@[simp] theorem State.setNode_verdictValid (s : State) (v : Word) :
    (s.setNode v).verdictValid = s.verdictValid := rfl
@[simp] theorem State.setNode_verdictCode (s : State) (v : Word) :
    (s.setNode v).verdictCode = s.verdictCode := rfl
@[simp] theorem State.setNode_errCmd (s : State) (v : Word) :
    (s.setNode v).errCmd = s.errCmd := rfl
@[simp] theorem State.setNode_errBusy (s : State) (v : Word) :
    (s.setNode v).errBusy = s.errBusy := rfl
@[simp] theorem State.setNode_errOperand (s : State) (v : Word) :
    (s.setNode v).errOperand = s.errOperand := rfl
@[simp] theorem State.setNode_errHdr (s : State) (v : Word) :
    (s.setNode v).errHdr = s.errHdr := rfl
@[simp] theorem State.setNode_errAddr (s : State) (v : Word) :
    (s.setNode v).errAddr = s.errAddr := rfl
@[simp] theorem State.setNode_phase (s : State) (v : Word) :
    (s.setNode v).phase = s.phase := rfl
@[simp] theorem State.setNode_opc (s : State) (v : Word) :
    (s.setNode v).opc = s.opc := rfl
@[simp] theorem State.setNode_opside (s : State) (v : Word) :
    (s.setNode v).opside = s.opside := rfl
@[simp] theorem State.setNode_n (s : State) (v : Word) :
    (s.setNode v).n = s.n := rfl
@[simp] theorem State.setNode_i (s : State) (v : Word) :
    (s.setNode v).i = s.i := rfl
@[simp] theorem State.setNode_steps (s : State) (v : Word) :
    (s.setNode v).steps = s.steps := rfl
@[simp] theorem State.setNode_xor0 (s : State) (v : Word) :
    (s.setNode v).xor0 = s.xor0 := rfl
@[simp] theorem State.setNode_xor1 (s : State) (v : Word) :
    (s.setNode v).xor1 = s.xor1 := rfl
@[simp] theorem State.setNode_prev (s : State) (v : Word) :
    (s.setNode v).prev = s.prev := rfl
@[simp] theorem State.setNode_uvs (s : State) (v : Word) :
    (s.setNode v).uvs = s.uvs := rfl
@[simp] theorem State.setNode_keyBefore (s : State) (v : Word) :
    (s.setNode v).keyBefore = s.keyBefore := rfl
@[simp] theorem State.setNode_keyvBefore (s : State) (v : Word) :
    (s.setNode v).keyvBefore = s.keyvBefore := rfl
@[simp] theorem State.setNode_program (s : State) (v : Word) :
    (s.setNode v).program = s.program := rfl
@[simp] theorem State.setNode_reads (s : State) (v : Word) :
    (s.setNode v).reads = s.reads := rfl
@[simp] theorem State.setNode_lead (s : State) (v : Word) :
    (s.setNode v).lead = s.lead := rfl
@[simp] theorem State.setNode_resetAfter (s : State) (v : Word) :
    (s.setNode v).resetAfter = s.resetAfter := rfl
@[simp] theorem State.setNode_tick (s : State) (v : Word) :
    (s.setNode v).tick = s.tick := rfl

/-! ### `State.setVerdict` -/

@[simp] theorem State.setVerdict_cfg (s : State) (v : Verdict) :
    (s.setVerdict v).cfg = s.cfg := rfl
@[simp] theorem State.setVerdict_key (s : State) (v : Verdict) :
    (s.setVerdict v).key = s.key := rfl
@[simp] theorem State.setVerdict_keyv (s : State) (v : Verdict) :
    (s.setVerdict v).keyv = s.keyv := rfl
@[simp] theorem State.setVerdict_argEdge (s : State) (v : Verdict) :
    (s.setVerdict v).argEdge = s.argEdge := rfl
@[simp] theorem State.setVerdict_node (s : State) (v : Verdict) :
    (s.setVerdict v).node = s.node := rfl
@[simp] theorem State.setVerdict_nodeValid (s : State) (v : Verdict) :
    (s.setVerdict v).nodeValid = s.nodeValid := rfl
@[simp] theorem State.setVerdict_proof (s : State) (v : Verdict) :
    (s.setVerdict v).proof = s.proof := rfl
@[simp] theorem State.setVerdict_proofv (s : State) (v : Verdict) :
    (s.setVerdict v).proofv = s.proofv := rfl
@[simp] theorem State.setVerdict_hdr (s : State) (v : Verdict) :
    (s.setVerdict v).hdr = s.hdr := rfl
@[simp] theorem State.setVerdict_hdrCount (s : State) (v : Verdict) :
    (s.setVerdict v).hdrCount = s.hdrCount := rfl
@[simp] theorem State.setVerdict_hdrOvf (s : State) (v : Verdict) :
    (s.setVerdict v).hdrOvf = s.hdrOvf := rfl
@[simp] theorem State.setVerdict_hdrLen (s : State) (v : Verdict) :
    (s.setVerdict v).hdrLen = s.hdrLen := rfl
@[simp] theorem State.setVerdict_legacy (s : State) (v : Verdict) :
    (s.setVerdict v).legacy = s.legacy := rfl
@[simp] theorem State.setVerdict_done (s : State) (v : Verdict) :
    (s.setVerdict v).done = s.done := rfl
@[simp] theorem State.setVerdict_verdictValid (s : State) (v : Verdict) :
    (s.setVerdict v).verdictValid = true := rfl
@[simp] theorem State.setVerdict_verdictCode (s : State) (v : Verdict) :
    (s.setVerdict v).verdictCode = v.code := rfl
@[simp] theorem State.setVerdict_errCmd (s : State) (v : Verdict) :
    (s.setVerdict v).errCmd = s.errCmd := rfl
@[simp] theorem State.setVerdict_errBusy (s : State) (v : Verdict) :
    (s.setVerdict v).errBusy = s.errBusy := rfl
@[simp] theorem State.setVerdict_errOperand (s : State) (v : Verdict) :
    (s.setVerdict v).errOperand = s.errOperand := rfl
@[simp] theorem State.setVerdict_errHdr (s : State) (v : Verdict) :
    (s.setVerdict v).errHdr = s.errHdr := rfl
@[simp] theorem State.setVerdict_errAddr (s : State) (v : Verdict) :
    (s.setVerdict v).errAddr = s.errAddr := rfl
@[simp] theorem State.setVerdict_phase (s : State) (v : Verdict) :
    (s.setVerdict v).phase = s.phase := rfl
@[simp] theorem State.setVerdict_opc (s : State) (v : Verdict) :
    (s.setVerdict v).opc = s.opc := rfl
@[simp] theorem State.setVerdict_opside (s : State) (v : Verdict) :
    (s.setVerdict v).opside = s.opside := rfl
@[simp] theorem State.setVerdict_n (s : State) (v : Verdict) :
    (s.setVerdict v).n = s.n := rfl
@[simp] theorem State.setVerdict_i (s : State) (v : Verdict) :
    (s.setVerdict v).i = s.i := rfl
@[simp] theorem State.setVerdict_steps (s : State) (v : Verdict) :
    (s.setVerdict v).steps = s.steps := rfl
@[simp] theorem State.setVerdict_xor0 (s : State) (v : Verdict) :
    (s.setVerdict v).xor0 = s.xor0 := rfl
@[simp] theorem State.setVerdict_xor1 (s : State) (v : Verdict) :
    (s.setVerdict v).xor1 = s.xor1 := rfl
@[simp] theorem State.setVerdict_prev (s : State) (v : Verdict) :
    (s.setVerdict v).prev = s.prev := rfl
@[simp] theorem State.setVerdict_uvs (s : State) (v : Verdict) :
    (s.setVerdict v).uvs = s.uvs := rfl
@[simp] theorem State.setVerdict_keyBefore (s : State) (v : Verdict) :
    (s.setVerdict v).keyBefore = s.keyBefore := rfl
@[simp] theorem State.setVerdict_keyvBefore (s : State) (v : Verdict) :
    (s.setVerdict v).keyvBefore = s.keyvBefore := rfl
@[simp] theorem State.setVerdict_program (s : State) (v : Verdict) :
    (s.setVerdict v).program = s.program := rfl
@[simp] theorem State.setVerdict_reads (s : State) (v : Verdict) :
    (s.setVerdict v).reads = s.reads := rfl
@[simp] theorem State.setVerdict_lead (s : State) (v : Verdict) :
    (s.setVerdict v).lead = s.lead := rfl
@[simp] theorem State.setVerdict_resetAfter (s : State) (v : Verdict) :
    (s.setVerdict v).resetAfter = s.resetAfter := rfl
@[simp] theorem State.setVerdict_tick (s : State) (v : Verdict) :
    (s.setVerdict v).tick = s.tick := rfl

/-! ### `State.finish` -/

@[simp] theorem State.finish_cfg (s : State) :
    (s.finish).cfg = s.cfg := rfl
@[simp] theorem State.finish_key (s : State) :
    (s.finish).key = s.key := rfl
@[simp] theorem State.finish_keyv (s : State) :
    (s.finish).keyv = s.keyv := rfl
@[simp] theorem State.finish_argEdge (s : State) :
    (s.finish).argEdge = s.argEdge := rfl
@[simp] theorem State.finish_node (s : State) :
    (s.finish).node = s.node := rfl
@[simp] theorem State.finish_nodeValid (s : State) :
    (s.finish).nodeValid = s.nodeValid := rfl
@[simp] theorem State.finish_proof (s : State) :
    (s.finish).proof = s.proof := rfl
@[simp] theorem State.finish_proofv (s : State) :
    (s.finish).proofv = s.proofv := rfl
@[simp] theorem State.finish_hdr (s : State) :
    (s.finish).hdr = s.hdr := rfl
@[simp] theorem State.finish_hdrCount (s : State) :
    (s.finish).hdrCount = s.hdrCount := rfl
@[simp] theorem State.finish_hdrOvf (s : State) :
    (s.finish).hdrOvf = s.hdrOvf := rfl
@[simp] theorem State.finish_hdrLen (s : State) :
    (s.finish).hdrLen = s.hdrLen := rfl
@[simp] theorem State.finish_legacy (s : State) :
    (s.finish).legacy = s.legacy := rfl
@[simp] theorem State.finish_done (s : State) :
    (s.finish).done = true := rfl
@[simp] theorem State.finish_verdictValid (s : State) :
    (s.finish).verdictValid = s.verdictValid := rfl
@[simp] theorem State.finish_verdictCode (s : State) :
    (s.finish).verdictCode = s.verdictCode := rfl
@[simp] theorem State.finish_errCmd (s : State) :
    (s.finish).errCmd = s.errCmd := rfl
@[simp] theorem State.finish_errBusy (s : State) :
    (s.finish).errBusy = s.errBusy := rfl
@[simp] theorem State.finish_errOperand (s : State) :
    (s.finish).errOperand = s.errOperand := rfl
@[simp] theorem State.finish_errHdr (s : State) :
    (s.finish).errHdr = s.errHdr := rfl
@[simp] theorem State.finish_errAddr (s : State) :
    (s.finish).errAddr = s.errAddr := rfl
@[simp] theorem State.finish_phase (s : State) :
    (s.finish).phase = .idle := rfl
@[simp] theorem State.finish_opc (s : State) :
    (s.finish).opc = s.opc := rfl
@[simp] theorem State.finish_opside (s : State) :
    (s.finish).opside = s.opside := rfl
@[simp] theorem State.finish_n (s : State) :
    (s.finish).n = s.n := rfl
@[simp] theorem State.finish_i (s : State) :
    (s.finish).i = s.i := rfl
@[simp] theorem State.finish_steps (s : State) :
    (s.finish).steps = s.steps := rfl
@[simp] theorem State.finish_xor0 (s : State) :
    (s.finish).xor0 = s.xor0 := rfl
@[simp] theorem State.finish_xor1 (s : State) :
    (s.finish).xor1 = s.xor1 := rfl
@[simp] theorem State.finish_prev (s : State) :
    (s.finish).prev = s.prev := rfl
@[simp] theorem State.finish_uvs (s : State) :
    (s.finish).uvs = s.uvs := rfl
@[simp] theorem State.finish_keyBefore (s : State) :
    (s.finish).keyBefore = s.keyBefore := rfl
@[simp] theorem State.finish_keyvBefore (s : State) :
    (s.finish).keyvBefore = s.keyvBefore := rfl
@[simp] theorem State.finish_program (s : State) :
    (s.finish).program = s.program := rfl
@[simp] theorem State.finish_reads (s : State) :
    (s.finish).reads = s.reads := rfl
@[simp] theorem State.finish_lead (s : State) :
    (s.finish).lead = s.lead := rfl
@[simp] theorem State.finish_resetAfter (s : State) :
    (s.finish).resetAfter = s.resetAfter := rfl
@[simp] theorem State.finish_tick (s : State) :
    (s.finish).tick = s.tick := rfl

/-! ### `State.rememberKey` -/

@[simp] theorem State.rememberKey_cfg (s : State) :
    (s.rememberKey).cfg = s.cfg := rfl
@[simp] theorem State.rememberKey_key (s : State) :
    (s.rememberKey).key = s.key := rfl
@[simp] theorem State.rememberKey_keyv (s : State) :
    (s.rememberKey).keyv = s.keyv := rfl
@[simp] theorem State.rememberKey_argEdge (s : State) :
    (s.rememberKey).argEdge = s.argEdge := rfl
@[simp] theorem State.rememberKey_node (s : State) :
    (s.rememberKey).node = s.node := rfl
@[simp] theorem State.rememberKey_nodeValid (s : State) :
    (s.rememberKey).nodeValid = s.nodeValid := rfl
@[simp] theorem State.rememberKey_proof (s : State) :
    (s.rememberKey).proof = s.proof := rfl
@[simp] theorem State.rememberKey_proofv (s : State) :
    (s.rememberKey).proofv = s.proofv := rfl
@[simp] theorem State.rememberKey_hdr (s : State) :
    (s.rememberKey).hdr = s.hdr := rfl
@[simp] theorem State.rememberKey_hdrCount (s : State) :
    (s.rememberKey).hdrCount = s.hdrCount := rfl
@[simp] theorem State.rememberKey_hdrOvf (s : State) :
    (s.rememberKey).hdrOvf = s.hdrOvf := rfl
@[simp] theorem State.rememberKey_hdrLen (s : State) :
    (s.rememberKey).hdrLen = s.hdrLen := rfl
@[simp] theorem State.rememberKey_legacy (s : State) :
    (s.rememberKey).legacy = s.legacy := rfl
@[simp] theorem State.rememberKey_done (s : State) :
    (s.rememberKey).done = s.done := rfl
@[simp] theorem State.rememberKey_verdictValid (s : State) :
    (s.rememberKey).verdictValid = s.verdictValid := rfl
@[simp] theorem State.rememberKey_verdictCode (s : State) :
    (s.rememberKey).verdictCode = s.verdictCode := rfl
@[simp] theorem State.rememberKey_errCmd (s : State) :
    (s.rememberKey).errCmd = s.errCmd := rfl
@[simp] theorem State.rememberKey_errBusy (s : State) :
    (s.rememberKey).errBusy = s.errBusy := rfl
@[simp] theorem State.rememberKey_errOperand (s : State) :
    (s.rememberKey).errOperand = s.errOperand := rfl
@[simp] theorem State.rememberKey_errHdr (s : State) :
    (s.rememberKey).errHdr = s.errHdr := rfl
@[simp] theorem State.rememberKey_errAddr (s : State) :
    (s.rememberKey).errAddr = s.errAddr := rfl
@[simp] theorem State.rememberKey_phase (s : State) :
    (s.rememberKey).phase = s.phase := rfl
@[simp] theorem State.rememberKey_opc (s : State) :
    (s.rememberKey).opc = s.opc := rfl
@[simp] theorem State.rememberKey_opside (s : State) :
    (s.rememberKey).opside = s.opside := rfl
@[simp] theorem State.rememberKey_n (s : State) :
    (s.rememberKey).n = s.n := rfl
@[simp] theorem State.rememberKey_i (s : State) :
    (s.rememberKey).i = s.i := rfl
@[simp] theorem State.rememberKey_steps (s : State) :
    (s.rememberKey).steps = s.steps := rfl
@[simp] theorem State.rememberKey_xor0 (s : State) :
    (s.rememberKey).xor0 = s.xor0 := rfl
@[simp] theorem State.rememberKey_xor1 (s : State) :
    (s.rememberKey).xor1 = s.xor1 := rfl
@[simp] theorem State.rememberKey_prev (s : State) :
    (s.rememberKey).prev = s.prev := rfl
@[simp] theorem State.rememberKey_uvs (s : State) :
    (s.rememberKey).uvs = s.uvs := rfl
@[simp] theorem State.rememberKey_keyBefore (s : State) :
    (s.rememberKey).keyBefore = s.key := rfl
@[simp] theorem State.rememberKey_keyvBefore (s : State) :
    (s.rememberKey).keyvBefore = s.keyv := rfl
@[simp] theorem State.rememberKey_program (s : State) :
    (s.rememberKey).program = s.program := rfl
@[simp] theorem State.rememberKey_reads (s : State) :
    (s.rememberKey).reads = s.reads := rfl
@[simp] theorem State.rememberKey_lead (s : State) :
    (s.rememberKey).lead = s.lead := rfl
@[simp] theorem State.rememberKey_resetAfter (s : State) :
    (s.rememberKey).resetAfter = s.resetAfter := rfl
@[simp] theorem State.rememberKey_tick (s : State) :
    (s.rememberKey).tick = s.tick := rfl

/-! ### `State.writeKey` -/

@[simp] theorem State.writeKey_cfg (s : State) (j : Fin 4) (v : Word) :
    (s.writeKey j v).cfg = s.cfg := rfl
@[simp] theorem State.writeKey_key (s : State) (j : Fin 4) (v : Word) :
    (s.writeKey j v).key = s.key.set j v := rfl
@[simp] theorem State.writeKey_keyv (s : State) (j : Fin 4) (v : Word) :
    (s.writeKey j v).keyv = s.keyv.set j true := rfl
@[simp] theorem State.writeKey_argEdge (s : State) (j : Fin 4) (v : Word) :
    (s.writeKey j v).argEdge = s.argEdge := rfl
@[simp] theorem State.writeKey_node (s : State) (j : Fin 4) (v : Word) :
    (s.writeKey j v).node = s.node := rfl
@[simp] theorem State.writeKey_nodeValid (s : State) (j : Fin 4) (v : Word) :
    (s.writeKey j v).nodeValid = s.nodeValid := rfl
@[simp] theorem State.writeKey_proof (s : State) (j : Fin 4) (v : Word) :
    (s.writeKey j v).proof = s.proof := rfl
@[simp] theorem State.writeKey_proofv (s : State) (j : Fin 4) (v : Word) :
    (s.writeKey j v).proofv = s.proofv := rfl
@[simp] theorem State.writeKey_hdr (s : State) (j : Fin 4) (v : Word) :
    (s.writeKey j v).hdr = s.hdr := rfl
@[simp] theorem State.writeKey_hdrCount (s : State) (j : Fin 4) (v : Word) :
    (s.writeKey j v).hdrCount = s.hdrCount := rfl
@[simp] theorem State.writeKey_hdrOvf (s : State) (j : Fin 4) (v : Word) :
    (s.writeKey j v).hdrOvf = s.hdrOvf := rfl
@[simp] theorem State.writeKey_hdrLen (s : State) (j : Fin 4) (v : Word) :
    (s.writeKey j v).hdrLen = s.hdrLen := rfl
@[simp] theorem State.writeKey_legacy (s : State) (j : Fin 4) (v : Word) :
    (s.writeKey j v).legacy = s.legacy := rfl
@[simp] theorem State.writeKey_done (s : State) (j : Fin 4) (v : Word) :
    (s.writeKey j v).done = s.done := rfl
@[simp] theorem State.writeKey_verdictValid (s : State) (j : Fin 4) (v : Word) :
    (s.writeKey j v).verdictValid = s.verdictValid := rfl
@[simp] theorem State.writeKey_verdictCode (s : State) (j : Fin 4) (v : Word) :
    (s.writeKey j v).verdictCode = s.verdictCode := rfl
@[simp] theorem State.writeKey_errCmd (s : State) (j : Fin 4) (v : Word) :
    (s.writeKey j v).errCmd = s.errCmd := rfl
@[simp] theorem State.writeKey_errBusy (s : State) (j : Fin 4) (v : Word) :
    (s.writeKey j v).errBusy = s.errBusy := rfl
@[simp] theorem State.writeKey_errOperand (s : State) (j : Fin 4) (v : Word) :
    (s.writeKey j v).errOperand = s.errOperand := rfl
@[simp] theorem State.writeKey_errHdr (s : State) (j : Fin 4) (v : Word) :
    (s.writeKey j v).errHdr = s.errHdr := rfl
@[simp] theorem State.writeKey_errAddr (s : State) (j : Fin 4) (v : Word) :
    (s.writeKey j v).errAddr = s.errAddr := rfl
@[simp] theorem State.writeKey_phase (s : State) (j : Fin 4) (v : Word) :
    (s.writeKey j v).phase = s.phase := rfl
@[simp] theorem State.writeKey_opc (s : State) (j : Fin 4) (v : Word) :
    (s.writeKey j v).opc = s.opc := rfl
@[simp] theorem State.writeKey_opside (s : State) (j : Fin 4) (v : Word) :
    (s.writeKey j v).opside = s.opside := rfl
@[simp] theorem State.writeKey_n (s : State) (j : Fin 4) (v : Word) :
    (s.writeKey j v).n = s.n := rfl
@[simp] theorem State.writeKey_i (s : State) (j : Fin 4) (v : Word) :
    (s.writeKey j v).i = s.i := rfl
@[simp] theorem State.writeKey_steps (s : State) (j : Fin 4) (v : Word) :
    (s.writeKey j v).steps = s.steps := rfl
@[simp] theorem State.writeKey_xor0 (s : State) (j : Fin 4) (v : Word) :
    (s.writeKey j v).xor0 = s.xor0 := rfl
@[simp] theorem State.writeKey_xor1 (s : State) (j : Fin 4) (v : Word) :
    (s.writeKey j v).xor1 = s.xor1 := rfl
@[simp] theorem State.writeKey_prev (s : State) (j : Fin 4) (v : Word) :
    (s.writeKey j v).prev = s.prev := rfl
@[simp] theorem State.writeKey_uvs (s : State) (j : Fin 4) (v : Word) :
    (s.writeKey j v).uvs = s.uvs := rfl
@[simp] theorem State.writeKey_keyBefore (s : State) (j : Fin 4) (v : Word) :
    (s.writeKey j v).keyBefore = s.keyBefore := rfl
@[simp] theorem State.writeKey_keyvBefore (s : State) (j : Fin 4) (v : Word) :
    (s.writeKey j v).keyvBefore = s.keyvBefore := rfl
@[simp] theorem State.writeKey_program (s : State) (j : Fin 4) (v : Word) :
    (s.writeKey j v).program = s.program := rfl
@[simp] theorem State.writeKey_reads (s : State) (j : Fin 4) (v : Word) :
    (s.writeKey j v).reads = s.reads := rfl
@[simp] theorem State.writeKey_lead (s : State) (j : Fin 4) (v : Word) :
    (s.writeKey j v).lead = s.lead := rfl
@[simp] theorem State.writeKey_resetAfter (s : State) (j : Fin 4) (v : Word) :
    (s.writeKey j v).resetAfter = s.resetAfter := rfl
@[simp] theorem State.writeKey_tick (s : State) (j : Fin 4) (v : Word) :
    (s.writeKey j v).tick = s.tick := rfl

/-! ### `State.writeProof` -/

@[simp] theorem State.writeProof_cfg (s : State) (k : Nat) (v : Word) :
    (s.writeProof k v).cfg = s.cfg := rfl
@[simp] theorem State.writeProof_key (s : State) (k : Nat) (v : Word) :
    (s.writeProof k v).key = s.key := rfl
@[simp] theorem State.writeProof_keyv (s : State) (k : Nat) (v : Word) :
    (s.writeProof k v).keyv = s.keyv := rfl
@[simp] theorem State.writeProof_argEdge (s : State) (k : Nat) (v : Word) :
    (s.writeProof k v).argEdge = s.argEdge := rfl
@[simp] theorem State.writeProof_node (s : State) (k : Nat) (v : Word) :
    (s.writeProof k v).node = s.node := rfl
@[simp] theorem State.writeProof_nodeValid (s : State) (k : Nat) (v : Word) :
    (s.writeProof k v).nodeValid = s.nodeValid := rfl
@[simp] theorem State.writeProof_proof (s : State) (k : Nat) (v : Word) :
    (s.writeProof k v).proof = Bank.write 0 s.proof k v := rfl
@[simp] theorem State.writeProof_proofv (s : State) (k : Nat) (v : Word) :
    (s.writeProof k v).proofv = Bank.write false s.proofv k true := rfl
@[simp] theorem State.writeProof_hdr (s : State) (k : Nat) (v : Word) :
    (s.writeProof k v).hdr = s.hdr := rfl
@[simp] theorem State.writeProof_hdrCount (s : State) (k : Nat) (v : Word) :
    (s.writeProof k v).hdrCount = s.hdrCount := rfl
@[simp] theorem State.writeProof_hdrOvf (s : State) (k : Nat) (v : Word) :
    (s.writeProof k v).hdrOvf = s.hdrOvf := rfl
@[simp] theorem State.writeProof_hdrLen (s : State) (k : Nat) (v : Word) :
    (s.writeProof k v).hdrLen = s.hdrLen := rfl
@[simp] theorem State.writeProof_legacy (s : State) (k : Nat) (v : Word) :
    (s.writeProof k v).legacy = s.legacy := rfl
@[simp] theorem State.writeProof_done (s : State) (k : Nat) (v : Word) :
    (s.writeProof k v).done = s.done := rfl
@[simp] theorem State.writeProof_verdictValid (s : State) (k : Nat) (v : Word) :
    (s.writeProof k v).verdictValid = s.verdictValid := rfl
@[simp] theorem State.writeProof_verdictCode (s : State) (k : Nat) (v : Word) :
    (s.writeProof k v).verdictCode = s.verdictCode := rfl
@[simp] theorem State.writeProof_errCmd (s : State) (k : Nat) (v : Word) :
    (s.writeProof k v).errCmd = s.errCmd := rfl
@[simp] theorem State.writeProof_errBusy (s : State) (k : Nat) (v : Word) :
    (s.writeProof k v).errBusy = s.errBusy := rfl
@[simp] theorem State.writeProof_errOperand (s : State) (k : Nat) (v : Word) :
    (s.writeProof k v).errOperand = s.errOperand := rfl
@[simp] theorem State.writeProof_errHdr (s : State) (k : Nat) (v : Word) :
    (s.writeProof k v).errHdr = s.errHdr := rfl
@[simp] theorem State.writeProof_errAddr (s : State) (k : Nat) (v : Word) :
    (s.writeProof k v).errAddr = s.errAddr := rfl
@[simp] theorem State.writeProof_phase (s : State) (k : Nat) (v : Word) :
    (s.writeProof k v).phase = s.phase := rfl
@[simp] theorem State.writeProof_opc (s : State) (k : Nat) (v : Word) :
    (s.writeProof k v).opc = s.opc := rfl
@[simp] theorem State.writeProof_opside (s : State) (k : Nat) (v : Word) :
    (s.writeProof k v).opside = s.opside := rfl
@[simp] theorem State.writeProof_n (s : State) (k : Nat) (v : Word) :
    (s.writeProof k v).n = s.n := rfl
@[simp] theorem State.writeProof_i (s : State) (k : Nat) (v : Word) :
    (s.writeProof k v).i = s.i := rfl
@[simp] theorem State.writeProof_steps (s : State) (k : Nat) (v : Word) :
    (s.writeProof k v).steps = s.steps := rfl
@[simp] theorem State.writeProof_xor0 (s : State) (k : Nat) (v : Word) :
    (s.writeProof k v).xor0 = s.xor0 := rfl
@[simp] theorem State.writeProof_xor1 (s : State) (k : Nat) (v : Word) :
    (s.writeProof k v).xor1 = s.xor1 := rfl
@[simp] theorem State.writeProof_prev (s : State) (k : Nat) (v : Word) :
    (s.writeProof k v).prev = s.prev := rfl
@[simp] theorem State.writeProof_uvs (s : State) (k : Nat) (v : Word) :
    (s.writeProof k v).uvs = s.uvs := rfl
@[simp] theorem State.writeProof_keyBefore (s : State) (k : Nat) (v : Word) :
    (s.writeProof k v).keyBefore = s.keyBefore := rfl
@[simp] theorem State.writeProof_keyvBefore (s : State) (k : Nat) (v : Word) :
    (s.writeProof k v).keyvBefore = s.keyvBefore := rfl
@[simp] theorem State.writeProof_program (s : State) (k : Nat) (v : Word) :
    (s.writeProof k v).program = s.program := rfl
@[simp] theorem State.writeProof_reads (s : State) (k : Nat) (v : Word) :
    (s.writeProof k v).reads = s.reads := rfl
@[simp] theorem State.writeProof_lead (s : State) (k : Nat) (v : Word) :
    (s.writeProof k v).lead = s.lead := rfl
@[simp] theorem State.writeProof_resetAfter (s : State) (k : Nat) (v : Word) :
    (s.writeProof k v).resetAfter = s.resetAfter := rfl
@[simp] theorem State.writeProof_tick (s : State) (k : Nat) (v : Word) :
    (s.writeProof k v).tick = s.tick := rfl

/-! ### `State.record` -/

@[simp] theorem State.record_cfg (s : State) (v : Word) :
    (s.record v).cfg = s.cfg := rfl
@[simp] theorem State.record_key (s : State) (v : Word) :
    (s.record v).key = s.key := rfl
@[simp] theorem State.record_keyv (s : State) (v : Word) :
    (s.record v).keyv = s.keyv := rfl
@[simp] theorem State.record_argEdge (s : State) (v : Word) :
    (s.record v).argEdge = s.argEdge := rfl
@[simp] theorem State.record_node (s : State) (v : Word) :
    (s.record v).node = s.node := rfl
@[simp] theorem State.record_nodeValid (s : State) (v : Word) :
    (s.record v).nodeValid = s.nodeValid := rfl
@[simp] theorem State.record_proof (s : State) (v : Word) :
    (s.record v).proof = s.proof := rfl
@[simp] theorem State.record_proofv (s : State) (v : Word) :
    (s.record v).proofv = s.proofv := rfl
@[simp] theorem State.record_hdr (s : State) (v : Word) :
    (s.record v).hdr = s.hdr := rfl
@[simp] theorem State.record_hdrCount (s : State) (v : Word) :
    (s.record v).hdrCount = s.hdrCount := rfl
@[simp] theorem State.record_hdrOvf (s : State) (v : Word) :
    (s.record v).hdrOvf = s.hdrOvf := rfl
@[simp] theorem State.record_hdrLen (s : State) (v : Word) :
    (s.record v).hdrLen = s.hdrLen := rfl
@[simp] theorem State.record_legacy (s : State) (v : Word) :
    (s.record v).legacy = s.legacy := rfl
@[simp] theorem State.record_done (s : State) (v : Word) :
    (s.record v).done = s.done := rfl
@[simp] theorem State.record_verdictValid (s : State) (v : Word) :
    (s.record v).verdictValid = s.verdictValid := rfl
@[simp] theorem State.record_verdictCode (s : State) (v : Word) :
    (s.record v).verdictCode = s.verdictCode := rfl
@[simp] theorem State.record_errCmd (s : State) (v : Word) :
    (s.record v).errCmd = s.errCmd := rfl
@[simp] theorem State.record_errBusy (s : State) (v : Word) :
    (s.record v).errBusy = s.errBusy := rfl
@[simp] theorem State.record_errOperand (s : State) (v : Word) :
    (s.record v).errOperand = s.errOperand := rfl
@[simp] theorem State.record_errHdr (s : State) (v : Word) :
    (s.record v).errHdr = s.errHdr := rfl
@[simp] theorem State.record_errAddr (s : State) (v : Word) :
    (s.record v).errAddr = s.errAddr := rfl
@[simp] theorem State.record_phase (s : State) (v : Word) :
    (s.record v).phase = s.phase := rfl
@[simp] theorem State.record_opc (s : State) (v : Word) :
    (s.record v).opc = s.opc := rfl
@[simp] theorem State.record_opside (s : State) (v : Word) :
    (s.record v).opside = s.opside := rfl
@[simp] theorem State.record_n (s : State) (v : Word) :
    (s.record v).n = s.n := rfl
@[simp] theorem State.record_i (s : State) (v : Word) :
    (s.record v).i = s.i := rfl
@[simp] theorem State.record_steps (s : State) (v : Word) :
    (s.record v).steps = s.steps := rfl
@[simp] theorem State.record_xor0 (s : State) (v : Word) :
    (s.record v).xor0 = s.xor0 := rfl
@[simp] theorem State.record_xor1 (s : State) (v : Word) :
    (s.record v).xor1 = s.xor1 := rfl
@[simp] theorem State.record_prev (s : State) (v : Word) :
    (s.record v).prev = s.prev := rfl
@[simp] theorem State.record_uvs (s : State) (v : Word) :
    (s.record v).uvs = s.uvs := rfl
@[simp] theorem State.record_keyBefore (s : State) (v : Word) :
    (s.record v).keyBefore = s.keyBefore := rfl
@[simp] theorem State.record_keyvBefore (s : State) (v : Word) :
    (s.record v).keyvBefore = s.keyvBefore := rfl
@[simp] theorem State.record_program (s : State) (v : Word) :
    (s.record v).program = s.program := rfl
@[simp] theorem State.record_reads (s : State) (v : Word) :
    (s.record v).reads = s.reads ++ [v] := rfl
@[simp] theorem State.record_lead (s : State) (v : Word) :
    (s.record v).lead = s.lead := rfl
@[simp] theorem State.record_resetAfter (s : State) (v : Word) :
    (s.record v).resetAfter = s.resetAfter := rfl
@[simp] theorem State.record_tick (s : State) (v : Word) :
    (s.record v).tick = s.tick := rfl

/-! ### `State.scanEdge` -/

@[simp] theorem State.scanEdge_cfg (s : State) (e : Word) :
    (s.scanEdge e).cfg = s.cfg := rfl
@[simp] theorem State.scanEdge_key (s : State) (e : Word) :
    (s.scanEdge e).key = s.key := rfl
@[simp] theorem State.scanEdge_keyv (s : State) (e : Word) :
    (s.scanEdge e).keyv = s.keyv := rfl
@[simp] theorem State.scanEdge_argEdge (s : State) (e : Word) :
    (s.scanEdge e).argEdge = s.argEdge := rfl
@[simp] theorem State.scanEdge_node (s : State) (e : Word) :
    (s.scanEdge e).node = s.node := rfl
@[simp] theorem State.scanEdge_nodeValid (s : State) (e : Word) :
    (s.scanEdge e).nodeValid = s.nodeValid := rfl
@[simp] theorem State.scanEdge_proof (s : State) (e : Word) :
    (s.scanEdge e).proof = s.proof := rfl
@[simp] theorem State.scanEdge_proofv (s : State) (e : Word) :
    (s.scanEdge e).proofv = s.proofv := rfl
@[simp] theorem State.scanEdge_hdr (s : State) (e : Word) :
    (s.scanEdge e).hdr = s.hdr := rfl
@[simp] theorem State.scanEdge_hdrCount (s : State) (e : Word) :
    (s.scanEdge e).hdrCount = s.hdrCount := rfl
@[simp] theorem State.scanEdge_hdrOvf (s : State) (e : Word) :
    (s.scanEdge e).hdrOvf = s.hdrOvf := rfl
@[simp] theorem State.scanEdge_hdrLen (s : State) (e : Word) :
    (s.scanEdge e).hdrLen = s.hdrLen := rfl
@[simp] theorem State.scanEdge_legacy (s : State) (e : Word) :
    (s.scanEdge e).legacy = s.legacy := rfl
@[simp] theorem State.scanEdge_done (s : State) (e : Word) :
    (s.scanEdge e).done = s.done := rfl
@[simp] theorem State.scanEdge_verdictValid (s : State) (e : Word) :
    (s.scanEdge e).verdictValid = s.verdictValid := rfl
@[simp] theorem State.scanEdge_verdictCode (s : State) (e : Word) :
    (s.scanEdge e).verdictCode = s.verdictCode := rfl
@[simp] theorem State.scanEdge_errCmd (s : State) (e : Word) :
    (s.scanEdge e).errCmd = s.errCmd := rfl
@[simp] theorem State.scanEdge_errBusy (s : State) (e : Word) :
    (s.scanEdge e).errBusy = s.errBusy := rfl
@[simp] theorem State.scanEdge_errOperand (s : State) (e : Word) :
    (s.scanEdge e).errOperand = s.errOperand := rfl
@[simp] theorem State.scanEdge_errHdr (s : State) (e : Word) :
    (s.scanEdge e).errHdr = s.errHdr := rfl
@[simp] theorem State.scanEdge_errAddr (s : State) (e : Word) :
    (s.scanEdge e).errAddr = s.errAddr := rfl
@[simp] theorem State.scanEdge_phase (s : State) (e : Word) :
    (s.scanEdge e).phase = if s.n + 1 = s.cfg.proofSize then .xorchk else .scan := rfl
@[simp] theorem State.scanEdge_opc (s : State) (e : Word) :
    (s.scanEdge e).opc = s.opc := rfl
@[simp] theorem State.scanEdge_opside (s : State) (e : Word) :
    (s.scanEdge e).opside = s.opside := rfl
@[simp] theorem State.scanEdge_n (s : State) (e : Word) :
    (s.scanEdge e).n = s.n + 1 := rfl
@[simp] theorem State.scanEdge_i (s : State) (e : Word) :
    (s.scanEdge e).i = s.i := rfl
@[simp] theorem State.scanEdge_steps (s : State) (e : Word) :
    (s.scanEdge e).steps = s.steps := rfl
@[simp] theorem State.scanEdge_xor0 (s : State) (e : Word) :
    (s.scanEdge e).xor0 = s.xor0 ^^^ Config.toW s.cfg (sipnode s.cfg s.key e 0) := rfl
@[simp] theorem State.scanEdge_xor1 (s : State) (e : Word) :
    (s.scanEdge e).xor1 = s.xor1 ^^^ Config.toW s.cfg (sipnode s.cfg s.key e 1) := rfl
@[simp] theorem State.scanEdge_prev (s : State) (e : Word) :
    (s.scanEdge e).prev = Config.toW s.cfg e := rfl
@[simp] theorem State.scanEdge_uvs (s : State) (e : Word) :
    (s.scanEdge e).uvs = Bank.put (Bank.put s.uvs (2 * s.n) (Config.toW s.cfg (sipnode s.cfg s.key e 0))) (2 * s.n + 1)
      (Config.toW s.cfg (sipnode s.cfg s.key e 1)) := rfl
@[simp] theorem State.scanEdge_keyBefore (s : State) (e : Word) :
    (s.scanEdge e).keyBefore = s.keyBefore := rfl
@[simp] theorem State.scanEdge_keyvBefore (s : State) (e : Word) :
    (s.scanEdge e).keyvBefore = s.keyvBefore := rfl
@[simp] theorem State.scanEdge_program (s : State) (e : Word) :
    (s.scanEdge e).program = s.program := rfl
@[simp] theorem State.scanEdge_reads (s : State) (e : Word) :
    (s.scanEdge e).reads = s.reads := rfl
@[simp] theorem State.scanEdge_lead (s : State) (e : Word) :
    (s.scanEdge e).lead = s.lead := rfl
@[simp] theorem State.scanEdge_resetAfter (s : State) (e : Word) :
    (s.scanEdge e).resetAfter = s.resetAfter := rfl
@[simp] theorem State.scanEdge_tick (s : State) (e : Word) :
    (s.scanEdge e).tick = s.tick := rfl

/-! ### `State.keyForScan` -/

@[simp] theorem State.keyForScan_cfg (s : State) :
    (s.keyForScan).cfg = s.cfg := rfl
@[simp] theorem State.keyForScan_key (s : State) :
    (s.keyForScan).key = s.derivedKey := rfl
@[simp] theorem State.keyForScan_keyv (s : State) :
    (s.keyForScan).keyv = Vector.replicate 4 true := rfl
@[simp] theorem State.keyForScan_argEdge (s : State) :
    (s.keyForScan).argEdge = s.argEdge := rfl
@[simp] theorem State.keyForScan_node (s : State) :
    (s.keyForScan).node = s.node := rfl
@[simp] theorem State.keyForScan_nodeValid (s : State) :
    (s.keyForScan).nodeValid = s.nodeValid := rfl
@[simp] theorem State.keyForScan_proof (s : State) :
    (s.keyForScan).proof = s.proof := rfl
@[simp] theorem State.keyForScan_proofv (s : State) :
    (s.keyForScan).proofv = s.proofv := rfl
@[simp] theorem State.keyForScan_hdr (s : State) :
    (s.keyForScan).hdr = s.hdr := rfl
@[simp] theorem State.keyForScan_hdrCount (s : State) :
    (s.keyForScan).hdrCount = s.hdrCount := rfl
@[simp] theorem State.keyForScan_hdrOvf (s : State) :
    (s.keyForScan).hdrOvf = s.hdrOvf := rfl
@[simp] theorem State.keyForScan_hdrLen (s : State) :
    (s.keyForScan).hdrLen = s.hdrLen := rfl
@[simp] theorem State.keyForScan_legacy (s : State) :
    (s.keyForScan).legacy = s.legacy := rfl
@[simp] theorem State.keyForScan_done (s : State) :
    (s.keyForScan).done = s.done := rfl
@[simp] theorem State.keyForScan_verdictValid (s : State) :
    (s.keyForScan).verdictValid = s.verdictValid := rfl
@[simp] theorem State.keyForScan_verdictCode (s : State) :
    (s.keyForScan).verdictCode = s.verdictCode := rfl
@[simp] theorem State.keyForScan_errCmd (s : State) :
    (s.keyForScan).errCmd = s.errCmd := rfl
@[simp] theorem State.keyForScan_errBusy (s : State) :
    (s.keyForScan).errBusy = s.errBusy := rfl
@[simp] theorem State.keyForScan_errOperand (s : State) :
    (s.keyForScan).errOperand = s.errOperand := rfl
@[simp] theorem State.keyForScan_errHdr (s : State) :
    (s.keyForScan).errHdr = s.errHdr := rfl
@[simp] theorem State.keyForScan_errAddr (s : State) :
    (s.keyForScan).errAddr = s.errAddr := rfl
@[simp] theorem State.keyForScan_phase (s : State) :
    (s.keyForScan).phase = .scan := rfl
@[simp] theorem State.keyForScan_opc (s : State) :
    (s.keyForScan).opc = s.opc := rfl
@[simp] theorem State.keyForScan_opside (s : State) :
    (s.keyForScan).opside = s.opside := rfl
@[simp] theorem State.keyForScan_n (s : State) :
    (s.keyForScan).n = s.n := rfl
@[simp] theorem State.keyForScan_i (s : State) :
    (s.keyForScan).i = s.i := rfl
@[simp] theorem State.keyForScan_steps (s : State) :
    (s.keyForScan).steps = s.steps := rfl
@[simp] theorem State.keyForScan_xor0 (s : State) :
    (s.keyForScan).xor0 = s.xor0 := rfl
@[simp] theorem State.keyForScan_xor1 (s : State) :
    (s.keyForScan).xor1 = s.xor1 := rfl
@[simp] theorem State.keyForScan_prev (s : State) :
    (s.keyForScan).prev = s.prev := rfl
@[simp] theorem State.keyForScan_uvs (s : State) :
    (s.keyForScan).uvs = s.uvs := rfl
@[simp] theorem State.keyForScan_keyBefore (s : State) :
    (s.keyForScan).keyBefore = s.keyBefore := rfl
@[simp] theorem State.keyForScan_keyvBefore (s : State) :
    (s.keyForScan).keyvBefore = s.keyvBefore := rfl
@[simp] theorem State.keyForScan_program (s : State) :
    (s.keyForScan).program = s.program := rfl
@[simp] theorem State.keyForScan_reads (s : State) :
    (s.keyForScan).reads = s.reads := rfl
@[simp] theorem State.keyForScan_lead (s : State) :
    (s.keyForScan).lead = s.lead := rfl
@[simp] theorem State.keyForScan_resetAfter (s : State) :
    (s.keyForScan).resetAfter = s.resetAfter := rfl
@[simp] theorem State.keyForScan_tick (s : State) :
    (s.keyForScan).tick = s.tick := rfl

/-! ### `State.resetBlock` -/

@[simp] theorem State.resetBlock_cfg (s : State) :
    (s.resetBlock).cfg = s.cfg := rfl
@[simp] theorem State.resetBlock_key (s : State) :
    (s.resetBlock).key = Vector.replicate 4 0 := rfl
@[simp] theorem State.resetBlock_keyv (s : State) :
    (s.resetBlock).keyv = Vector.replicate 4 false := rfl
@[simp] theorem State.resetBlock_argEdge (s : State) :
    (s.resetBlock).argEdge = 0 := rfl
@[simp] theorem State.resetBlock_node (s : State) :
    (s.resetBlock).node = 0 := rfl
@[simp] theorem State.resetBlock_nodeValid (s : State) :
    (s.resetBlock).nodeValid = false := rfl
@[simp] theorem State.resetBlock_proof (s : State) :
    (s.resetBlock).proof = [] := rfl
@[simp] theorem State.resetBlock_proofv (s : State) :
    (s.resetBlock).proofv = [] := rfl
@[simp] theorem State.resetBlock_hdr (s : State) :
    (s.resetBlock).hdr = [] := rfl
@[simp] theorem State.resetBlock_hdrCount (s : State) :
    (s.resetBlock).hdrCount = 0 := rfl
@[simp] theorem State.resetBlock_hdrOvf (s : State) :
    (s.resetBlock).hdrOvf = false := rfl
@[simp] theorem State.resetBlock_hdrLen (s : State) :
    (s.resetBlock).hdrLen = 0 := rfl
@[simp] theorem State.resetBlock_legacy (s : State) :
    (s.resetBlock).legacy = false := rfl
@[simp] theorem State.resetBlock_done (s : State) :
    (s.resetBlock).done = false := rfl
@[simp] theorem State.resetBlock_verdictValid (s : State) :
    (s.resetBlock).verdictValid = false := rfl
@[simp] theorem State.resetBlock_verdictCode (s : State) :
    (s.resetBlock).verdictCode = 0 := rfl
@[simp] theorem State.resetBlock_errCmd (s : State) :
    (s.resetBlock).errCmd = false := rfl
@[simp] theorem State.resetBlock_errBusy (s : State) :
    (s.resetBlock).errBusy = false := rfl
@[simp] theorem State.resetBlock_errOperand (s : State) :
    (s.resetBlock).errOperand = false := rfl
@[simp] theorem State.resetBlock_errHdr (s : State) :
    (s.resetBlock).errHdr = false := rfl
@[simp] theorem State.resetBlock_errAddr (s : State) :
    (s.resetBlock).errAddr = false := rfl
@[simp] theorem State.resetBlock_phase (s : State) :
    (s.resetBlock).phase = .idle := rfl
@[simp] theorem State.resetBlock_opc (s : State) :
    (s.resetBlock).opc = 0 := rfl
@[simp] theorem State.resetBlock_opside (s : State) :
    (s.resetBlock).opside = 0 := rfl
@[simp] theorem State.resetBlock_n (s : State) :
    (s.resetBlock).n = 0 := rfl
@[simp] theorem State.resetBlock_i (s : State) :
    (s.resetBlock).i = 0 := rfl
@[simp] theorem State.resetBlock_steps (s : State) :
    (s.resetBlock).steps = 0 := rfl
@[simp] theorem State.resetBlock_xor0 (s : State) :
    (s.resetBlock).xor0 = 0 := rfl
@[simp] theorem State.resetBlock_xor1 (s : State) :
    (s.resetBlock).xor1 = 0 := rfl
@[simp] theorem State.resetBlock_prev (s : State) :
    (s.resetBlock).prev = 0 := rfl
@[simp] theorem State.resetBlock_uvs (s : State) :
    (s.resetBlock).uvs = [] := rfl
@[simp] theorem State.resetBlock_keyBefore (s : State) :
    (s.resetBlock).keyBefore = Vector.replicate 4 0 := rfl
@[simp] theorem State.resetBlock_keyvBefore (s : State) :
    (s.resetBlock).keyvBefore = Vector.replicate 4 false := rfl
@[simp] theorem State.resetBlock_program (s : State) :
    (s.resetBlock).program = s.program := rfl
@[simp] theorem State.resetBlock_reads (s : State) :
    (s.resetBlock).reads = s.reads := rfl
@[simp] theorem State.resetBlock_lead (s : State) :
    (s.resetBlock).lead = s.lead := rfl
@[simp] theorem State.resetBlock_resetAfter (s : State) :
    (s.resetBlock).resetAfter = s.resetAfter := rfl
@[simp] theorem State.resetBlock_tick (s : State) :
    (s.resetBlock).tick = s.tick := rfl

/-! ### `State.moveOn` -/

@[simp] theorem State.moveOn_cfg (s : State) (u : State) (who : Agent) (b : Bool) :
    (u.moveOn who b s).cfg = s.cfg := rfl
@[simp] theorem State.moveOn_key (s : State) (u : State) (who : Agent) (b : Bool) :
    (u.moveOn who b s).key = s.key := rfl
@[simp] theorem State.moveOn_keyv (s : State) (u : State) (who : Agent) (b : Bool) :
    (u.moveOn who b s).keyv = s.keyv := rfl
@[simp] theorem State.moveOn_argEdge (s : State) (u : State) (who : Agent) (b : Bool) :
    (u.moveOn who b s).argEdge = s.argEdge := rfl
@[simp] theorem State.moveOn_node (s : State) (u : State) (who : Agent) (b : Bool) :
    (u.moveOn who b s).node = s.node := rfl
@[simp] theorem State.moveOn_nodeValid (s : State) (u : State) (who : Agent) (b : Bool) :
    (u.moveOn who b s).nodeValid = s.nodeValid := rfl
@[simp] theorem State.moveOn_proof (s : State) (u : State) (who : Agent) (b : Bool) :
    (u.moveOn who b s).proof = s.proof := rfl
@[simp] theorem State.moveOn_proofv (s : State) (u : State) (who : Agent) (b : Bool) :
    (u.moveOn who b s).proofv = s.proofv := rfl
@[simp] theorem State.moveOn_hdr (s : State) (u : State) (who : Agent) (b : Bool) :
    (u.moveOn who b s).hdr = s.hdr := rfl
@[simp] theorem State.moveOn_hdrCount (s : State) (u : State) (who : Agent) (b : Bool) :
    (u.moveOn who b s).hdrCount = s.hdrCount := rfl
@[simp] theorem State.moveOn_hdrOvf (s : State) (u : State) (who : Agent) (b : Bool) :
    (u.moveOn who b s).hdrOvf = s.hdrOvf := rfl
@[simp] theorem State.moveOn_hdrLen (s : State) (u : State) (who : Agent) (b : Bool) :
    (u.moveOn who b s).hdrLen = s.hdrLen := rfl
@[simp] theorem State.moveOn_legacy (s : State) (u : State) (who : Agent) (b : Bool) :
    (u.moveOn who b s).legacy = s.legacy := rfl
@[simp] theorem State.moveOn_done (s : State) (u : State) (who : Agent) (b : Bool) :
    (u.moveOn who b s).done = s.done := rfl
@[simp] theorem State.moveOn_verdictValid (s : State) (u : State) (who : Agent) (b : Bool) :
    (u.moveOn who b s).verdictValid = s.verdictValid := rfl
@[simp] theorem State.moveOn_verdictCode (s : State) (u : State) (who : Agent) (b : Bool) :
    (u.moveOn who b s).verdictCode = s.verdictCode := rfl
@[simp] theorem State.moveOn_errCmd (s : State) (u : State) (who : Agent) (b : Bool) :
    (u.moveOn who b s).errCmd = s.errCmd := rfl
@[simp] theorem State.moveOn_errBusy (s : State) (u : State) (who : Agent) (b : Bool) :
    (u.moveOn who b s).errBusy = s.errBusy := rfl
@[simp] theorem State.moveOn_errOperand (s : State) (u : State) (who : Agent) (b : Bool) :
    (u.moveOn who b s).errOperand = s.errOperand := rfl
@[simp] theorem State.moveOn_errHdr (s : State) (u : State) (who : Agent) (b : Bool) :
    (u.moveOn who b s).errHdr = s.errHdr := rfl
@[simp] theorem State.moveOn_errAddr (s : State) (u : State) (who : Agent) (b : Bool) :
    (u.moveOn who b s).errAddr = s.errAddr := rfl
@[simp] theorem State.moveOn_phase (s : State) (u : State) (who : Agent) (b : Bool) :
    (u.moveOn who b s).phase = s.phase := rfl
@[simp] theorem State.moveOn_opc (s : State) (u : State) (who : Agent) (b : Bool) :
    (u.moveOn who b s).opc = s.opc := rfl
@[simp] theorem State.moveOn_opside (s : State) (u : State) (who : Agent) (b : Bool) :
    (u.moveOn who b s).opside = s.opside := rfl
@[simp] theorem State.moveOn_n (s : State) (u : State) (who : Agent) (b : Bool) :
    (u.moveOn who b s).n = s.n := rfl
@[simp] theorem State.moveOn_i (s : State) (u : State) (who : Agent) (b : Bool) :
    (u.moveOn who b s).i = s.i := rfl
@[simp] theorem State.moveOn_steps (s : State) (u : State) (who : Agent) (b : Bool) :
    (u.moveOn who b s).steps = s.steps := rfl
@[simp] theorem State.moveOn_xor0 (s : State) (u : State) (who : Agent) (b : Bool) :
    (u.moveOn who b s).xor0 = s.xor0 := rfl
@[simp] theorem State.moveOn_xor1 (s : State) (u : State) (who : Agent) (b : Bool) :
    (u.moveOn who b s).xor1 = s.xor1 := rfl
@[simp] theorem State.moveOn_prev (s : State) (u : State) (who : Agent) (b : Bool) :
    (u.moveOn who b s).prev = s.prev := rfl
@[simp] theorem State.moveOn_uvs (s : State) (u : State) (who : Agent) (b : Bool) :
    (u.moveOn who b s).uvs = s.uvs := rfl
@[simp] theorem State.moveOn_keyBefore (s : State) (u : State) (who : Agent) (b : Bool) :
    (u.moveOn who b s).keyBefore = s.keyBefore := rfl
@[simp] theorem State.moveOn_keyvBefore (s : State) (u : State) (who : Agent) (b : Bool) :
    (u.moveOn who b s).keyvBefore = s.keyvBefore := rfl
@[simp] theorem State.moveOn_program (s : State) (u : State) (who : Agent) (b : Bool) :
    (u.moveOn who b s).program = if b then s.program.tail else s.program := rfl
@[simp] theorem State.moveOn_reads (s : State) (u : State) (who : Agent) (b : Bool) :
    (u.moveOn who b s).reads = s.reads := rfl
@[simp] theorem State.moveOn_lead (s : State) (u : State) (who : Agent) (b : Bool) :
    (u.moveOn who b s).lead = u.leadAfter who := rfl
@[simp] theorem State.moveOn_resetAfter (s : State) (u : State) (who : Agent) (b : Bool) :
    (u.moveOn who b s).resetAfter = u.resetsAfter who := rfl
@[simp] theorem State.moveOn_tick (s : State) (u : State) (who : Agent) (b : Bool) :
    (u.moveOn who b s).tick = s.tick + 1 := rfl

end Sys2Proof.Machine
end

