-- ==== Sys2Proof/Laws/Bank.lean ====
section
/-! SUPPORT. The arrays of the block: read after write, and the canonical form is kept by every array operation. -/

namespace Sys2Proof.Machine

variable {α : Type}

@[simp] theorem Bank.get?_nil (a : Nat) : Bank.get? ([] : Bank α) a = none := rfl

/-- Reading after listing a value: that value at its index, everything else as before. -/
@[simp] theorem Bank.get?_put (b : Bank α) (a k : Nat) (v : α) :
    Bank.get? (b.put a v) k = if a = k then some v else Bank.get? b k := by
  induction b with
  | nil => simp [Bank.put, Bank.get?]
  | cons e rest ih =>
    obtain ⟨j, w⟩ := e
    simp only [Bank.put]
    split
    · simp [Bank.get?]
    · split <;> by_cases hjk : j = k <;> by_cases hak : a = k <;> simp_all [Bank.get?]

/-- Reading after erasing: nothing at that index, everything else as before. -/
@[simp] theorem Bank.get?_erase (b : Bank α) (a k : Nat) :
    Bank.get? (Bank.erase b a) k = if a = k then none else Bank.get? b k := by
  induction b with
  | nil => simp [Bank.erase]
  | cons e rest ih =>
    obtain ⟨j, w⟩ := e
    simp only [Bank.erase, List.filter] at ih ⊢
    by_cases hja : j = a
    · subst hja; by_cases hk : j = k <;> simp_all [Bank.get?]
    · by_cases hjk : j = k <;> simp_all [Bank.get?]
      intro h; exact absurd h.symm hja

/-- Reading, with its default, after writing. -/
@[simp] theorem Bank.getD_write [DecidableEq α] (d : α) (b : Bank α) (a k : Nat) (v : α) :
    (Bank.get? (Bank.write d b a v) k).getD d = if a = k then v else (Bank.get? b k).getD d := by
  unfold Bank.write
  split <;> rename_i h
  · by_cases hk : a = k <;> simp [hk, h]
  · by_cases hk : a = k <;> simp [hk]

/-- What a member of a list after `put` is. -/
theorem Bank.mem_put {b : Bank α} {a : Nat} {v : α} {e : Nat × α} (h : e ∈ b.put a v) : e = (a, v) ∨ e ∈ b := by
  induction b with
  | nil => simpa [Bank.put] using h
  | cons x rest ih =>
    obtain ⟨j, w⟩ := x
    simp only [Bank.put] at h
    split at h
    · simpa using h
    · split at h
      · rcases List.mem_cons.mp h with h | h
        · exact .inl h
        · exact .inr (List.mem_cons_of_mem _ h)
      · rcases List.mem_cons.mp h with h | h
        · exact .inr (h ▸ List.mem_cons_self)
        · exact (ih h).imp id (List.mem_cons_of_mem _)

/-- Listing a value keeps the indices strictly rising. -/
theorem Bank.put_rising {b : Bank α} (a : Nat) (v : α) (h : b.Pairwise (fun x y => x.1 < y.1)) :
    (b.put a v).Pairwise (fun x y => x.1 < y.1) := by
  induction b with
  | nil => simp [Bank.put]
  | cons x rest ih =>
    obtain ⟨j, w⟩ := x
    rw [List.pairwise_cons] at h
    simp only [Bank.put]
    split <;> rename_i h1
    · refine List.pairwise_cons.mpr ⟨fun y hy => ?_, List.pairwise_cons.mpr h⟩
      rcases List.mem_cons.mp hy with rfl | hy
      · exact h1
      · exact Nat.lt_trans h1 (h.1 y hy)
    · split <;> rename_i h2
      · subst h2; exact List.pairwise_cons.mpr h
      · refine List.pairwise_cons.mpr ⟨fun y hy => ?_, ih h.2⟩
        rcases Bank.mem_put hy with rfl | hy
        · show j < a; omega
        · exact h.1 y hy

/-- Listing a value that is not the default keeps the canonical form. -/
theorem Bank.put_wf [DecidableEq α] {d : Option α} {b : Bank α} (a : Nat) (v : α) (h : b.wf d) (hv : some v ≠ d) :
    (b.put a v).wf d :=
  ⟨Bank.put_rising a v h.1, fun e he => (Bank.mem_put he).elim (fun h' => h' ▸ hv) (h.2 e)⟩

/-- Erasing keeps the canonical form. -/
theorem Bank.erase_wf [DecidableEq α] {d : Option α} {b : Bank α} (a : Nat) (h : b.wf d) : (Bank.erase b a).wf d :=
  ⟨h.1.filter _, fun e he => h.2 e (List.mem_of_mem_filter he)⟩

/-- Writing keeps the canonical form. -/
theorem Bank.write_wf [DecidableEq α] {d : α} {b : Bank α} (a : Nat) (v : α) (h : b.wf (some d)) :
    (Bank.write d b a v).wf (some d) := by
  unfold Bank.write
  split <;> rename_i hv
  · exact Bank.erase_wf a h
  · exact Bank.put_wf a v h (by simpa using hv)

/-- Listing a value below the bound keeps every index below it. -/
theorem Bank.put_below {b : Bank α} {n a : Nat} (v : α) (h : b.below n) (ha : a < n) : (b.put a v).below n :=
  fun e he => (Bank.mem_put he).elim (fun h' => h' ▸ ha) (h e)

/-- Writing below the bound keeps every index below it. -/
theorem Bank.write_below [DecidableEq α] {d : α} {b : Bank α} {n a : Nat} (v : α) (h : b.below n) (ha : a < n) :
    (Bank.write d b a v).below n := by
  unfold Bank.write
  split
  · exact fun e he => h e (List.mem_of_mem_filter he)
  · exact Bank.put_below v h ha

/-- A listed value is an entry of the list. -/
theorem Bank.mem_of_get? {b : Bank α} {a : Nat} {v : α} (h : Bank.get? b a = some v) : (a, v) ∈ b := by
  induction b with
  | nil => simp at h
  | cons x rest ih =>
    obtain ⟨j, w⟩ := x
    simp only [Bank.get?] at h
    split at h <;> rename_i hj
    · subst hj; simp_all
    · exact List.mem_cons_of_mem _ (ih h)

/-- The empty list is in canonical form. -/
theorem Bank.nil_wf [DecidableEq α] (d : Option α) : Bank.wf d ([] : Bank α) := ⟨.nil, by simp⟩

/-! ### The arrays through their reads -/

/-- A proof write: the new value at its index, every other entry as before (R180). -/
@[simp] theorem State.writeProof_proofAt (s : State) (a k : Nat) (v : Word) :
    (s.writeProof a v).proofAt k = if a = k then v else s.proofAt k := by
  simp [State.proofAt]

/-- A proof write sets its own valid bit and no other (R27, R180). -/
@[simp] theorem State.writeProof_proofvAt (s : State) (a k : Nat) (v : Word) :
    (s.writeProof a v).proofvAt k = (decide (a = k) || s.proofvAt k) := by
  by_cases h : a = k <;> simp [State.proofvAt, h]

/-- After consumption every proof entry is 0 and not valid (R28). -/
@[simp] theorem State.consumeProof_proofAt (s : State) (k : Nat) : s.consumeProof.proofAt k = 0 := rfl

@[simp] theorem State.consumeProof_proofvAt (s : State) (k : Nat) : s.consumeProof.proofvAt k = false := rfl

/-- Every array operation that writes the proof keeps the arrays' canonical form. -/
theorem writeProof_memory {s : State} {k : Nat} (v : Word) (h : Memory.wf s) (hk : k < s.cfg.proofSize) :
    Memory.wf (s.writeProof k v) :=
  ⟨⟨Bank.write_wf k v h.1.1, Bank.write_below v h.1.2 hk⟩,
    ⟨Bank.write_wf k true h.2.1.1, Bank.write_below (d := false) true h.2.1.2 hk⟩, h.2.2⟩

/-- Consuming the proof keeps the arrays' canonical form. -/
theorem consumeProof_memory {s : State} (h : Memory.wf s) : Memory.wf s.consumeProof :=
  ⟨⟨Bank.nil_wf _, by simp [Bank.below]⟩, ⟨Bank.nil_wf _, by simp [Bank.below]⟩, h.2.2⟩

/-- A header push keeps the arrays' canonical form (R181). -/
theorem pushHeader_memory {s : State} (b : Byte) (h : Memory.wf s) : Memory.wf (s.pushHeader b) := by
  unfold State.pushHeader
  split <;> rename_i hlt
  · exact ⟨h.1, h.2.1, ⟨Bank.put_wf _ b h.2.2.1.1 (by simp), Bank.put_below b h.2.2.1.2 hlt⟩, h.2.2.2⟩
  · exact h

/-- A scan step within the proof keeps the arrays' canonical form (R162). -/
theorem scanEdge_memory {s : State} (e : Word) (h : Memory.wf s) (hn : s.n < s.cfg.proofSize) :
    Memory.wf (s.scanEdge e) := by
  refine ⟨h.1, h.2.1, h.2.2.1, Bank.put_wf _ _ (Bank.put_wf _ _ h.2.2.2.1 (by simp)) (by simp), ?_⟩
  exact Bank.put_below _ (Bank.put_below _ h.2.2.2.2 (by simp; omega)) (by simp; omega)

/-- Reset leaves the arrays in canonical form (R43). -/
theorem resetOf_memory (c : Config) : Memory.wf (State.resetOf c) :=
  ⟨⟨Bank.nil_wf _, by simp [Bank.below, State.resetOf]⟩, ⟨Bank.nil_wf _, by simp [Bank.below, State.resetOf]⟩,
    ⟨Bank.nil_wf _, by simp [Bank.below, State.resetOf]⟩, ⟨Bank.nil_wf _, by simp [Bank.below, State.resetOf]⟩⟩

end Sys2Proof.Machine
end

