-- ==== Sys2Proof/Laws/Ops.lean ====
section
/-! SUPPORT. What each shared operation can do, said once: if it answers a next state, that state is one of these. -/

namespace Sys2Proof.Machine

/-! ### Small facts of the shared operations -/

@[simp] theorem andThen_next (s : State) (f : State → State) : andThen (.next s) f = .next (f s) := rfl

@[simp] theorem refuse_next (e : Err) (s : State) : refuse e s = .next (s.raise e) := rfl

@[simp] theorem complete_next (v : Verdict) (s : State) : complete v s = .next (s.complete v) := rfl

/-- An event followed by `f` answers a next state exactly when the event does. -/
theorem andThen_eq_next {o : Result} {f : State → State} {t : State} :
    andThen o f = .next t ↔ ∃ s, o = .next s ∧ t = f s := by
  cases o <;> simp [andThen, eq_comm]

theorem busy_iff (s : State) : s.busy = true ↔ s.phase ≠ .idle := by simp [State.busy]

theorem not_busy_iff (s : State) : s.busy = false ↔ s.phase = .idle := by simp [State.busy]

@[simp] theorem State.raise_busy (s : State) (e : Err) : (s.raise e).busy = s.busy := rfl

@[simp] theorem State.finish_busy (s : State) : s.finish.busy = false := rfl

@[simp] theorem State.resetBlock_busy (s : State) : s.resetBlock.busy = false := rfl

@[simp] theorem State.record_busy (s : State) (v : Word) : (s.record v).busy = s.busy := rfl

@[simp] theorem State.moveOn_busy (s : State) (who : Agent) (b : Bool) (t : State) :
    (s.moveOn who b t).busy = t.busy := rfl

/-- What `complete(V)` writes, field by field (R163). -/
theorem complete_eq (s : State) (v : Verdict) :
    s.complete v =
      { s with
        verdictCode := v.code, verdictValid := true, proof := [], proofv := [], done := true, phase := .idle
        hdrCount := if s.opc = Instr.opcode .verifyHeader then 0 else s.hdrCount
        hdrOvf := if s.opc = Instr.opcode .verifyHeader then false else s.hdrOvf
        hdrLen := if s.opc = Instr.opcode .verifyHeader then 0 else s.hdrLen } := by
  unfold State.complete
  by_cases h : s.opc = Instr.opcode .verifyHeader <;>
    simp [h, State.setVerdict, State.consumeProof, State.consumeHeader, State.finish]

/-- What acceptance writes, field by field (R83). -/
theorem accept_eq (s : State) (i : Instr) (p : Phase) :
    s.accept i p =
      { s with
        done := false, nodeValid := false, node := 0, verdictValid := false, verdictCode := 0
        opc := i.opcode, opside := i.sideBit, phase := p } := rfl

/-! ### The `CMD` write -/

/-- The state an accepted command leaves (R83, R162, R176). -/
def State.accepted (s : State) : Instr → State
  | .nop => s
  | .deriveKey => s.accept .deriveKey .hash
  | .sipnode side => s.accept (.sipnode side) .node
  | .sipnodeTagged side => s.accept (.sipnodeTagged side) .node
  | .verify => (s.accept .verify .scan).clearScan
  | .verifyHeader => (s.accept .verifyHeader .hdrchk).clearScan.rememberKey
  | .clear => s.consumeProof.consumeHeader.clearResults

/-- The operand condition of an operation (R87). -/
def State.operandsReady (s : State) : Instr → Bool
  | .nop => true
  | .deriveKey => s.headerReady
  | .sipnode _ => s.edgeReady
  | .sipnodeTagged _ => s.edgeReady
  | .verify => s.proofReady
  | .verifyHeader => s.proofFull
  | .clear => true

/-- The refusal of an operation whose operand condition fails (R87). -/
def operandErr : Instr → Err
  | .deriveKey => .hdr
  | .nop => .operand
  | .sipnode _ => .operand
  | .sipnodeTagged _ => .operand
  | .verify => .operand
  | .verifyHeader => .operand
  | .clear => .operand

/-- Everything a `CMD` write of a legal word does (R83): refused while busy, refused for its operands, or accepted. -/
theorem exec_eq (i : Instr) (s : State) :
    exec i s =
      if s.busy then .next (s.raise .busy)
      else if s.operandsReady i then .next (s.accepted i)
      else .next (s.raise (operandErr i)) := by
  cases i <;> rfl

/-- What a `CMD` write can leave: one flag raised, or the accepted command's state. -/
theorem exec_cases {i : Instr} {s t : State} (h : exec i s = .next t) :
    (∃ e, t = s.raise e) ∨ (s.busy = false ∧ s.operandsReady i = true ∧ t = s.accepted i) := by
  rw [exec_eq] at h
  split at h
  · exact .inl ⟨.busy, by simpa using h.symm⟩
  · split at h
    · exact .inr ⟨by simpa using ‹¬s.busy = true›, ‹_›, by simpa using h.symm⟩
    · exact .inl ⟨operandErr i, by simpa using h.symm⟩

/-- While busy a `CMD` write of any word raises `ERR_BUSY` and does nothing else (R83, R204). -/
theorem writeCmd_busy {w : Word} {s : State} (h : s.busy = true) : writeCmd w s = .next (s.raise .busy) := by
  unfold writeCmd
  split
  · rw [exec_eq, if_pos h]
  · simp [h]

/-! ### The register port -/

/-- Everything a register write can leave (R206): one flag raised, a stored value while idle, or an accepted command
while idle. -/
theorem regWrite_cases {a : RegNum} {v : Word} {s t : State} (h : regWrite a v s = .next t) :
    (∃ e, t = s.raise e) ∨
      (s.busy = false ∧ ∃ r, Reg.ofNumber s.cfg a = some r ∧ r ≠ .cmd ∧ r.writable = true ∧ t = s.store r v) ∨
      (s.busy = false ∧ ∃ i, Reg.ofNumber s.cfg a = some .cmd ∧ decode v = some i ∧ s.operandsReady i = true ∧
        t = s.accepted i) := by
  unfold regWrite at h
  split at h
  · exact .inl ⟨.addr, by simpa using h.symm⟩
  · next hr =>
    unfold writeCmd at h
    split at h
    · next i hd =>
      rcases exec_cases h with h | ⟨hb, ho, ht⟩
      · exact .inl h
      · exact .inr (.inr ⟨hb, i, hr, hd, ho, ht⟩)
    · split at h
      · exact .inl ⟨.busy, by simpa using h.symm⟩
      · exact .inl ⟨.cmd, by simpa using h.symm⟩
  · next r hne hr =>
    split at h
    · split at h
      · exact .inl ⟨.busy, by simpa using h.symm⟩
      · refine .inr (.inl ⟨by simpa using ‹¬s.busy = true›, r, hr, ?_, ‹_›, by simpa using h.symm⟩)
        rintro rfl
        exact hne rfl
    · exact .inl ⟨.addr, by simpa using h.symm⟩

/-- Everything a register read can leave (R65, R67): the value recorded, and `ERR_ADDR` for an unmapped number. -/
theorem regRead_cases (a : RegNum) (s : State) :
    (Reg.ofNumber s.cfg a = none ∧ regRead a s = (s.raise .addr).record 0) ∨
      (∃ r, Reg.ofNumber s.cfg a = some r ∧ regRead a s = s.record (s.view r)) := by
  unfold regRead regValue
  cases h : Reg.ofNumber s.cfg a with
  | none => exact .inl ⟨rfl, rfl⟩
  | some r => exact .inr ⟨r, rfl, rfl⟩

/-- Everything a host action can leave. -/
theorem hostEvent_cases {x : HostAction} {s t : State} (h : hostEvent x s = .next t) :
    (∃ a v, x = .wr a v ∧ regWrite a v s = .next t) ∨
      (x.resets = false ∧ ∃ a, t = regRead a s) ∨
      (x.resets = true ∧ (t = s.resetBlock ∨ ∃ v, t = s.resetBlock.record v)) := by
  cases x with
  | wr a v => exact .inl ⟨a, v, rfl, h⟩
  | rd a => exact .inr (.inl ⟨rfl, a, by simpa [hostEvent] using h.symm⟩)
  | wait => exact .inr (.inl ⟨rfl, Reg.number .status, by simpa [hostEvent] using h.symm⟩)
  | reset => exact .inr (.inr ⟨rfl, .inl (by simpa [hostEvent] using h.symm)⟩)
  | resetWr a v => exact .inr (.inr ⟨rfl, .inl (by simpa [hostEvent] using h.symm)⟩)
  | resetRd a => exact .inr (.inr ⟨rfl, .inr ⟨_, by simpa [hostEvent] using h.symm⟩⟩)

/-! ### The sequencer -/

/-- Everything a sequencer step can leave, phase by phase (R113, R133, R162, R176). -/
theorem seqStep_cases {s t : State} (h : seqStep s = .next t) :
    (s.phase = .idle ∧ t = s) ∨
    (s.phase = .hdrchk ∧ s.lenOk = true ∧ t = { s with phase := .hash }) ∨
    (s.phase = .hdrchk ∧ s.lenOk = false ∧ t = s.complete .headerLength) ∨
    (s.phase = .hash ∧ s.opc = Instr.opcode .deriveKey ∧ t = s.finishDeriveKey) ∨
    (s.phase = .hash ∧ s.opc = Instr.opcode .verifyHeader ∧ t = s.keyForScan) ∨
    (s.phase = .node ∧ s.opc = Instr.opcode (.sipnode 0) ∧ t = s.finishSipnode) ∨
    (s.phase = .node ∧ s.opc = Instr.opcode (.sipnodeTagged 0) ∧ t = s.finishSipnodeTagged) ∨
    (s.phase = .scan ∧ ∃ v, t = s.complete v) ∨
    (s.phase = .scan ∧ ¬ s.proofAt s.n > Config.edgeMask s.cfg ∧ ¬ (s.n > 0 ∧ s.proofAt s.n ≤ s.prev) ∧
      t = s.scanEdge (s.proofAt s.n)) ∨
    (s.phase = .xorchk ∧ t = s.complete .nonMatching) ∨
    (s.phase = .xorchk ∧ s.xor0 = 0 ∧ s.xor1 = 0 ∧ t = { s with i := 0, steps := 0, phase := .walk }) ∨
    (s.phase = .walk ∧ ∃ v, t = s.complete v) ∨
    (s.phase = .walk ∧ ∃ k, findMatch s.cfg.proofSize s.uvsAt s.i = (1, k) ∧
      ((∃ v, t = State.complete { s with i := k ^^^ 1, steps := s.steps + 1 } v) ∨
        (k ^^^ 1 ≠ 0 ∧ s.steps + 1 ≠ s.cfg.proofSize + 1 ∧ t = { s with i := k ^^^ 1, steps := s.steps + 1 }))) := by
  unfold seqStep at h
  split at h <;> rename_i hp
  · exact .inl ⟨hp, by simpa using h.symm⟩
  · simp only [stepHdrchk] at h
    split at h <;> rename_i hl
    · exact .inr (.inl ⟨hp, hl, by simpa using h.symm⟩)
    · exact .inr (.inr (.inl ⟨hp, by simpa using hl, by simpa using h.symm⟩))
  · simp only [stepHash] at h
    split at h <;> rename_i ho
    · exact .inr (.inr (.inr (.inl ⟨hp, ho, by simpa using h.symm⟩)))
    · split at h <;> rename_i ho'
      · exact .inr (.inr (.inr (.inr (.inl ⟨hp, ho', by simpa using h.symm⟩))))
      · cases h
  · simp only [stepNode] at h
    split at h <;> rename_i ho
    · exact .inr (.inr (.inr (.inr (.inr (.inl ⟨hp, ho, by simpa using h.symm⟩)))))
    · split at h <;> rename_i ho'
      · exact .inr (.inr (.inr (.inr (.inr (.inr (.inl ⟨hp, ho', by simpa using h.symm⟩))))))
      · cases h
  · simp only [stepScan] at h
    iterate 7 apply Or.inr
    split at h <;> rename_i h1
    · exact .inl ⟨hp, _, by simpa using h.symm⟩
    · split at h <;> rename_i h2
      · exact .inl ⟨hp, _, by simpa using h.symm⟩
      · exact .inr (.inl ⟨hp, h1, h2, by simpa using h.symm⟩)
  · simp only [stepXorchk] at h
    iterate 9 apply Or.inr
    split at h <;> rename_i h1
    · exact .inl ⟨hp, by simpa using h.symm⟩
    · rw [not_or, not_not, not_not] at h1
      exact .inr (.inl ⟨hp, h1.1, h1.2, by simpa using h.symm⟩)
  · simp only [stepWalk] at h
    iterate 11 apply Or.inr
    split at h <;> rename_i h1
    · exact .inl ⟨hp, _, by simpa using h.symm⟩
    · split at h <;> rename_i h2
      · exact .inl ⟨hp, _, by simpa using h.symm⟩
      · refine .inr ⟨hp, (findMatch s.cfg.proofSize s.uvsAt s.i).2, Prod.ext (by omega) rfl, ?_⟩
        split at h <;> rename_i h3
        · exact .inl ⟨_, by simpa using h.symm⟩
        · split at h <;> rename_i h4
          · exact .inl ⟨_, by simpa using h.symm⟩
          · exact .inr ⟨h3, h4, by simpa using h.symm⟩

/-! ### One step of the machine -/

/-- Everything that says who brings about the next event (R242, R243). -/
theorem mover_cases (s : State) :
    (s.mover = none ∧ s.program = [] ∧ s.busy = false ∧ s.resetAfter = []) ∨
    (s.mover = some .reset ∧ s.resetNow = true ∧ s.resetAfter ≠ []) ∨
    (s.mover = some .sequencer ∧ s.resetNow = false ∧ s.busy = true ∧ (s.program = [] ∨ s.lead = 0)) ∨
    (s.mover = some .host ∧ s.resetNow = false ∧ s.program ≠ [] ∧ (s.busy = false ∨ s.lead ≠ 0)) := by
  unfold State.mover
  split <;> rename_i hr
  · refine .inr (.inl ⟨rfl, hr, fun h => ?_⟩)
    simp [State.resetNow, h] at hr
  · have hr : s.resetNow = false := by simpa using hr
    split <;> rename_i hp hb
    · refine .inl ⟨rfl, hp, hb, ?_⟩
      cases h : s.resetAfter with
      | nil => rfl
      | cons n rest => simp [State.resetNow, h, hp, hb] at hr
    · exact .inr (.inr (.inl ⟨rfl, hr, hb, .inl hp⟩))
    · exact .inr (.inr (.inr ⟨rfl, hr, by simp [hp], .inl hb⟩))
    · split <;> rename_i hl
      · exact .inr (.inr (.inl ⟨rfl, hr, hb, .inr hl⟩))
      · exact .inr (.inr (.inr ⟨rfl, hr, by simp [hp], .inr hl⟩))

/-- Everything a step can leave (R242, R243): nothing changed at the end of a run, a reset, a sequencer step, or a host
event. -/
theorem step_cases {s t : State} (h : step s = .next t) :
    (s.mover = none ∧ t = s) ∨
    (s.mover = some .reset ∧ t = s.moveOn .reset false s.resetBlock) ∨
    (s.mover = some .sequencer ∧ ∃ u, seqStep s = .next u ∧ t = s.moveOn .sequencer false u) ∨
    (s.mover = some .host ∧ ∃ x rest u, s.program = x :: rest ∧ hostEvent x s = .next u ∧
      t = s.moveOn .host (x.doneAfter s) u) := by
  unfold step at h
  split at h
  · unfold agentEvent at h
    split at h <;> rename_i hm
    · exact .inl ⟨hm, by simpa using h.symm⟩
    · exact .inr (.inl ⟨hm, by simpa using h.symm⟩)
    · obtain ⟨u, hu, rfl⟩ := andThen_eq_next.mp h
      exact .inr (.inr (.inl ⟨hm, u, hu, rfl⟩))
    · split at h <;> rename_i hprog
      · rcases mover_cases s with ⟨h1, _⟩ | ⟨h1, _⟩ | ⟨h1, _⟩ | ⟨_, _, h2, _⟩ <;> simp_all
      · obtain ⟨u, hu, rfl⟩ := andThen_eq_next.mp h
        exact .inr (.inr (.inr ⟨hm, _, _, u, hprog, hu, rfl⟩))
  · cases h

/-- Steps happen only in instances: a next state means a valid configuration (R225). -/
theorem step_config {s t : State} (h : step s = .next t) : s.cfg.wellFormed = true := by
  unfold step at h
  split at h
  · assumption
  · cases h

/-- The sequencer moves only while the block is busy (R242 b). -/
theorem mover_sequencer_busy {s : State} (h : s.mover = some .sequencer) : s.busy = true := by
  rcases mover_cases s with h1 | h1 | h1 | h1 <;> simp_all

/-- A host event ahead of an enabled sequencer step costs the host one of its lead, so there are only so many in a row
(R240). -/
theorem moveOn_host_lead {s : State} (hm : s.mover = some .host) (hb : s.busy = true) (b : Bool) (t : State) :
    (s.moveOn .host b t).lead + 1 = s.lead := by
  rcases mover_cases s with h1 | h1 | h1 | ⟨_, _, _, h2⟩
  · simp_all
  · simp_all
  · simp_all
  · have : s.lead ≠ 0 := by simpa [hb] using h2
    show (if s.busy then s.lead - 1 else _) + 1 = s.lead
    rw [if_pos hb]
    omega

/-- A host event leaves the host's program and the resets to come to the bookkeeping. -/
theorem hostEvent_inputs {x : HostAction} {s t : State} (h : hostEvent x s = .next t) :
    t.program = s.program ∧ t.resetAfter = s.resetAfter := by
  rcases hostEvent_cases h with ⟨a, v, rfl, hw⟩ | ⟨_, a, rfl⟩ | ⟨_, hr⟩
  · rcases regWrite_cases hw with ⟨e, rfl⟩ | ⟨_, r, _, _, _, rfl⟩ | ⟨_, i, _, _, _, rfl⟩
    · exact ⟨rfl, rfl⟩
    · cases r <;> simp [State.store]
      unfold State.pushHeader
      split <;> exact ⟨rfl, rfl⟩
    · cases i <;> exact ⟨rfl, rfl⟩
  · rcases regRead_cases a s with ⟨_, hr⟩ | ⟨_, _, hr⟩ <;> rw [hr] <;> exact ⟨rfl, rfl⟩
  · rcases hr with rfl | ⟨_, rfl⟩ <;> exact ⟨rfl, rfl⟩

/-- The first of several steps of the machine. -/
theorem run_succ {k : Nat} {s t : State} (h : step s = .next t) : run (k + 1) s = run k t := by
  have h : Sys2Proof.core.step s = .next t := h
  simp only [run, Host.Core.run, h]
  rfl

end Sys2Proof.Machine
end

