-- ==== Sys2Proof/Laws/Config.lean ====
section
/-! SUPPORT. Arithmetic of a valid configuration: `EDGEMASK`, the range of an endpoint, and that a `W`-bit register
drops no bit of what is stored in it (`00_scope.md` R10). -/

namespace Sys2Proof.Machine

theorem wellFormed_edgeBits {c : Config} (hc : c.wellFormed = true) : 1 ≤ c.edgeBits ∧ c.edgeBits ≤ 63 := by
  simp [Config.wellFormed, Config.edgeBitsOk] at hc; omega

theorem wellFormed_proofSize {c : Config} (hc : c.wellFormed = true) :
    c.proofSize % 2 = 0 ∧ 12 ≤ c.proofSize ∧ c.proofSize ≤ 4096 := by
  simp [Config.wellFormed, Config.proofSizeOk] at hc; omega

theorem edgeMask_toNat {c : Config} (hc : c.wellFormed = true) : (Config.edgeMask c).toNat = 2 ^ c.edgeBits - 1 := by
  have h2 : 2 ^ c.edgeBits ≤ 2 ^ 63 := Nat.pow_le_pow_right (by decide) (wellFormed_edgeBits hc).2
  have h3 : 0 < 2 ^ c.edgeBits := Nat.pow_pos (by decide)
  simp only [Config.edgeMask, Config.nedges, BitVec.toNat_ofNat]
  omega

/-- An endpoint is below `NEDGES` (R107, R108). -/
theorem sipnode_lt {c : Config} (hc : c.wellFormed = true) (k : Key) (e : Word) (side : BitVec 1) :
    (sipnode c k e side).toNat < 2 ^ c.edgeBits := by
  have h3 : 0 < 2 ^ c.edgeBits := Nat.pow_pos (by decide)
  simp only [sipnode, BitVec.toNat_and]
  rw [edgeMask_toNat hc, Nat.and_two_pow_sub_one_eq_mod]
  exact Nat.mod_lt _ h3

theorem edgeBits_le_width {c : Config} (hc : c.wellFormed = true) : 2 ^ c.edgeBits ≤ 2 ^ Config.width c := by
  have := (wellFormed_edgeBits hc).2
  apply Nat.pow_le_pow_right (by decide)
  unfold Config.width
  split <;> omega

theorem toW_lt (c : Config) (v : Word) : (Config.toW c v).toNat < 2 ^ Config.width c := by
  have h3 : 0 < 2 ^ Config.width c := Nat.pow_pos (by decide)
  simp only [Config.toW, BitVec.toNat_ofNat]
  exact Nat.lt_of_le_of_lt (Nat.mod_le _ _) (Nat.mod_lt _ h3)

theorem toW_of_lt {c : Config} {v : Word} (h : v.toNat < 2 ^ Config.width c) : Config.toW c v = v := by
  simp [Config.toW, Nat.mod_eq_of_lt h]

/-- Storing an endpoint in a `W`-bit register drops no bit (R10, R37, R39). -/
theorem toW_sipnode {c : Config} (hc : c.wellFormed = true) (k : Key) (e : Word) (side : BitVec 1) :
    Config.toW c (sipnode c k e side) = sipnode c k e side :=
  toW_of_lt (Nat.lt_of_lt_of_le (sipnode_lt hc k e side) (edgeBits_le_width hc))

/-- Storing an edge that passed the bound check in a `W`-bit register drops no bit (R10, R38). -/
theorem toW_edge {c : Config} (hc : c.wellFormed = true) {e : Word} (h : e ≤ Config.edgeMask c) :
    Config.toW c e = e := by
  apply toW_of_lt
  have h1 := edgeMask_toNat hc
  have h2 := edgeBits_le_width hc
  have h3 : 0 < 2 ^ c.edgeBits := Nat.pow_pos (by decide)
  have := BitVec.le_def.mp h
  omega

/-- A mapped proof register lies inside the proof (R66). -/
theorem ofNumber_proof_lt {c : Config} {a : RegNum} {n : Nat} (h : Reg.ofNumber c a = some (.proof n)) :
    n < c.proofSize := by
  unfold Reg.ofNumber at h
  split at h <;> simp_all
  omega

end Sys2Proof.Machine
end

