-- ==== Sys2Proof/Laws/Invariant.lean ====
section
/-! SUPPORT. Which updates of the state keep the invariant: the model's bookkeeping, refusals, completions, stores,
acceptance and a scan step. -/

namespace Sys2Proof.Machine

/-- The invariant does not look at the `ERR` flags, the host's side or the model's counters. -/
theorem inv_bookkeeping {s : State} (h : Inv s) (a b c d e pr rd le ra ti) :
    Inv { s with
      errCmd := a, errBusy := b, errOperand := c, errHdr := d, errAddr := e, program := pr, reads := rd, lead := le
      resetAfter := ra, tick := ti } :=
  ⟨h.config, h.memory, h.hdrWithin, h.hdrWritten, h.overflowFull, h.proofHeld, h.nodeHeld, h.verdictHeld, h.busyQuiet,
   h.scanRange, h.walkRange, h.stepRange, h.xorWidth, h.prevWidth, h.uvsWidth, by
    have hp := h.phase
    unfold PhaseInv at hp ⊢
    cases hph : s.phase <;> simp only [hph] at hp ⊢
    all_goals first
      | exact hp
      | exact ⟨⟨hp.1.1, hp.1.2, hp.1.3, hp.1.4⟩, hp.2.1, ⟨hp.2.2.1, hp.2.2.2, hp.2.2.3, hp.2.2.4, hp.2.2.5,
          hp.2.2.6, hp.2.2.7⟩⟩
      | exact ⟨⟨hp.1.1, hp.1.2, hp.1.3, hp.1.4⟩, hp.2.1, ⟨hp.2.2.1.1, hp.2.2.1.2, hp.2.2.1.3, hp.2.2.1.4,
          hp.2.2.1.5, hp.2.2.1.6, hp.2.2.1.7⟩, hp.2.2.2⟩⟩

/-- A refusal, a recorded read and the bookkeeping after an event keep the invariant. -/
theorem raise_inv {s : State} (h : Inv s) (e) : Inv (s.raise e) :=
  inv_bookkeeping h _ _ _ _ _ _ _ _ _ _
theorem record_inv {s : State} (h : Inv s) (v) : Inv (s.record v) :=
  inv_bookkeeping h _ _ _ _ _ _ _ _ _ _
theorem moveOn_inv {t : State} (h : Inv t) (s who b) : Inv (State.moveOn s who b t) :=
  inv_bookkeeping h _ _ _ _ _ _ _ _ _ _

theorem width_pos (c : Config) : 0 < 2 ^ Config.width c := Nat.pow_pos (by decide)

/-- An idle state meets the invariant when its registers do. -/
theorem idle_inv {s : State} (hid : s.phase = .idle) (config : s.cfg.wellFormed = true)
  (memory : Memory.wf s)
  (hdrWithin : s.hdrCount ≤ s.cfg.hdrMax)
  (hdrWritten : ∀ b < s.hdrCount, (Bank.get? s.hdr b).isSome = true)
  (overflowFull : s.hdrOvf = true → s.hdrCount = s.cfg.hdrMax)
  (proofHeld : ∀ n, s.proofvAt n = false → s.proofAt n = 0)
  (nodeHeld : s.nodeValid = false → s.node = 0)
  (verdictHeld : s.verdictValid = false → s.verdictCode = 0)
  (scanRange : s.n ≤ s.cfg.proofSize)
  (walkRange : s.i < 2 * s.cfg.proofSize)
  (stepRange : s.steps ≤ s.cfg.proofSize + 1)
  (xorWidth : s.xor0.toNat < 2 ^ Config.width s.cfg ∧ s.xor1.toNat < 2 ^ Config.width s.cfg)
  (prevWidth : s.prev.toNat < 2 ^ Config.width s.cfg)
  (uvsWidth : ∀ e ∈ s.uvs, e.2.toNat < 2 ^ Config.width s.cfg) : Inv s :=
  ⟨config, memory, hdrWithin, hdrWritten, overflowFull, proofHeld, nodeHeld, verdictHeld, by simp [State.busy,
      hid], scanRange, walkRange,
    stepRange, xorWidth, prevWidth, uvsWidth, by simp [PhaseInv, hid]⟩

/-- A header push on an idle block keeps the invariant (R181). -/
theorem pushHeader_inv {s : State} (h : Inv s) (hid : s.phase = .idle) (b : Byte) : Inv (s.pushHeader b) := by
  have hm := pushHeader_memory b h.memory
  unfold State.pushHeader at hm ⊢
  split <;> rename_i hlt
  · simp only [hlt, if_true] at hm
    refine idle_inv hid h.config hm ?_ ?_ ?_ h.proofHeld h.nodeHeld h.verdictHeld h.scanRange h.walkRange
        h.stepRange h.xorWidth h.prevWidth h.uvsWidth
    · simp; omega
    · intro k hk
      simp only [Bank.get?_put] at hk ⊢
      split
      · rfl
      · exact h.hdrWritten k (by omega)
    · intro ho
      have := h.overflowFull ho
      omega
  · exact idle_inv hid h.config h.memory h.hdrWithin h.hdrWritten (fun _ => by have := h.hdrWithin; simp; omega)
      h.proofHeld h.nodeHeld h.verdictHeld h.scanRange h.walkRange h.stepRange h.xorWidth h.prevWidth h.uvsWidth

/-- A stored register write on an idle block keeps the invariant (R180). -/
theorem store_inv {s : State} {a r} (h : Inv s) (hid : s.phase = .idle) (v : Word) (hr : Reg.ofNumber s.cfg a =
    some r) : Inv (s.store r v) := by
  cases r
  case hdrPush => exact pushHeader_inv h hid _
  case proof n =>
    have hn := ofNumber_proof_lt hr
    refine idle_inv hid h.config (writeProof_memory v h.memory hn) h.hdrWithin h.hdrWritten h.overflowFull ?_
        h.nodeHeld h.verdictHeld h.scanRange h.walkRange h.stepRange h.xorWidth h.prevWidth h.uvsWidth
    intro k hk
    simp only [State.store, State.writeProof_proofvAt, State.writeProof_proofAt] at hk ⊢
    by_cases hnk : n = k
    · simp [hnk] at hk
    · simp [hnk] at hk ⊢
      exact h.proofHeld k hk
  all_goals
    exact idle_inv hid h.config h.memory h.hdrWithin h.hdrWritten h.overflowFull h.proofHeld h.nodeHeld h.verdictHeld
      h.scanRange h.walkRange h.stepRange h.xorWidth h.prevWidth h.uvsWidth

theorem inv_proofSize_pos {s : State} (h : Inv s) : 0 < s.cfg.proofSize := by have := h.walkRange; omega

/-- Accepting a command on an idle block keeps the invariant (R83). -/
theorem accepted_inv {s : State} (h : Inv s) (hid : s.phase = .idle) (i : Instr) (ho : s.operandsReady i = true) :
    Inv (s.accepted i) := by
  cases i
  case nop => exact h
  case clear =>
    exact idle_inv hid h.config (show Memory.wf s.consumeProof from consumeProof_memory h.memory) (Nat.zero_le _)
        (by simp [State.accepted]) (by simp [State.accepted]) (by simp [State.accepted,
        State.clearResults,State.proofAt, State.consumeHeader,
        State.consumeProof]) (by simp [State.accepted]) (by simp [State.accepted]) h.scanRange h.walkRange
        h.stepRange h.xorWidth h.prevWidth h.uvsWidth
  case deriveKey =>
    exact ⟨h.config, h.memory, h.hdrWithin, h.hdrWritten, h.overflowFull, h.proofHeld, fun _ => rfl, fun _ => rfl,
        fun _ => ⟨rfl, rfl, rfl⟩, h.scanRange, h.walkRange, h.stepRange, h.xorWidth, h.prevWidth, h.uvsWidth,
        .inl ⟨rfl, ho⟩⟩
  case sipnode =>
    exact ⟨h.config, h.memory, h.hdrWithin, h.hdrWritten, h.overflowFull, h.proofHeld, fun _ => rfl, fun _ => rfl,
        fun _ => ⟨rfl, rfl, rfl⟩, h.scanRange, h.walkRange, h.stepRange, h.xorWidth, h.prevWidth, h.uvsWidth,
        .inl rfl, ho⟩
  case sipnodeTagged =>
    exact ⟨h.config, h.memory, h.hdrWithin, h.hdrWritten, h.overflowFull, h.proofHeld, fun _ => rfl, fun _ => rfl,
        fun _ => ⟨rfl, rfl, rfl⟩, h.scanRange, h.walkRange, h.stepRange, h.xorWidth, h.prevWidth, h.uvsWidth,
        .inr rfl, ho⟩
  case verify =>
    have ho : s.keyValid = true ∧ s.proofFull = true := by simpa [State.operandsReady, State.proofReady] using ho
    refine ⟨h.config, h.memory, h.hdrWithin, h.hdrWritten, h.overflowFull, h.proofHeld, fun _ => rfl, fun _ => rfl,
        fun _ => ⟨rfl, rfl, rfl⟩, Nat.zero_le _, ?_, Nat.zero_le _, ⟨width_pos _, width_pos _⟩, width_pos _,
        h.uvsWidth, ⟨.inl rfl, ho.1, ho.2, fun hx => by simp [State.accepted, State.accept, Instr.opcode] at hx⟩,
        ?_, ⟨?_, ?_, ?_, ?_, rfl, rfl, ?_⟩⟩
    · show 0 < 2 * s.cfg.proofSize; have := inv_proofSize_pos h; omega
    · show 0 < s.cfg.proofSize; exact inv_proofSize_pos h
    all_goals simp [State.accepted]
  case verifyHeader =>
    refine ⟨h.config, h.memory, h.hdrWithin, h.hdrWritten, h.overflowFull, h.proofHeld, fun _ => rfl, fun _ => rfl,
        fun _ => ⟨rfl, rfl, rfl⟩, Nat.zero_le _, ?_, Nat.zero_le _, ⟨width_pos _, width_pos _⟩, width_pos _,
        h.uvsWidth, rfl, ho, rfl, rfl, rfl, rfl, rfl⟩
    show 0 < 2 * s.cfg.proofSize; have := inv_proofSize_pos h; omega

/-- A completion keeps the invariant (R163). -/
theorem complete_inv {s : State} (h : Inv s) (v) : Inv (s.complete v) := by
  rw [complete_eq]
  refine idle_inv rfl h.config (consumeProof_memory h.memory) ?_ ?_ ?_ (fun _ _ => rfl) ?_ ?_ h.scanRange
      h.walkRange h.stepRange h.xorWidth h.prevWidth h.uvsWidth
  · have := h.hdrWithin
    simp; split <;> omega
  · intro b hb
    apply h.hdrWritten b
    simp at hb; split at hb <;> omega
  · intro ho
    simp at ho ⊢
    split <;> simp_all [h.overflowFull]
  · exact h.nodeHeld
  · simp

/-- A scan step that takes its edge keeps the invariant (R162). -/
theorem scanEdge_inv {s : State} (h : Inv s) (hp : s.phase = .scan) (h1 : ¬ s.proofAt s.n > Config.edgeMask s.cfg)
    (h2 : ¬ (s.n > 0 ∧ s.proofAt s.n ≤ s.prev)) :
    Inv (s.scanEdge (s.proofAt s.n)) := by
  have hph := h.phase
  unfold PhaseInv at hph
  simp only [hp] at hph
  obtain ⟨hv, hn, hs⟩ := hph
  have hc := h.config
  have hle : s.proofAt s.n ≤ Config.edgeMask s.cfg := BitVec.not_lt.mp h1
  have hq := h.busyQuiet (by simp [State.busy, hp])
  have hscan : Scanned (s.scanEdge (s.proofAt s.n)) := by
    refine ⟨?_, ?_, ?_, ?_, ?_, ?_, ?_⟩
    · intro k hk
      rcases Nat.lt_or_eq_of_le (Nat.le_of_lt_succ hk) with hk | rfl
      · exact hs.inRange k hk
      · exact hle
    · intro k hk
      rcases Nat.lt_or_eq_of_le (Nat.le_of_lt_succ hk) with hk | hk
      · exact hs.ascending k hk
      · have h3 : ¬ s.proofAt s.n ≤ s.prev := fun hx => h2 ⟨by omega, hx⟩
        rw [hs.last k hk.symm] at h3
        show s.proofAt k < s.proofAt (k + 1)
        rw [hk]; exact BitVec.not_le.mp h3
    · intro k hk
      show Bank.get? (Bank.put (Bank.put s.uvs _ _) _ _) (2 * k) = some (sipnode s.cfg s.key (s.proofAt k) 0)
      simp only [Bank.get?_put]
      rcases Nat.lt_or_eq_of_le (Nat.le_of_lt_succ hk) with hk | rfl
      · rw [if_neg (by omega), if_neg (by omega)]; exact hs.uSide k hk
      · rw [if_neg (by omega), if_pos rfl, toW_sipnode hc]
    · intro k hk
      show Bank.get? (Bank.put (Bank.put s.uvs _ _) _ _) (2 * k + 1) = some (sipnode s.cfg s.key (s.proofAt k) 1)
      simp only [Bank.get?_put]
      rcases Nat.lt_or_eq_of_le (Nat.le_of_lt_succ hk) with hk | rfl
      · rw [if_neg (by omega), if_neg (by omega)]; exact hs.vSide k hk
      · rw [if_pos rfl, toW_sipnode hc]
    · show s.xor0 ^^^ _ = sideXor s.cfg s.key s.proofAt 0 (s.n + 1)
      rw [toW_sipnode hc, hs.xorU]; simp [sideXor, List.range_succ]
    · show s.xor1 ^^^ _ = sideXor s.cfg s.key s.proofAt 1 (s.n + 1)
      rw [toW_sipnode hc, hs.xorV]; simp [sideXor, List.range_succ]
    · intro k hk
      have : s.n = k := Nat.succ.inj hk
      subst this
      exact toW_edge hc hle
  refine ⟨hc, scanEdge_memory _ h.memory hn, h.hdrWithin, h.hdrWritten, h.overflowFull, h.proofHeld, h.nodeHeld,
      h.verdictHeld, fun _ => hq, hn, h.walkRange, h.stepRange, ⟨?_, ?_⟩, ?_, ?_, ?_⟩
  · show (s.xor0 ^^^ _).toNat < _
    rw [BitVec.toNat_xor]
    exact Nat.xor_lt_two_pow h.xorWidth.1 (toW_lt _ _)
  · show (s.xor1 ^^^ _).toNat < _
    rw [BitVec.toNat_xor]
    exact Nat.xor_lt_two_pow h.xorWidth.2 (toW_lt _ _)
  · exact toW_lt _ _
  · intro e he
    rcases Bank.mem_put he with rfl | he
    · exact toW_lt _ _
    · rcases Bank.mem_put he with rfl | he
      · exact toW_lt _ _
      · exact h.uvsWidth e he
  · unfold PhaseInv
    have hv' : Verifying (s.scanEdge (s.proofAt s.n)) := ⟨hv.1, hv.2, hv.3, hv.4⟩
    by_cases hN : s.n + 1 = s.cfg.proofSize
    · simp only [State.scanEdge_phase, hN, if_true]
      exact ⟨hv', hN, hscan⟩
    · simp only [State.scanEdge_phase, hN, if_false]
      exact ⟨hv', by show s.n + 1 < s.cfg.proofSize; omega, hscan⟩

end Sys2Proof.Machine
end

