-- ==== Sys2Proof/Laws/PerInstr.lean ====
section
/-! SUPPORT. One fact about every operation as syntax: its encoded word agrees with its row of the opcode table, and its
reserved bits are 0 (`30_encoding.md` R81, R84). -/

namespace Sys2Proof.Laws

/-- The encoded word of the operation matches its row under the row's mask, holds its opcode and its side bit, and has
bits `[63:9]` 0. -/
def EncodedWord.Statement (i : Instr) : Prop :=
  encode i &&& i.row.mask = i.row.pattern ∧ opcodeField (encode i) = i.opcode ∧
    sideField (encode i) = i.sideBit ∧ reservedField (encode i) = 0

theorem EncodedWord.nop : EncodedWord.Statement .nop := by unfold EncodedWord.Statement; decide

theorem EncodedWord.deriveKey : EncodedWord.Statement .deriveKey := by unfold EncodedWord.Statement; decide

theorem EncodedWord.sipnode (side : BitVec 1) : EncodedWord.Statement (.sipnode side) := by
  unfold EncodedWord.Statement; revert side; decide

theorem EncodedWord.sipnodeTagged (side : BitVec 1) : EncodedWord.Statement (.sipnodeTagged side) := by
  unfold EncodedWord.Statement; revert side; decide

theorem EncodedWord.verify : EncodedWord.Statement .verify := by unfold EncodedWord.Statement; decide

theorem EncodedWord.verifyHeader : EncodedWord.Statement .verifyHeader := by unfold EncodedWord.Statement; decide

theorem EncodedWord.clear : EncodedWord.Statement .clear := by unfold EncodedWord.Statement; decide

end Sys2Proof.Laws
end

