-- ==== Sys2Proof/Tests/Slice0.lean ====
section
/-! SUPPORT. The model's own tests: expected values from `95_test_vectors.md` and the rules, never from the model; and
for every statement with hypotheses a state and operands that meet them (`witness_…`). -/

namespace Sys2Proof.Tests

open Sys2Proof.Machine

/-! ### Helpers -/

/-- The instance of the vectors of `95_test_vectors.md` 5.2: `EDGEBITS = 8`, `PROOFSIZE = 12`. -/
def cfg8 : Config := { Config.default with edgeBits := 8, proofSize := 12 }

/-- The key of header "header-16" in default mode (`95_test_vectors.md` 5.2). -/
def key16 : Key := #v[0x24640e1eddb13417, 0x18751ded9c14f3d3, 0xa652cec546d479a8, 0x4276730e00adbd48]

/-- An array as a function of the index. -/
def arr (l : List Nat) (k : Nat) : Word := BitVec.ofNat 64 (l.getD k 0)

/-- A list as a sparse array, index 0 first. -/
def bank (l : List Nat) : Bank Word := (List.range l.length).map (fun k => (k, arr l k))

/-- The reset state of the small instance. -/
def s0 : State := State.resetOf cfg8

/-- An idle state of the small instance with a valid key and a full proof of zeros. -/
def ready : State :=
  { s0 with
    key := key16
    keyv := Vector.replicate 4 true
    proofv := (List.range 12).map (fun k => (k, true)) }

/-- A field of the next state, if there is one. -/
def nextField {α : Type} (o : Result) (f : State → α) : Option α :=
  match o with
  | .next t => some (f t)
  | .fault _ => none
  | .refused _ => none

/-! ### WellFormed: an ill-formed term for each check, which the check refuses (R9, R11) -/

theorem test_default_configuration_valid : Config.default.wellFormed = true := by decide
theorem test_small_configuration_valid : cfg8.wellFormed = true := by decide
theorem test_refuses_edgeBits_0 : ({ cfg8 with edgeBits := 0 } : Config).wellFormed = false := by decide
theorem test_refuses_edgeBits_64 : ({ cfg8 with edgeBits := 64 } : Config).wellFormed = false := by decide
theorem test_refuses_proofSize_odd : ({ cfg8 with proofSize := 13 } : Config).wellFormed = false := by decide
theorem test_refuses_proofSize_10 : ({ cfg8 with proofSize := 10 } : Config).wellFormed = false := by decide
theorem test_refuses_proofSize_4098 : ({ cfg8 with proofSize := 4098 } : Config).wellFormed = false := by decide
theorem test_refuses_hdrMax_0 : ({ cfg8 with hdrMax := 0 } : Config).wellFormed = false := by decide
theorem test_refuses_headerLen_over_hdrMax :
    ({ cfg8 with headerLen := some 257 } : Config).wellFormed = false := by decide

/-! ### Decoding: words written out bit by bit from R81 and R84 (bit 63 first: reserved, side, opcode) -/

theorem test_decode_nop : decode ((0b0 : BitVec 55) ++ (0b0 : BitVec 1) ++ (0b00000000 : BitVec 8)) = some .nop := by
  decide
theorem test_decode_deriveKey :
    decode ((0b0 : BitVec 55) ++ (0b0 : BitVec 1) ++ (0b00000001 : BitVec 8)) = some .deriveKey := by decide
theorem test_decode_sipnode_1 :
    decode ((0b0 : BitVec 55) ++ (0b1 : BitVec 1) ++ (0b00000010 : BitVec 8)) = some (.sipnode 1) := by decide
theorem test_decode_sipnodeTagged_1 :
    decode ((0b0 : BitVec 55) ++ (0b1 : BitVec 1) ++ (0b00000011 : BitVec 8)) = some (.sipnodeTagged 1) := by decide
theorem test_decode_verify :
    decode ((0b0 : BitVec 55) ++ (0b0 : BitVec 1) ++ (0b00000100 : BitVec 8)) = some .verify := by decide
theorem test_decode_verifyHeader :
    decode ((0b0 : BitVec 55) ++ (0b0 : BitVec 1) ++ (0b00000101 : BitVec 8)) = some .verifyHeader := by decide
theorem test_decode_clear :
    decode ((0b0 : BitVec 55) ++ (0b0 : BitVec 1) ++ (0b00000110 : BitVec 8)) = some .clear := by decide
/-- The illegal words of `95_test_vectors.md` section 6. -/
theorem test_decode_illegal :
    ([0x07, 0xff, 0x100, 0x101, 0x104, 0x106, 0x202, 0x8000000000000004, 0x100000002] : List Word).all
      (fun w => (decode w).isNone) = true := by decide
theorem test_decodeTableWord : decodeTableWord 64 0x102 = some (.sipnode 1) := by decide

/-! ### The functions (`95_test_vectors.md` sections 2 to 5) -/

/-- Section 2: `PRF((1,2,3,4), 5)`. -/
theorem test_prf : sipHash #v[1, 2, 3, 4] 5 = 0x36231475ca2115e2 := by decide +kernel
/-- Section 2: the state after `SIPROUND` 2. -/
theorem test_sipround_2 : sipRound (sipRound (sipInit #v[1, 2, 3, 4] 5)) =
    ⟨0x802a80b600850007, 0x2006c022089ea00f, 0x4888a00f0000502d, 0x954a90160005046f⟩ := by decide +kernel
/-- Section 3.2, `EDGEBITS = 63`, edge `EDGEMASK`, side 1. -/
theorem test_sipnodeTagged_63 :
    sipnodeTagged { cfg8 with edgeBits := 63 } #v[1, 2, 3, 4] 0x7fffffffffffffff 1 = 0xa75e1c9d3a423963 := by
  decide +kernel
/-- Section 4: the default-mode and the legacy key of the empty header, words 0 and 2. -/
theorem test_deriveKey_empty :
    (deriveKey cfg8 [] false)[0] = 0xb243e526c051570e ∧ (deriveKey cfg8 [] true)[2] = 0xde3a8243ae34256f := by
  decide +kernel
/-- R127: the digest of 129 zero bytes, which takes two blocks; bytes 0 and 31. -/
theorem test_hash_two_blocks :
    (blake2b256 (List.replicate 129 0))[0] = 0xba ∧ (blake2b256 (List.replicate 129 0))[31] = 0xb8 := by
  decide +kernel

/-- Section 5.1, W1: a 12-cycle. -/
def w1 : List Nat := [0, 0, 0, 1, 1, 1, 1, 2, 2, 2, 2, 3, 3, 3, 3, 4, 4, 4, 4, 5, 5, 5, 5, 0]
theorem test_walk_w1_ok : walkVerdict 12 (arr w1) = .ok := by decide +kernel
/-- W2: two 6-cycles. -/
theorem test_walk_w2_short_cycle :
    walkVerdict 12 (arr [0, 0, 0, 1, 1, 1, 1, 2, 2, 2, 2, 0, 3, 3, 3, 4, 4, 4, 4, 5, 5, 5, 5, 3]) = .shortCycle := by
  decide +kernel
theorem test_walk_w4_dead_end :
    walkVerdict 12 (arr [0, 1, 5, 0, 6, 2, 5, 7, 1, 1, 4, 7, 3, 3, 2, 4, 3, 6, 6, 0, 0, 3, 7, 0]) = .deadEnd := by
  decide +kernel
theorem test_walk_w5_branch :
    walkVerdict 12 (arr [2, 2, 5, 7, 0, 7, 4, 2, 2, 6, 0, 7, 5, 2, 7, 4, 6, 7, 6, 7, 7, 1, 4, 6]) = .branch := by
  decide +kernel
/-- W7: W1 with its last entry 1. -/
theorem test_walk_w7_non_matching :
    walkVerdict 12 (arr [0, 0, 0, 1, 1, 1, 1, 2, 2, 2, 2, 3, 3, 3, 3, 4, 4, 4, 4, 5, 5, 5, 5, 1]) = .nonMatching := by
  decide +kernel
/-- Section 5.2 a, d and e. -/
theorem test_verify_5_2_a :
    verify cfg8 (arr [0, 5, 48, 53, 64, 117, 150, 177, 189, 225, 230, 252]) key16 = .ok := by decide +kernel
theorem test_verify_5_2_e :
    verify cfg8 (arr [0, 5, 5, 300, 64, 117, 150, 177, 189, 225, 230, 252]) key16 = .tooSmall := by decide +kernel
/-- Section 6: configuration words. -/
theorem test_cfg_words :
    cfg0Word Config.default = 0x00000001002a001e ∧ cfg0Word { Config.default with edgeBits := 32 } = 0x1002a0120 ∧
      cfg1Word { Config.default with headerLen := some 80 } = 0x8000005000000100 := by decide +kernel

/-! ### One step of each operation -/

/-- R178: `NOP` keeps the verdict readable. -/
theorem test_nop_keeps_verdict :
    nextField (exec .nop { s0 with verdictValid := true, verdictCode := 2 }) State.verdictWord = some 0x82 := by decide
/-- R179: `CLEAR` after a verification keeps the key: `STATUS = 0x04`. -/
theorem test_clear_status :
    nextField (exec .clear { ready with done := true, verdictValid := true }) (fun t => t.statusWord t.keyValid) =
      some 0x04 := by decide
/-- Program 1: `SIPNODE 0` on edge 0 leaves `NODE = 0x59` with `STATUS = 0x16`. -/
theorem test_sipnode_node :
    nextField (seqStep (ready.accept (.sipnode 0) .node)) (·.node) = some 0x59 := by decide +kernel
/-- R111: `ARG_EDGE = EDGEMASK + 1` is refused. -/
theorem test_sipnode_refused :
    nextField (exec (.sipnode 0) { ready with argEdge := 0x100 }) (fun t => (t.errOperand, t.phase)) =
      some (true, .idle) := by decide
/-- Program 1: `SIPNODE_TAGGED 1` on edge 0 leaves `NODE = 0x14b`. -/
theorem test_sipnodeTagged_node :
    nextField (seqStep (ready.accept (.sipnodeTagged 1) .node)) (·.node) = some 0x14b := by decide +kernel
/-- R132: `DERIVE_KEY` with nothing pushed. -/
theorem test_deriveKey_key0 :
    nextField (seqStep (s0.accept .deriveKey .hash)) (fun t => t.key[0]) = some 0xb243e526c051570e := by decide +kernel
/-- R203: three bytes declared, none pushed. -/
theorem test_deriveKey_refused :
    nextField (exec .deriveKey { s0 with hdrLen := 3 }) (fun t => (t.errHdr, t.phase)) = some (true, .idle) := by decide
/-- Program 2: `VERIFY` accepted shows `STATUS = 0x0d`. -/
theorem test_verify_accepted :
    nextField (exec .verify ready) (fun t => t.statusWord t.keyValid) = some 0x0d := by decide
/-- R142: a first edge with bit 63 set ends with `TOO_BIG`, `VERDICT = 0x82`. -/
theorem test_verify_too_big :
    nextField (seqStep { ready.accept .verify .scan with proof := [(0, 0x8000000000000000)] }) State.verdictWord =
      some 0x82 := by decide
/-- R174: `VERIFY_HEADER` needs no key; a wrong length ends with `HEADER_LENGTH`, `VERDICT = 0x81`. -/
theorem test_verifyHeader_accepted :
    nextField (exec .verifyHeader { ready with keyv := Vector.replicate 4 false }) (·.phase) = some .hdrchk := by decide
theorem test_verifyHeader_length :
    nextField (seqStep { ready.accept .verifyHeader .hdrchk with hdrLen := 10 }) State.verdictWord = some 0x81 := by
  decide

/-! ### The register port (`95_test_vectors.md` section 7) -/

theorem test_write_past_proof :
    nextField (regWrite 0x100c 1 s0) (fun t => t.errAddr) = some true := by decide
theorem test_push_masks_byte :
    nextField (regWrite 0x000a 0x1234 s0) (fun t => (t.hdr, t.hdrCount)) = some ([(0, 0x34)], 1) := by decide
theorem test_ctrl_keeps_bit_0 :
    nextField (regWrite 0x0002 0xfffffffffffffffe s0) (·.legacy) = some false := by decide
theorem test_proof_not_full_without_last :
    ({ ready with proofv := ready.proofv.dropLast } : State).proofFull = false := by decide
/-- A command delivered by `withFetchWord` is the next event from reset. -/
theorem test_withFetchWord_runs :
    nextField (step (State.reset.withFetchWord 64 0x01)) (fun t => (t.opc, t.phase, t.program)) =
      some (0x01, .hash, []) := by decide
theorem test_withFetchWord_illegal :
    nextField (step (State.reset.withFetchWord 64 0x07)) (fun t => (t.errCmd, t.phase)) = some (true, .idle) := by decide

/-- R242 c: a reset may come while the host waits on a busy block, and at the end of its program. -/
theorem test_reset_during_wait :
    nextField (step { ready.accept .verify .scan with program := [.wait], lead := 4, resetAfter := [0, 3] })
      (fun t => (t.phase, t.keyValid, t.program, t.resetAfter)) = some (.idle, false, [.wait], [3]) := by decide
theorem test_reset_at_end_of_run :
    nextField (step { ready with resetAfter := [7] }) (fun t => (t.keyValid, t.resetAfter)) = some (false, []) := by
  decide
/-- R240: with its lead used up, a waiting host does not hold the sequencer back. -/
theorem test_wait_does_not_starve :
    nextField (step { ready.accept (.sipnode 0) .node with program := [.wait], lead := 0 })
      (fun t => (t.done, t.program)) = some (true, [.wait]) := by decide +kernel

/-! ### Witnesses: states and operands that meet the hypotheses of the statements -/

/-- A block that runs `VERIFY`, at its first scan step. -/
def scanning : State := (ready.accept .verify .scan).clearScan

/-- A block that runs `VERIFY_HEADER`, at its length check. -/
def checking : State := (ready.accept .verifyHeader .hdrchk).clearScan.rememberKey

/-- The scanning block meets the invariant. -/
theorem scanning_inv : Inv scanning := by
  refine ⟨by decide, by decide, by decide, fun b hb => absurd hb (Nat.not_lt_zero b),
    by decide, fun n _ => rfl, fun _ => rfl, fun _ => rfl, fun _ => ⟨rfl, rfl, rfl⟩, by decide, by decide, by decide,
    by decide, by decide, by decide, ⟨.inl rfl, by decide, by decide, fun h => absurd h (by decide)⟩, by decide, ?_⟩
  constructor <;> intros <;> simp_all [scanning, sideXor]

/-- The scanning block after its first edge, 0, was taken. -/
theorem scanning_next_inv : Inv (scanning.scanEdge 0) :=
  scanEdge_inv scanning_inv rfl (by decide) (by decide)

theorem witness_IllegalWordsStartNothing :
    ([0x07, 0xff, 0x200, 0x8000000000000000, 0x100, 0x106] : List Word).all (fun w => (decode w).isNone) = true ∧
      s0.busy = false := by decide
theorem witness_StepRunsTheDecodedCommand :
    (s0.withCommand 0x06).cfg.wellFormed = true ∧ (s0.withCommand 0x06).program = .wr 0x0003 0x06 :: [] ∧
      (s0.withCommand 0x06).mover = some .host ∧ decode 0x06 = some .clear := by decide
theorem witness_EachStepIsOneEnabledEvent :
    s0.cfg.wellFormed = true ∧ (s0.program = [] ∧ s0.busy = false ∧ s0.resetAfter = []) ∧
      (({ scanning with program := [.wait], resetAfter := [0] } : State).resetAfter = 0 :: []) ∧
      (({ s0 with resetAfter := [5, 2] } : State).resetAfter = 5 :: [2] ∧ s0.program = [] ∧ s0.busy = false) ∧
      (scanning.resetAfter.head? ≠ some 0 ∧ scanning.busy = true ∧ scanning.program = []) ∧
      (({ scanning with program := [.wait], resetAfter := [1] } : State).resetAfter.head? ≠ some 0 ∧
        scanning.busy = true ∧ scanning.lead = 0) ∧
      (s0.resetAfter.head? ≠ some 0 ∧ s0.busy = false) ∧
      (({ scanning with program := [.wait], lead := 1 } : State).lead ≠ 0) := by decide
theorem witness_WaitReadsStatusUntilIdle :
    ({ scanning with program := [.wait], lead := 1 } : State).cfg.wellFormed = true ∧
      ({ scanning with program := [.wait], lead := 1 } : State).mover = some .host ∧
      ({ s0 with program := [.wait] } : State).mover = some .host := by decide
theorem witness_InvalidConfigurationHasNoInstance :
    ({ s0 with cfg := { cfg8 with edgeBits := 64 } } : State).cfg.wellFormed = false := by decide
theorem witness_NopChangesNothing : s0.busy = false ∧ scanning.busy = true := by decide
theorem witness_ClearDropsOperandsAndResults :
    (ready.busy = false ∧ scanning.busy = true) ∧ s0.busy = false ∧ s0.proof = [] ∧ s0.proofv = [] ∧ s0.hdrCount = 0 ∧
      s0.hdrOvf = false ∧ s0.hdrLen = 0 ∧ s0.node = 0 ∧ s0.nodeValid = false ∧ s0.verdictCode = 0 ∧
      s0.verdictValid = false ∧ s0.done = false := by decide
/-- For `SipnodeLeavesTheEndpoint` and `SipnodeTaggedLeavesTheTaggedEndpoint`, at both ends of the edge range. -/
theorem witness_SipnodeLeavesTheEndpoint :
    ready.busy = false ∧ ready.keyValid = true ∧ ready.argEdge ≤ Config.edgeMask ready.cfg ∧
      (0xff : Word) ≤ Config.edgeMask ready.cfg ∧ ¬ (0x100 : Word) ≤ Config.edgeMask ready.cfg := by decide
theorem witness_SipnodeTaggedLeavesTheTaggedEndpoint :
    ready.busy = false ∧ ready.keyValid = true ∧ ready.argEdge ≤ Config.edgeMask ready.cfg := by decide
theorem witness_DeriveKeyLeavesTheKey :
    s0.busy = false ∧ s0.hdrOvf = false ∧ s0.hdrLen.toNat = s0.hdrCount := by decide
theorem witness_VerificationsAreAccepted :
    (ready.busy = false ∧ ready.proofFull = true ∧ ready.keyValid = true) ∧
      ({ ready with keyv := Vector.replicate 4 false } : State).busy = false ∧
      ({ ready with keyv := Vector.replicate 4 false } : State).proofFull = true := by decide
theorem witness_VerifyRunsToItsVerdict :
    ready.cfg.wellFormed = true ∧ ready.busy = false ∧ ready.keyValid = true ∧ ready.proofFull = true := by decide
theorem witness_VerificationsKeepTheirStepBounds :
    ready.cfg.wellFormed = true ∧ ready.busy = false ∧ ready.proofFull = true ∧ ready.keyValid = true := by decide
theorem witness_VerifyHeaderRunsToItsVerdict :
    ready.cfg.wellFormed = true ∧ ready.busy = false ∧ ready.proofFull = true := by decide
theorem witness_MissingOperandsAreRefused :
    s0.busy = false ∧ s0.keyValid = false ∧ s0.proofFull = false ∧ ready.busy = false ∧
      Config.edgeMask ready.cfg < (0x100 : Word) := by decide
theorem witness_HeaderMismatchIsRefused :
    (s0.busy = false ∧ ({ s0 with hdrLen := 1 } : State).hdrLen.toNat ≠ s0.hdrCount) ∧
      (nextField (exec .verifyHeader ready) (·.errHdr) = some false) ∧
      (checking.phase = .hdrchk ∧ ({ checking with hdrOvf := true } : State).hdrOvf = true) := by decide
theorem witness_WritesWhileBusyAreDropped :
    scanning.busy = true ∧ Reg.ofNumber scanning.cfg 0x0003 = some .cmd ∧ Reg.cmd.writable = true ∧
      Reg.ofNumber scanning.cfg 0x100b = some (.proof 11) ∧ (Reg.proof 11).writable = true := by decide
theorem witness_AccessesTheMapDoesNotAllow :
    Reg.ofNumber cfg8 0x000b = none ∧ Reg.ofNumber cfg8 0x100c = none ∧ Reg.ofNumber cfg8 0xffff = none ∧
      Reg.ofNumber cfg8 0x0000 = some .cfg0 ∧ Reg.cfg0.writable = false ∧
      Reg.ofNumber cfg8 0x0009 = some .hdrCount ∧ Reg.hdrCount.writable = false := by decide
theorem witness_RegisterMapIsTheTable :
    cfg8.wellFormed = true ∧ (0 < cfg8.proofSize ∧ 11 < cfg8.proofSize) ∧ Reg.ofNumber cfg8 0x100b ≠ none := by decide
theorem witness_IdleWritesStore :
    s0.cfg.wellFormed = true ∧ s0.busy = false ∧ 0 < s0.cfg.proofSize ∧ 11 < s0.cfg.proofSize := by decide
theorem witness_HeaderPushAppendsOneByte :
    s0.busy = false ∧ s0.hdrCount < s0.cfg.hdrMax ∧ ({ s0 with hdrCount := 255 } : State).hdrCount < s0.cfg.hdrMax ∧
      ¬ ({ s0 with hdrCount := 256 } : State).hdrCount < s0.cfg.hdrMax := by decide
theorem witness_ConfigurationWords :
    ({ cfg8 with edgeBits := 63, headerLen := some 80 } : Config).wellFormed = true ∧
      ({ cfg8 with edgeBits := 63, headerLen := some 80 } : Config).hdrMax < 2 ^ 32 ∧ 80 < 2 ^ 31 := by decide
theorem witness_ReadsReturnTheRegisters :
    (checking.cfg.wellFormed = true ∧ checking.busy = true ∧ checking.opc = 0x05) ∧
      s0.cfg.wellFormed = true ∧ s0.busy = false ∧ scanning.busy = true ∧ scanning.opc ≠ 0x05 ∧
      s0.hdrCount < 2 ^ 32 ∧ 11 < s0.cfg.proofSize := by decide
theorem witness_UnsettledKeyReadsAreOldOrNew : checking.busy = true ∧ checking.opc = 0x05 := by decide
theorem witness_CompletionWritesTheVerdict : checking.opc = 0x05 ∧ scanning.opc ≠ 0x05 := by decide
theorem witness_ResetLeavesTheTable : s0.cfg.wellFormed = true := by decide
theorem witness_ResetStartsNothing : cfg8.wellFormed = true := by decide
/-- For the statements whose hypothesis is that a step, or a sequencer step, answers a next state. -/
theorem witness_StepsKeepConfigurationFlagsAndKeyBits :
    (nextField (step ({ ready with errCmd := true }.withCommand 0x06)) (·.errCmd)) = some true ∧
      (({ ready with errCmd := true } : State).withCommand 0x06).resetsNext = false ∧ ready.keyv[3] = true := by decide
theorem witness_SequencerStepFrame :
    seqStep scanning = .next (scanning.scanEdge 0) ∧ (scanning.scanEdge 0).busy = true ∧ scanning.phase ≠ .hash ∧
      scanning.phase ≠ .node := by
  refine ⟨?_, by decide, by decide, by decide⟩
  show stepScan scanning = _
  rw [stepScan, if_neg (by decide), if_neg (by decide)]
  rfl
theorem witness_BusyHostAccessesDisturbNothing :
    scanning.busy = true ∧ (HostAction.wr 0x0010 0xdead).resets = false ∧
      hostEvent (.wr 0x0010 0xdead) scanning = .next (scanning.raise .busy) := ⟨by decide, rfl, rfl⟩
theorem witness_EndpointRanges :
    cfg8.wellFormed = true ∧ (0 : Word) ≤ Config.edgeMask cfg8 ∧ (0xff : Word) ≤ Config.edgeMask cfg8 := by decide
theorem witness_TaggedFormHoldsNodeAndSide : cfg8.wellFormed = true := by decide
theorem witness_CandidatesAreTheOtherSameSidePositions :
    0 < 2 * 12 ∧ 23 < 2 * 12 ∧ (findMatch 12 (arr w1) 23).1 = 1 := by decide +kernel
theorem witness_RejectionsComeInOrder :
    scanVerdict cfg8 (arr [256]) 12 0 = some .tooBig ∧ scanVerdict cfg8 (arr [0, 1, 2, 3, 4, 5, 6, 7, 8, 9, 10, 255]) 12 0 = none := by
  decide +kernel
/-- Both outcomes of the length check. -/
theorem witness_RejectionsComeInOrder_header :
    (verifyHeader cfg8 [7] 1 false (arr [256]) false).1 = .tooBig ∧
      (verifyHeader cfg8 [7] 2 false (arr [256]) false).1 = .headerLength := by decide +kernel
theorem witness_WalkAlternatesSides : 0 < 12 ∧ walkPos 12 (arr w1) 1 = some 3 ∧ walkPos 12 (arr w1) 12 = some 0 := by
  decide +kernel
theorem witness_WalkNeverReachesTheCap : walkPos 12 (arr w1) 12 = some 0 ∧ walkPos 12 (arr w1) 13 = none := by
  decide +kernel
theorem witness_OkMeansOneSimpleCycle : 0 < 12 ∧ walkVerdict 12 (arr w1) = .ok := by decide +kernel
theorem witness_SimpleCyclesAreAccepted :
    0 < 12 ∧ (∀ i < 2 * 12, (findMatch 12 (arr w1) i).1 = 1) ∧
      ∀ e < 12, ∃ k < 12, ∃ i, walkPos 12 (arr w1) k = some i ∧ i / 2 = e := by
  have h : ∀ e < 12, ∃ k < 12, (walkPos 12 (arr w1) k).map (· / 2) = some e := by decide +kernel
  refine ⟨by decide, by decide +kernel, fun e he => ?_⟩
  obtain ⟨k, hk, hw⟩ := h e he
  obtain ⟨i, hi, hie⟩ := Option.map_eq_some_iff.mp hw
  exact ⟨k, hk, i, hi, hie⟩
theorem witness_TaggedArrayGivesTheSameVerdict :
    12 % 2 = 0 ∧ ∀ k : Nat, ((fun k => BitVec.ofNat 64 (k % 2)) k : Word).toNat < 2 ^ 63 :=
  ⟨rfl, fun k => by simp only [BitVec.toNat_ofNat]; omega⟩
theorem witness_VerdictDependsOnTheProofAlone :
    ∀ n < cfg8.proofSize, arr w1 n = (if n < 12 then arr w1 n else 5) :=
  fun n hn => (if_pos (show n < 12 from hn)).symm
/-- For the statements about states that meet the invariant. -/
theorem witness_EveryStepKeepsTheInvariant :
    Inv scanning ∧ step scanning = .next (scanning.moveOn .sequencer false (scanning.scanEdge 0)) := by
  refine ⟨scanning_inv, ?_⟩
  rw [step, if_pos (by decide)]
  show andThen (seqStep scanning) (scanning.moveOn .sequencer false) = _
  rw [witness_SequencerStepFrame.1]
  rfl
theorem witness_SoundStatesNeverStop : Inv scanning := scanning_inv
theorem witness_BusyBlockCompletes : Inv scanning ∧ scanning.busy = true := ⟨scanning_inv, by decide⟩
/-- The scanning block with a host that waits, then writes a key word, and with a lead of three events. -/
theorem witness_OperationsCompleteInEveryRun :
    Inv { scanning with program := [.wait, .wr 0x0010 0xdead], lead := 3 } ∧
      ({ scanning with program := [.wait, .wr 0x0010 0xdead], lead := 3 } : State).busy = true ∧
      scanning.resetAfter = [] ∧ ∀ x ∈ [HostAction.wait, .wr 0x0010 0xdead], x.resets = false :=
  ⟨inv_bookkeeping scanning_inv _ _ _ _ _ _ _ _ _ _, by decide⟩
theorem witness_EveryRunEnds : Inv { scanning with program := [.wait, .reset], lead := 3, resetAfter := [2, 0] } :=
  inv_bookkeeping scanning_inv _ _ _ _ _ _ _ _ _ _
theorem witness_BusyBlockShowsNoResult : Inv scanning ∧ scanning.busy = true := ⟨scanning_inv, by decide⟩
/-- The clauses of `ScanStepStoresBothEndpoints`: an edge taken, an edge not above the one before, and one too big. -/
theorem witness_ScanStepStoresBothEndpoints_taken :
    Inv scanning ∧ scanning.phase = .scan ∧ scanning.proofAt scanning.n ≤ Config.edgeMask scanning.cfg ∧
      scanning.n = 0 := ⟨scanning_inv, by decide⟩
theorem witness_ScanStepStoresBothEndpoints_too_small :
    Inv (scanning.scanEdge 0) ∧ (scanning.scanEdge 0).phase = .scan ∧
      (scanning.scanEdge 0).proofAt (scanning.scanEdge 0).n ≤ Config.edgeMask (scanning.scanEdge 0).cfg ∧
      (scanning.scanEdge 0).n > 0 ∧
      (scanning.scanEdge 0).proofAt (scanning.scanEdge 0).n ≤
        (scanning.scanEdge 0).proofAt ((scanning.scanEdge 0).n - 1) := ⟨scanning_next_inv, by decide⟩
theorem witness_ScanStepStoresBothEndpoints_too_big :
    Inv { scanning with proof := [(0, 0x100)] } ∧
      Config.edgeMask cfg8 < ({ scanning with proof := [(0, 0x100)] } : State).proofAt 0 := by
  refine ⟨⟨by decide, by decide, by decide, fun b hb => absurd hb (Nat.not_lt_zero b),
    by decide, fun n hn => ?_, fun _ => rfl, fun _ => rfl, fun _ => ⟨rfl, rfl, rfl⟩, by decide, by decide, by decide,
    by decide, by decide, by decide, ⟨.inl rfl, by decide, by decide, fun h => absurd h (by decide)⟩, by decide, ?_⟩,
    by decide⟩
  · cases n with
    | zero => exact absurd hn (by decide)
    | succ n => rfl
  · constructor <;> intros <;> simp_all [scanning, sideXor]
theorem witness_XorCheckStartsTheWalk :
    ({ scanning with phase := .xorchk, xor1 := 1 } : State).xor1 ≠ 0 ∧
      ({ scanning with phase := .xorchk } : State).phase = .xorchk ∧
      ({ scanning with phase := .xorchk } : State).xor0 = 0 ∧ ({ scanning with phase := .xorchk } : State).xor1 = 0 := by
  decide

/-- A walking block on an endpoint array, at a position and a step count. -/
def walking (uvs : List Nat) (i steps : Nat) : State :=
  { scanning with phase := .walk, uvs := bank uvs, i := i, steps := steps }

/-- The positions that match where a walking block stands. -/
def matching (s : State) : List Nat :=
  (candidates s.cfg.proofSize s.i).filter (fun k => decide (s.uvsAt k = s.uvsAt s.i))

/-- The clauses of `WalkStepFollowsTheOnlyMatch`, each at a state that meets its premises. -/
theorem witness_WalkStepFollowsTheOnlyMatch :
    (walking w1 0 0).phase = .walk ∧
      1 < (matching (walking (List.replicate 24 7) 0 0)).length ∧
      matching (walking (8 :: List.replicate 23 7) 0 0) = [] ∧
      (matching (walking w1 0 0) = [2] ∧ 2 ^^^ 1 ≠ 0 ∧ (walking w1 0 0).steps ≠ cfg8.proofSize) ∧
      (matching (walking w1 23 11) = [1] ∧ 1 ^^^ 1 = 0 ∧ (walking w1 23 11).steps + 1 = cfg8.proofSize) ∧
      (matching (walking w1 23 5) = [1] ∧ (walking w1 23 5).steps + 1 ≠ cfg8.proofSize) ∧
      (matching (walking w1 0 12) = [2] ∧ (walking w1 0 12).steps = cfg8.proofSize) := by decide +kernel

end Sys2Proof.Tests
end

section
/-! The validity conditions of a configuration as propositions, one per parameter (`00_scope.md` R9, R11), and what a
step answers where they fail (R225). -/

namespace Sys2Proof

theorem Config.edgeBitsOk_iff (c : Config) : c.edgeBitsOk = true ↔ 1 ≤ c.edgeBits ∧ c.edgeBits ≤ 63 := by
  simp [Config.edgeBitsOk]

theorem Config.proofSizeOk_iff (c : Config) :
    c.proofSizeOk = true ↔ c.proofSize % 2 = 0 ∧ 12 ≤ c.proofSize ∧ c.proofSize ≤ 4096 := by
  simp [Config.proofSizeOk, and_assoc]

/-- An absent `HEADERLEN` bounds nothing, so only `HDR_MAX >= 1` is left of R11. -/
theorem Config.hdrMaxOk_iff (c : Config) :
    c.hdrMaxOk = true ↔ 1 ≤ c.hdrMax ∧ ∀ len, c.headerLen = some len → len ≤ c.hdrMax := by
  unfold Config.hdrMaxOk
  cases c.headerLen with
  | none => simp
  | some len => simp

theorem Config.wellFormed_iff (c : Config) :
    c.wellFormed = true ↔
      (1 ≤ c.edgeBits ∧ c.edgeBits ≤ 63) ∧ (c.proofSize % 2 = 0 ∧ 12 ≤ c.proofSize ∧ c.proofSize ≤ 4096) ∧
        1 ≤ c.hdrMax ∧ ∀ len, c.headerLen = some len → len ≤ c.hdrMax := by
  rw [← c.edgeBitsOk_iff, ← c.proofSizeOk_iff, ← c.hdrMaxOk_iff]
  simp only [Config.wellFormed, Bool.and_eq_true, and_assoc]

namespace Machine

theorem step_eq_refused_of_not_wellFormed {s : State} (hc : s.cfg.wellFormed = false) :
    step s = .refused .invalidConfig := by
  simp [step, hc]

/-- Settles O8: validity is read off one parameter at a time, and `step` looks at validity before any event. -/
theorem invalidConfigurationHasNoInstance : Obligations.InvalidConfigurationHasNoInstance := by
  refine ⟨fun c => ?_, fun _ hc => step_eq_refused_of_not_wellFormed hc⟩
  simpa only [and_assoc] using c.wellFormed_iff

end Machine
end Sys2Proof
end

section
/-! Where a walk step can lead: a candidate is a position of the array, and so is the one a walk crosses to
(`42_cycle_verifier.md` R147, R148). -/

namespace Sys2Proof.Machine

theorem candidate_lt {p i k : Nat} (h : k ∈ candidates p i) : k < 2 * p := by
  obtain ⟨n, hn, rfl⟩ := List.mem_map.mp h
  have hp : n < p - 1 := List.mem_range.mp hn
  exact Nat.mod_lt _ (by omega)

theorem findMatch_snd_mem_candidates {p i : Nat} {uvs : Nat → Word} (h : (findMatch p uvs i).1 = 1) :
    (findMatch p uvs i).2 ∈ candidates p i := by
  obtain ⟨k, hk⟩ := List.length_eq_one_iff.mp h
  have hmem : k ∈ matchesOf p uvs i := by simp [hk]
  simpa [findMatch, hk] using List.mem_of_mem_filter hmem

theorem xor_one_lt_two_mul {p k : Nat} (h : k < 2 * p) : k ^^^ 1 < 2 * p := by
  have hhalf : (k ^^^ 1) / 2 = k / 2 := by simp [Nat.xor_div_two]
  omega

/-- The two endpoints of an edge are neighbours in the array, so crossing an edge stays inside it. -/
theorem findMatch_cross_lt {p i : Nat} {uvs : Nat → Word} (h : (findMatch p uvs i).1 = 1) :
    (findMatch p uvs i).2 ^^^ 1 < 2 * p :=
  xor_one_lt_two_mul (candidate_lt (findMatch_snd_mem_candidates h))

end Sys2Proof.Machine
end

section
/-! The invariant along every step (`10_state.md`; `42_cycle_verifier.md` R162; `43_top_level_and_housekeeping.md`
R176): what a sequencer step, a host access and reset each keep. -/

namespace Sys2Proof.Machine

/-! ### Reset -/

theorem resetOf_inv {c : Config} (hc : c.wellFormed = true) : Inv (State.resetOf c) := by
  have hp := (wellFormed_proofSize hc).2.1
  refine idle_inv rfl hc (resetOf_memory c) (Nat.zero_le _) ?_ ?_ (fun _ _ => rfl) (fun _ => rfl) (fun _ => rfl)
    (Nat.zero_le _) ?_ (Nat.zero_le _) ⟨width_pos _, width_pos _⟩ (width_pos _) ?_
  · simp [State.resetOf]
  · simp [State.resetOf]
  · show 0 < 2 * c.proofSize
    omega
  · simp [State.resetOf]

theorem resetBlock_inv {s : State} (h : Inv s) : Inv s.resetBlock :=
  inv_bookkeeping (resetOf_inv h.config) _ _ _ _ _ _ _ _ _ _

/-! ### Phases -/

theorem phaseInv_hdrchk {s : State} (h : Inv s) (hp : s.phase = .hdrchk) :
    s.opc = Instr.opcode .verifyHeader ∧ s.proofFull = true ∧ s.n = 0 ∧ s.xor0 = 0 ∧ s.xor1 = 0 ∧
      s.key = s.keyBefore ∧ s.keyv = s.keyvBefore := by
  simpa only [PhaseInv, hp] using h.phase

theorem phaseInv_hash {s : State} (h : Inv s) (hp : s.phase = .hash) :
    (s.opc = Instr.opcode .deriveKey ∧ s.headerReady = true) ∨
      (s.opc = Instr.opcode .verifyHeader ∧ s.lenOk = true ∧ s.proofFull = true ∧ s.n = 0 ∧ s.xor0 = 0 ∧
        s.xor1 = 0) := by
  simpa only [PhaseInv, hp] using h.phase

theorem phaseInv_xorchk {s : State} (h : Inv s) (hp : s.phase = .xorchk) :
    Verifying s ∧ s.n = s.cfg.proofSize ∧ Scanned s := by
  simpa only [PhaseInv, hp] using h.phase

theorem phaseInv_walk {s : State} (h : Inv s) (hp : s.phase = .walk) :
    Verifying s ∧ s.n = s.cfg.proofSize ∧ Scanned s ∧ s.xor0 = 0 ∧ s.xor1 = 0 ∧ s.steps ≤ s.cfg.proofSize := by
  simpa only [PhaseInv, hp] using h.phase

/-- Before the first scan step nothing is asked of the array. -/
theorem scanned_of_n_eq_zero {s : State} (hn : s.n = 0) (h0 : s.xor0 = 0) (h1 : s.xor1 = 0) : Scanned s where
  inRange k hk := by omega
  ascending k hk := by omega
  uSide k hk := by omega
  vSide k hk := by omega
  xorU := by rw [h0, hn]; rfl
  xorV := by rw [h1, hn]; rfl
  last k hk := by omega

/-- The walk registers and the phase are not among what the scan has left. -/
theorem Scanned.of_walk_registers {s : State} (h : Scanned s) (j m : Nat) (p : Phase) :
    Scanned { s with i := j, steps := m, phase := p } :=
  ⟨h.inRange, h.ascending, h.uSide, h.vSide, h.xorU, h.xorV, h.last⟩

/-- The walk registers and the phase are not among a verification's operands. -/
theorem Verifying.of_walk_registers {s : State} (h : Verifying s) (j m : Nat) (p : Phase) :
    Verifying { s with i := j, steps := m, phase := p } :=
  ⟨h.opcode, h.keyed, h.full, h.derived⟩

/-- A busy block may take on a new key, walk position and phase: beside the ranges, only what the new phase asks for
is to be shown. -/
theorem inv_of_busy {s : State} (h : Inv s) (hb : s.busy = true) (k : Key) (kv : Vector Bool 4) {j m : Nat}
    {p : Phase} (hj : j < 2 * s.cfg.proofSize) (hm : m ≤ s.cfg.proofSize + 1)
    (hp : PhaseInv { s with key := k, keyv := kv, i := j, steps := m, phase := p }) :
    Inv { s with key := k, keyv := kv, i := j, steps := m, phase := p } :=
  { h with
    busyQuiet := fun _ => h.busyQuiet hb
    walkRange := hj
    stepRange := hm
    phase := hp }

/-- An idle block may hold any walk position in range. -/
theorem inv_of_idle_walk_registers {s : State} (h : Inv s) (hid : s.phase = .idle) {j m : Nat}
    (hj : j < 2 * s.cfg.proofSize) (hm : m ≤ s.cfg.proofSize + 1) : Inv { s with i := j, steps := m } :=
  { h with
    walkRange := hj
    stepRange := hm
    phase := by simp [PhaseInv, hid] }

/-! ### Sequencer steps -/

theorem finishDeriveKey_inv {s : State} (h : Inv s) : Inv s.finishDeriveKey := by
  refine idle_inv rfl h.config h.memory (Nat.zero_le _) ?_ ?_ h.proofHeld h.nodeHeld h.verdictHeld h.scanRange
    h.walkRange h.stepRange h.xorWidth h.prevWidth h.uvsWidth
  · simp [State.finishDeriveKey]
  · simp [State.finishDeriveKey]

/-- Both completions of phase `NODE` write the result together with its valid flag (R111, R112). -/
theorem finish_setNode_inv {s : State} (h : Inv s) (v : Word) : Inv (s.setNode v).finish :=
  idle_inv rfl h.config h.memory h.hdrWithin h.hdrWritten h.overflowFull h.proofHeld (by simp) h.verdictHeld
    h.scanRange h.walkRange h.stepRange h.xorWidth h.prevWidth h.uvsWidth

/-- The length check passed: `HASH` stands on what `HDRCHK` stood on (R176). -/
theorem hash_of_hdrchk_inv {s : State} (h : Inv s) (hp : s.phase = .hdrchk) (hl : s.lenOk = true) :
    Inv { s with phase := .hash } := by
  obtain ⟨hopc, hfull, hn, h0, h1, _, _⟩ := phaseInv_hdrchk h hp
  exact inv_of_busy h (by simp [State.busy, hp]) s.key s.keyv h.walkRange h.stepRange
    (.inr ⟨hopc, hl, hfull, hn, h0, h1⟩)

/-- The key step of `VERIFY_HEADER` leaves a valid key, the one the header gives, and nothing scanned yet (R176). -/
theorem keyForScan_inv {s : State} (h : Inv s) (hp : s.phase = .hash) (hopc : s.opc = Instr.opcode .verifyHeader) :
    Inv s.keyForScan := by
  rcases phaseInv_hash h hp with ⟨hopc', _⟩ | ⟨_, hl, hfull, hn, h0, h1⟩
  · exact absurd (hopc'.symm.trans hopc) (by decide)
  · have hv : Verifying s.keyForScan := ⟨.inr hopc, rfl, hfull, fun _ => ⟨hl, rfl⟩⟩
    have hlt : s.keyForScan.n < s.cfg.proofSize := by
      have := inv_proofSize_pos h
      simpa [hn]
    exact inv_of_busy h (by simp [State.busy, hp]) s.derivedKey _ h.walkRange h.stepRange
      ⟨hv, hlt, scanned_of_n_eq_zero hn h0 h1⟩

/-- The walk starts at position 0 with no step made (R162). -/
theorem walk_of_xorchk_inv {s : State} (h : Inv s) (hp : s.phase = .xorchk) (h0 : s.xor0 = 0) (h1 : s.xor1 = 0) :
    Inv { s with i := 0, steps := 0, phase := .walk } := by
  obtain ⟨hv, hn, hs⟩ := phaseInv_xorchk h hp
  have hpos := inv_proofSize_pos h
  exact inv_of_busy h (by simp [State.busy, hp]) s.key s.keyv (by omega) (Nat.zero_le _)
    ⟨hv.of_walk_registers .., hn, hs.of_walk_registers .., h0, h1, Nat.zero_le _⟩

/-- A walk step that goes on crosses to a position of the array and stays below the cap (R154, R162). -/
theorem walk_step_inv {s : State} (h : Inv s) (hp : s.phase = .walk) {j : Nat} (hj : j < 2 * s.cfg.proofSize)
    (hcap : s.steps + 1 ≠ s.cfg.proofSize + 1) : Inv { s with i := j, steps := s.steps + 1 } := by
  obtain ⟨hv, hn, hs, h0, h1, hm⟩ := phaseInv_walk h hp
  have hinv : Inv { s with i := j, steps := s.steps + 1, phase := .walk } :=
    inv_of_busy h (by simp [State.busy, hp]) s.key s.keyv hj (by omega)
      ⟨hv.of_walk_registers .., hn, hs.of_walk_registers .., h0, h1, by show s.steps + 1 ≤ s.cfg.proofSize; omega⟩
  rwa [← hp] at hinv

theorem complete_with_walk_registers (s : State) (v : Verdict) (j m : Nat) :
    State.complete { s with i := j, steps := m } v = { s.complete v with i := j, steps := m } := by
  simp only [complete_eq]

/-- A walk step that ends the walk, by closing it or at the cap, completes with its registers in range. -/
theorem walk_complete_inv {s : State} (h : Inv s) (hp : s.phase = .walk) (v : Verdict) {j : Nat}
    (hj : j < 2 * s.cfg.proofSize) : Inv (State.complete { s with i := j, steps := s.steps + 1 } v) := by
  obtain ⟨_, _, _, _, _, hm⟩ := phaseInv_walk h hp
  have hcfg : (s.complete v).cfg = s.cfg := by rw [complete_eq]
  rw [complete_with_walk_registers]
  exact inv_of_idle_walk_registers (complete_inv h v) (by rw [complete_eq]) (hcfg ▸ hj) (by rw [hcfg]; omega)

theorem seqStep_inv {s t : State} (h : Inv s) (hstep : seqStep s = .next t) : Inv t := by
  rcases seqStep_cases hstep with
    ⟨_, rfl⟩ | ⟨hp, hl, rfl⟩ | ⟨_, _, rfl⟩ | ⟨_, _, rfl⟩ | ⟨hp, hopc, rfl⟩ | ⟨_, _, rfl⟩ | ⟨_, _, rfl⟩ |
    ⟨_, v, rfl⟩ | ⟨hp, hmask, hprev, rfl⟩ | ⟨_, rfl⟩ | ⟨hp, h0, h1, rfl⟩ | ⟨_, v, rfl⟩ | ⟨hp, k, hk, hwalk⟩
  · exact h
  · exact hash_of_hdrchk_inv h hp hl
  · exact complete_inv h _
  · exact finishDeriveKey_inv h
  · exact keyForScan_inv h hp hopc
  · exact finish_setNode_inv h _
  · exact finish_setNode_inv h _
  · exact complete_inv h v
  · exact scanEdge_inv h hp hmask hprev
  · exact complete_inv h _
  · exact walk_of_xorchk_inv h hp h0 h1
  · exact complete_inv h v
  · have hj : k ^^^ 1 < 2 * s.cfg.proofSize := by
      simpa only [hk] using findMatch_cross_lt (i := s.i) (uvs := s.uvsAt) (congrArg Prod.fst hk)
    rcases hwalk with ⟨v, rfl⟩ | ⟨_, hcap, rfl⟩
    · exact walk_complete_inv h hp v hj
    · exact walk_step_inv h hp hj hcap

/-! ### Host accesses -/

theorem regWrite_inv {a : RegNum} {v : Word} {s t : State} (h : Inv s) (hw : regWrite a v s = .next t) : Inv t := by
  rcases regWrite_cases hw with ⟨e, rfl⟩ | ⟨hb, r, hr, _, _, rfl⟩ | ⟨hb, i, _, _, ho, rfl⟩
  · exact raise_inv h e
  · exact store_inv h ((not_busy_iff s).mp hb) v hr
  · exact accepted_inv h ((not_busy_iff s).mp hb) i ho

theorem regRead_inv {s : State} (h : Inv s) (a : RegNum) : Inv (regRead a s) := by
  rcases regRead_cases a s with ⟨_, hr⟩ | ⟨r, _, hr⟩
  · rw [hr]; exact record_inv (raise_inv h .addr) 0
  · rw [hr]; exact record_inv h _

theorem hostEvent_inv {x : HostAction} {s t : State} (h : Inv s) (hx : hostEvent x s = .next t) : Inv t := by
  rcases hostEvent_cases hx with ⟨a, v, _, hw⟩ | ⟨_, a, rfl⟩ | ⟨_, rfl | ⟨v, rfl⟩⟩
  · exact regWrite_inv h hw
  · exact regRead_inv h a
  · exact resetBlock_inv h
  · exact record_inv (resetBlock_inv h) v

/-! ### The statements -/

/-- Settles O52: whoever makes the step keeps the invariant, and the bookkeeping after it does not touch it. -/
theorem everyStepKeepsTheInvariant : Obligations.EveryStepKeepsTheInvariant := by
  intro s t h hstep
  rcases step_cases hstep with ⟨_, rfl⟩ | ⟨_, rfl⟩ | ⟨_, u, hu, rfl⟩ | ⟨_, x, _, u, _, hu, rfl⟩
  · exact h
  · exact moveOn_inv (resetBlock_inv h) ..
  · exact moveOn_inv (seqStep_inv h hu) ..
  · exact moveOn_inv (hostEvent_inv h hu) ..

/-- Settles O51: after reset every register and array is at its smallest value; a valid configuration has the room for
the walk position 0. -/
theorem invariantHoldsAtReset : Obligations.InvariantHoldsAtReset :=
  ⟨resetOf_inv (by decide), fun _ => resetOf_inv⟩

end Sys2Proof.Machine
end

section
/-! The words `STATUS`, `VERDICT`, `CFG0` and `CFG1`, bit by bit and field by field (`10_state.md` R32). -/

namespace Sys2Proof.Machine

/-! ### Flags -/

@[simp] theorem flagAt_getLsbD (f : Bool) {b : Nat} (hb : b < 64) (k : Nat) :
    (flagAt f b).getLsbD k = (f && decide (k = b)) := by
  cases f with
  | false => simp [flagAt]
  | true =>
    have hone : (decide (k < 64) && !decide (k < b) && decide (k - b = 0)) = decide (k = b) := by
      rw [Bool.eq_iff_iff]
      simp
      omega
    simpa [flagAt] using hone

/-- Every bit of `STATUS`: set exactly when a flag that stands there is (R32 e). -/
theorem statusWord_getLsbD (s : State) (kv : Bool) (k : Nat) :
    (s.statusWord kv).getLsbD k =
      (s.busy && decide (k = 0) || s.done && decide (k = 1) || kv && decide (k = 2) ||
        s.proofFull && decide (k = 3) || s.nodeValid && decide (k = 4) || s.verdictValid && decide (k = 5) ||
        s.hdrOvf && decide (k = 6) || s.errCmd && decide (k = 8) || s.errBusy && decide (k = 9) ||
        s.errOperand && decide (k = 10) || s.errHdr && decide (k = 11) || s.errAddr && decide (k = 12)) := by
  simp [State.statusWord]

theorem keyValid_iff (s : State) : s.keyValid = true ↔ ∀ j : Fin 4, s.keyv[j] = true := by
  simp [State.keyValid, Fin.forall_fin_succ, and_assoc]

theorem proofFull_iff (s : State) : s.proofFull = true ↔ ∀ n < s.cfg.proofSize, s.proofvAt n = true := by
  simp [State.proofFull]

/-- Settles O25: the listed bits are read off `statusWord_getLsbD`, and from bit 13 on no flag stands anywhere. -/
theorem statusBitsAreTheFlags : Obligations.StatusBitsAreTheFlags := by
  refine ⟨fun s kv => ⟨?_, fun b hb => ?_⟩, fun s => ⟨keyValid_iff s, proofFull_iff s, not_busy_iff s⟩⟩
  · simp [statusWord_getLsbD]
  · have hne : ∀ k < 13, b ≠ k := by omega
    simp [statusWord_getLsbD, hne]

/-! ### The verdict -/

/-- Every bit of `VERDICT`: the code below bit 3, the valid flag at bit 7 (R32 f). -/
theorem verdictWord_getLsbD (s : State) (k : Nat) :
    s.verdictWord.getLsbD k = (s.verdictCode.getLsbD k || s.verdictValid && decide (k = 7)) := by
  rw [State.verdictWord, BitVec.getLsbD_or, BitVec.getLsbD_setWidth, flagAt_getLsbD _ (by decide)]
  by_cases hk : k < 64
  · simp [hk]
  · simp [hk, BitVec.getLsbD_of_ge s.verdictCode k (by omega)]

/-- Settles O26: the three bits of the code lie below the valid flag, so neither shows in the other. -/
theorem verdictWordAndCodes : Obligations.VerdictWordAndCodes := by
  refine ⟨fun s => ⟨?_, ?_, fun b hb h7 => ?_⟩, rfl, fun v => ?_⟩
  · ext k hk
    have h7 : k ≠ 7 := by omega
    simp [verdictWord_getLsbD, h7, hk]
  · rw [verdictWord_getLsbD]
    simp
  · simp [verdictWord_getLsbD, h7, BitVec.getLsbD_of_ge s.verdictCode b hb]
  · cases v <;> decide

/-! ### The configuration -/

/-- A field that stands above another is added to it. -/
theorem toNat_or_shiftLeft {x y : Word} {k : Nat} (hx : x.toNat < 2 ^ k) (hy : y.toNat * 2 ^ k < 2 ^ 64) :
    (x ||| y <<< k).toNat = x.toNat + y.toNat * 2 ^ k := by
  rw [BitVec.toNat_or, BitVec.toNat_shiftLeft, Nat.shiftLeft_eq, Nat.mod_eq_of_lt hy, Nat.or_comm, Nat.mul_comm,
    ← Nat.two_pow_add_eq_or_of_lt hx, Nat.add_comm]

theorem numberField_toNat {width value : Nat} (hw : width ≤ 64) (hv : value < 2 ^ width) :
    (numberField width value).toNat = value := by
  have := Nat.pow_le_pow_right (n := 2) (by decide) hw
  simp only [numberField, if_pos hv, BitVec.toNat_ofNat]
  exact Nat.mod_eq_of_lt (by omega)

theorem flagAt_eq_shiftLeft (f : Bool) (b : Nat) : flagAt f b = (if f then 1 else 0 : Word) <<< b := by
  cases f <;> simp [flagAt]

theorem width_eq_64_iff (c : Config) : Config.width c = 64 ↔ ¬ c.edgeBits ≤ 31 := by
  unfold Config.width
  split <;> simp_all

theorem cfg0Word_toNat {c : Config} (hc : c.wellFormed = true) :
    (cfg0Word c).toNat = c.edgeBits + (if c.edgeBits ≤ 31 then 0 else 2 ^ 8) + c.proofSize * 2 ^ 16 + 2 ^ 32 := by
  obtain ⟨_, he⟩ := wellFormed_edgeBits hc
  obtain ⟨_, _, hp⟩ := wellFormed_proofSize hc
  have hE : (numberField 8 c.edgeBits).toNat = c.edgeBits := numberField_toNat (by decide) (by omega)
  have hP : (numberField 16 c.proofSize).toNat = c.proofSize := numberField_toNat (by decide) (by omega)
  have hW : (if decide (Config.width c = 64) then 1 else 0 : Word).toNat = if c.edgeBits ≤ 31 then 0 else 1 := by
    by_cases h : c.edgeBits ≤ 31 <;> simp [width_eq_64_iff, h]
  have hbit : (if c.edgeBits ≤ 31 then 0 else 1) ≤ 1 := by split <;> omega
  have h8 := toNat_or_shiftLeft (x := numberField 8 c.edgeBits)
    (y := if decide (Config.width c = 64) then 1 else 0) (k := 8) (by omega) (by omega)
  rw [← flagAt_eq_shiftLeft] at h8
  have h16 := toNat_or_shiftLeft (x := numberField 8 c.edgeBits ||| flagAt (decide (Config.width c = 64)) 8)
    (y := numberField 16 c.proofSize) (k := 16) (by omega) (by omega)
  unfold cfg0Word
  rw [toNat_or_shiftLeft (by omega) (by decide), h16, h8, hE, hP, hW]
  split <;> simp

theorem cfg1Word_toNat {c : Config} (hmax : c.hdrMax < 2 ^ 32) (hlen : ∀ len, c.headerLen = some len → len < 2 ^ 31) :
    (cfg1Word c).toNat =
      c.hdrMax + (match c.headerLen with | none => 0 | some len => len * 2 ^ 32 + 2 ^ 63) := by
  have hM : (numberField 32 c.hdrMax).toNat = c.hdrMax := numberField_toNat (by decide) hmax
  unfold cfg1Word
  cases h : c.headerLen with
  | none => simp [hM]
  | some len =>
    have hl := hlen len h
    have hL : (numberField 31 len).toNat = len := numberField_toNat (by decide) hl
    have h32 := toNat_or_shiftLeft (x := numberField 32 c.hdrMax) (y := numberField 31 len) (k := 32) (by omega)
      (by omega)
    rw [← BitVec.or_assoc, toNat_or_shiftLeft (by omega) (by decide), h32, hM, hL]
    simp [Nat.add_assoc]

/-- Settles O27: each field starts at or above the end of the one before, so the word is their sum. -/
theorem configurationWords : Obligations.ConfigurationWords :=
  fun _ hc hmax hlen => ⟨cfg0Word_toNat hc, cfg1Word_toNat hmax hlen⟩

end Sys2Proof.Machine
end

section
/-! What an event leaves alone: the configuration, the sticky flags and the valid bits of the key along every step
(`10_state.md` R20, R23, R40), the frame of a sequencer step, and that it is blind to the flags and the reads. -/

namespace Sys2Proof.Machine

/-! ### The frame of a sequencer step -/

/-- What `SequencerStepFrame` says of one sequencer step from `s` to `t`, clause by clause. -/
structure SeqFrame (s t : State) : Prop where
  cfg : t.cfg = s.cfg
  argEdge : t.argEdge = s.argEdge
  legacy : t.legacy = s.legacy
  hdr : t.hdr = s.hdr
  opc : t.opc = s.opc
  opside : t.opside = s.opside
  errCmd : t.errCmd = s.errCmd
  errBusy : t.errBusy = s.errBusy
  errOperand : t.errOperand = s.errOperand
  errHdr : t.errHdr = s.errHdr
  errAddr : t.errAddr = s.errAddr
  program : t.program = s.program
  reads : t.reads = s.reads
  keyBefore : t.keyBefore = s.keyBefore
  keyvBefore : t.keyvBefore = s.keyvBefore
  lead : t.lead = s.lead
  resetAfter : t.resetAfter = s.resetAfter
  tick : t.tick = s.tick
  scan : s.phase ≠ .scan → t.uvs = s.uvs ∧ t.n = s.n ∧ t.xor0 = s.xor0 ∧ t.xor1 = s.xor1 ∧ t.prev = s.prev
  walk : s.phase ≠ .xorchk → s.phase ≠ .walk → t.i = s.i ∧ t.steps = s.steps
  hash : s.phase ≠ .hash → t.key = s.key ∧ t.keyv = s.keyv
  node : s.phase ≠ .node → t.node = s.node ∧ t.nodeValid = s.nodeValid
  operands : t.busy = true → t.proof = s.proof ∧ t.proofv = s.proofv ∧ t.hdrCount = s.hdrCount ∧
    t.hdrOvf = s.hdrOvf ∧ t.hdrLen = s.hdrLen ∧ t.done = s.done ∧ t.verdictCode = s.verdictCode ∧
    t.verdictValid = s.verdictValid

/-- A change of the phase alone is framed in every phase. -/
theorem seqFrame_of_phase (s : State) (p : Phase) : SeqFrame s { s with phase := p } := by
  constructor <;> simp

theorem seqFrame_of_walk_registers {s : State} (hp : s.phase = .xorchk ∨ s.phase = .walk) (j m : Nat) (p : Phase) :
    SeqFrame s { s with i := j, steps := m, phase := p } := by
  refine { seqFrame_of_phase s p with walk := fun hx hw => ?_ }
  exact absurd hp (by simp [hx, hw])

/-- A completion leaves the block idle, so the operands it consumes are outside the frame (R163). -/
theorem seqFrame_complete (s : State) (v : Verdict) : SeqFrame s (s.complete v) := by
  rw [complete_eq]
  constructor <;> simp [State.busy]

theorem seqFrame_walk_complete {s : State} (hp : s.phase = .walk) (v : Verdict) (j m : Nat) :
    SeqFrame s (State.complete { s with i := j, steps := m } v) := by
  rw [complete_with_walk_registers]
  exact { seqFrame_complete s v with walk := fun _ hw => absurd hp hw }

theorem seqFrame_finishDeriveKey {s : State} (hp : s.phase = .hash) : SeqFrame s s.finishDeriveKey := by
  constructor <;> simp [State.finishDeriveKey, hp]

theorem seqFrame_keyForScan {s : State} (hp : s.phase = .hash) : SeqFrame s s.keyForScan := by
  constructor <;> simp [hp]

theorem seqFrame_finish_setNode {s : State} (hp : s.phase = .node) (v : Word) :
    SeqFrame s (s.setNode v).finish := by
  constructor <;> simp [hp]

theorem seqFrame_scanEdge {s : State} (hp : s.phase = .scan) (e : Word) : SeqFrame s (s.scanEdge e) := by
  constructor <;> simp [hp]

theorem seqStep_frame {s t : State} (hstep : seqStep s = .next t) : SeqFrame s t := by
  rcases seqStep_cases hstep with
    ⟨_, rfl⟩ | ⟨_, _, rfl⟩ | ⟨_, _, rfl⟩ | ⟨hp, _, rfl⟩ | ⟨hp, _, rfl⟩ | ⟨hp, _, rfl⟩ | ⟨hp, _, rfl⟩ |
    ⟨_, v, rfl⟩ | ⟨hp, _, _, rfl⟩ | ⟨_, rfl⟩ | ⟨hp, _, _, rfl⟩ | ⟨_, v, rfl⟩ | ⟨hp, k, _, hwalk⟩
  · exact seqFrame_of_phase t t.phase
  · exact seqFrame_of_phase s .hash
  · exact seqFrame_complete s _
  · exact seqFrame_finishDeriveKey hp
  · exact seqFrame_keyForScan hp
  · exact seqFrame_finish_setNode hp _
  · exact seqFrame_finish_setNode hp _
  · exact seqFrame_complete s v
  · exact seqFrame_scanEdge hp _
  · exact seqFrame_complete s _
  · exact seqFrame_of_walk_registers (.inl hp) 0 0 .walk
  · exact seqFrame_complete s v
  · rcases hwalk with ⟨v, rfl⟩ | ⟨_, _, rfl⟩
    · exact seqFrame_walk_complete hp v _ _
    · exact seqFrame_of_walk_registers (.inr hp) _ _ s.phase

/-- Settles O34: the clauses of `SeqFrame` are those of the statement. -/
theorem sequencerStepFrame : Obligations.SequencerStepFrame := by
  intro s t hstep
  have h := seqStep_frame hstep
  exact ⟨h.cfg, h.argEdge, h.legacy, h.hdr, h.opc, h.opside, h.errCmd, h.errBusy, h.errOperand, h.errHdr,
    h.errAddr, h.program, h.reads, h.keyBefore, h.keyvBefore, h.lead, h.resetAfter, h.tick, h.scan, h.walk,
    h.hash, h.node, h.operands⟩

/-! ### Sticky flags, key bits and the configuration -/

/-- Every `ERR` flag and every `KEYV` bit of `s` is still set in `t` (R23, R40). -/
structure Sticky (s t : State) : Prop where
  errCmd : s.errCmd = true → t.errCmd = true
  errBusy : s.errBusy = true → t.errBusy = true
  errOperand : s.errOperand = true → t.errOperand = true
  errHdr : s.errHdr = true → t.errHdr = true
  errAddr : s.errAddr = true → t.errAddr = true
  keyv : ∀ j : Fin 4, s.keyv[j] = true → t.keyv[j] = true

theorem sticky_rfl (s : State) : Sticky s s := ⟨id, id, id, id, id, fun _ => id⟩

/-- The bookkeeping after an event does not touch the flags and the key bits. -/
theorem Sticky.moveOn {s u : State} (h : Sticky s u) (who : Agent) (b : Bool) : Sticky s (s.moveOn who b u) :=
  ⟨h.errCmd, h.errBusy, h.errOperand, h.errHdr, h.errAddr, h.keyv⟩

theorem Sticky.record {s t : State} (h : Sticky s t) (v : Word) : Sticky s (t.record v) :=
  ⟨h.errCmd, h.errBusy, h.errOperand, h.errHdr, h.errAddr, h.keyv⟩

theorem raise_sticky (s : State) (e : Err) : Sticky s (s.raise e) := by
  constructor <;> simp +contextual

theorem pushHeader_sticky (s : State) (b : Byte) : Sticky s (s.pushHeader b) := by
  unfold State.pushHeader
  split <;> exact ⟨id, id, id, id, id, fun _ => id⟩

theorem writeKey_sticky (s : State) (j : Fin 4) (v : Word) : Sticky s (s.writeKey j v) := by
  refine { sticky_rfl s with keyv := fun k hk => ?_ }
  simp only [State.writeKey_keyv, Fin.getElem_fin, Vector.getElem_set] at hk ⊢
  split
  · rfl
  · exact hk

theorem store_sticky (s : State) (r : Reg) (v : Word) : Sticky s (s.store r v) := by
  cases r
  case hdrPush => exact pushHeader_sticky s _
  case key j => exact writeKey_sticky s j v
  all_goals exact ⟨id, id, id, id, id, fun _ => id⟩

theorem accepted_sticky (s : State) (i : Instr) : Sticky s (s.accepted i) := by
  cases i <;> exact ⟨id, id, id, id, id, fun _ => id⟩

/-- Both steps of phase `HASH` set all four valid bits together (R132, R176). -/
theorem stepHash_keyv {s t : State} (h : stepHash s = .next t) : t.keyv = Vector.replicate 4 true := by
  unfold stepHash at h
  split at h
  · cases h
    rfl
  · split at h
    · cases h
      rfl
    · cases h

theorem seqStep_keyv {s t : State} (hstep : seqStep s = .next t) :
    t.keyv = s.keyv ∨ t.keyv = Vector.replicate 4 true := by
  by_cases hp : s.phase = .hash
  · exact .inr (stepHash_keyv (by simpa only [seqStep, hp] using hstep))
  · exact .inl ((seqStep_frame hstep).hash hp).2

theorem seqStep_sticky {s t : State} (hstep : seqStep s = .next t) : Sticky s t := by
  have h := seqStep_frame hstep
  refine ⟨(h.errCmd ▸ ·), (h.errBusy ▸ ·), (h.errOperand ▸ ·), (h.errHdr ▸ ·), (h.errAddr ▸ ·), fun j hj => ?_⟩
  rcases seqStep_keyv hstep with hk | hk
  · rwa [hk]
  · simp [hk]

theorem regWrite_sticky {a : RegNum} {v : Word} {s t : State} (hw : regWrite a v s = .next t) : Sticky s t := by
  rcases regWrite_cases hw with ⟨e, rfl⟩ | ⟨_, r, _, _, _, rfl⟩ | ⟨_, i, _, _, _, rfl⟩
  · exact raise_sticky s e
  · exact store_sticky s r v
  · exact accepted_sticky s i

theorem regRead_sticky (s : State) (a : RegNum) : Sticky s (regRead a s) := by
  rcases regRead_cases a s with ⟨_, hr⟩ | ⟨r, _, hr⟩
  · exact hr ▸ (raise_sticky s .addr).record 0
  · exact hr ▸ (sticky_rfl s).record _

theorem hostEvent_sticky {x : HostAction} {s t : State} (hx : x.resets = false) (h : hostEvent x s = .next t) :
    Sticky s t := by
  rcases hostEvent_cases h with ⟨a, v, _, hw⟩ | ⟨_, a, rfl⟩ | ⟨hx', _⟩
  · exact regWrite_sticky hw
  · exact regRead_sticky s a
  · simp [hx] at hx'

theorem store_cfg (s : State) (r : Reg) (v : Word) : (s.store r v).cfg = s.cfg := by
  cases r
  case hdrPush =>
    simp only [State.store, State.pushHeader]
    split <;> rfl
  all_goals rfl

theorem accepted_cfg (s : State) (i : Instr) : (s.accepted i).cfg = s.cfg := by
  cases i <;> rfl

theorem hostEvent_cfg {x : HostAction} {s t : State} (h : hostEvent x s = .next t) : t.cfg = s.cfg := by
  rcases hostEvent_cases h with ⟨a, v, _, hw⟩ | ⟨_, a, rfl⟩ | ⟨_, rfl | ⟨v, rfl⟩⟩
  · rcases regWrite_cases hw with ⟨e, rfl⟩ | ⟨_, r, _, _, _, rfl⟩ | ⟨_, i, _, _, _, rfl⟩
    · rfl
    · exact store_cfg s r v
    · exact accepted_cfg s i
  · rcases regRead_cases a s with ⟨_, hr⟩ | ⟨r, _, hr⟩ <;> rw [hr] <;> rfl
  · rfl
  · rfl

theorem step_cfg {s t : State} (h : step s = .next t) : t.cfg = s.cfg := by
  rcases step_cases h with ⟨_, rfl⟩ | ⟨_, rfl⟩ | ⟨_, u, hu, rfl⟩ | ⟨_, x, _, u, _, hu, rfl⟩
  · rfl
  · rfl
  · exact (seqStep_frame hu).cfg
  · exact (hostEvent_cfg hu :)

theorem step_sticky {s t : State} (h : step s = .next t) (hreset : s.resetsNext = false) : Sticky s t := by
  rcases step_cases h with ⟨_, rfl⟩ | ⟨hm, _⟩ | ⟨_, u, hu, rfl⟩ | ⟨hm, x, rest, u, hprog, hu, rfl⟩
  · exact sticky_rfl t
  · simp [State.resetsNext, hm] at hreset
  · exact (seqStep_sticky hu).moveOn _ _
  · have hx : x.resets = false := by simpa [State.resetsNext, hm, hprog] using hreset
    exact (hostEvent_sticky hx hu).moveOn _ _

/-- Settles O33: the configuration is kept by every event, reset included; flags and key bits by every other one. -/
theorem stepsKeepConfigurationFlagsAndKeyBits : Obligations.StepsKeepConfigurationFlagsAndKeyBits := by
  intro s t h
  refine ⟨step_cfg h, fun hreset => ?_⟩
  have hs := step_sticky h hreset
  exact ⟨hs.errCmd, hs.errBusy, hs.errOperand, hs.errHdr, hs.errAddr, hs.keyv⟩

/-! ### What a sequencer step does not look at -/

theorem andThen_ite (c : Prop) [Decidable c] (a b : Result) (f : State → State) :
    andThen (if c then a else b) f = if c then andThen a f else andThen b f := by
  split <;> rfl

theorem andThen_complete_withFlagsAndReads (s r : State) (v : Verdict) :
    andThen (complete v s) (fun t => t.withFlagsAndReads r) = complete v (s.withFlagsAndReads r) := by
  simp only [complete_next, andThen_next, complete_eq]
  rfl

/-! Each branch condition and each written value is the same whatever the flags and the reads are, so once `andThen`
stands at the branches both sides are the same decision tree. -/

theorem stepHdrchk_withFlagsAndReads (s r : State) :
    stepHdrchk (s.withFlagsAndReads r) = andThen (stepHdrchk s) (fun t => t.withFlagsAndReads r) := by
  simp only [stepHdrchk, andThen_ite, andThen_complete_withFlagsAndReads]
  rfl

theorem stepHash_withFlagsAndReads (s r : State) :
    stepHash (s.withFlagsAndReads r) = andThen (stepHash s) (fun t => t.withFlagsAndReads r) := by
  simp only [stepHash, andThen_ite]
  rfl

theorem stepNode_withFlagsAndReads (s r : State) :
    stepNode (s.withFlagsAndReads r) = andThen (stepNode s) (fun t => t.withFlagsAndReads r) := by
  simp only [stepNode, andThen_ite]
  rfl

theorem stepScan_withFlagsAndReads (s r : State) :
    stepScan (s.withFlagsAndReads r) = andThen (stepScan s) (fun t => t.withFlagsAndReads r) := by
  simp only [stepScan, andThen_ite, andThen_complete_withFlagsAndReads]
  rfl

theorem stepXorchk_withFlagsAndReads (s r : State) :
    stepXorchk (s.withFlagsAndReads r) = andThen (stepXorchk s) (fun t => t.withFlagsAndReads r) := by
  simp only [stepXorchk, andThen_ite, andThen_complete_withFlagsAndReads]
  rfl

theorem stepWalk_withFlagsAndReads (s r : State) :
    stepWalk (s.withFlagsAndReads r) = andThen (stepWalk s) (fun t => t.withFlagsAndReads r) := by
  simp only [stepWalk, andThen_ite, andThen_complete_withFlagsAndReads]
  rfl

theorem seqStep_withFlagsAndReads (s r : State) :
    seqStep (s.withFlagsAndReads r) = andThen (seqStep s) (fun t => t.withFlagsAndReads r) := by
  have hphase : (s.withFlagsAndReads r).phase = s.phase := rfl
  unfold seqStep
  rw [hphase]
  cases s.phase with
  | idle => rfl
  | hdrchk => exact stepHdrchk_withFlagsAndReads s r
  | hash => exact stepHash_withFlagsAndReads s r
  | node => exact stepNode_withFlagsAndReads s r
  | scan => exact stepScan_withFlagsAndReads s r
  | xorchk => exact stepXorchk_withFlagsAndReads s r
  | walk => exact stepWalk_withFlagsAndReads s r

/-- Settles O36: in no phase does the sequencer look at the flags or the reads, so replacing them before the step or
after it is the same. -/
theorem sequencerIgnoresFlagsAndReads : Obligations.SequencerIgnoresFlagsAndReads :=
  seqStep_withFlagsAndReads

end Sys2Proof.Machine
end

section
/-! The verdict reads nothing but the `P` proof entries: each part of the verification gives the same on edges, and on
endpoint arrays, that agree within the proof (`42_cycle_verifier.md` R155). -/

namespace Sys2Proof.Machine

theorem scanVerdict_congr (c : Config) {p : Nat} {edges edges' : Nat → Word} (h : ∀ n < p, edges n = edges' n)
    (count n : Nat) (hn : n + count ≤ p) : scanVerdict c edges count n = scanVerdict c edges' count n := by
  induction count generalizing n with
  | zero => rfl
  | succ count ih =>
    simp only [scanVerdict, h n (by omega), h (n - 1) (by omega), ih (n + 1) (by omega)]

theorem xorSide_congr {p : Nat} {uvs uvs' : Nat → Word} (h : ∀ k < 2 * p, uvs k = uvs' k) {side : Nat}
    (hside : side < 2) : xorSide p uvs side = xorSide p uvs' side := by
  refine List.foldl_ext _ _ _ fun acc n hn => ?_
  have hn : n < p := List.mem_range.mp hn
  rw [h (2 * n + side) (by omega)]

/-- With no position at all there is no candidate either, so `i` need only be a position when there is one. -/
theorem matchesOf_congr {p i : Nat} {uvs uvs' : Nat → Word} (h : ∀ k < 2 * p, uvs k = uvs' k)
    (hi : 0 < p → i < 2 * p) : matchesOf p uvs i = matchesOf p uvs' i := by
  refine List.filter_congr fun k hk => ?_
  have hk : k < 2 * p := candidate_lt hk
  rw [h k hk, h i (hi (by omega))]

theorem findMatch_congr {p i : Nat} {uvs uvs' : Nat → Word} (h : ∀ k < 2 * p, uvs k = uvs' k)
    (hi : 0 < p → i < 2 * p) : findMatch p uvs i = findMatch p uvs' i := by
  simp only [findMatch, matchesOf_congr h hi]

theorem walkFrom_congr {p : Nat} {uvs uvs' : Nat → Word} (h : ∀ k < 2 * p, uvs k = uvs' k) (fuel i steps : Nat)
    (hi : 0 < p → i < 2 * p) : walkFrom p uvs fuel i steps = walkFrom p uvs' fuel i steps := by
  induction fuel generalizing i steps with
  | zero => rfl
  | succ fuel ih =>
    simp only [walkFrom, ← findMatch_congr h hi]
    by_cases hmany : (findMatch p uvs i).1 > 1
    · simp only [if_pos hmany]
    · by_cases hnone : (findMatch p uvs i).1 = 0
      · simp only [hnone, if_true]
      · have hnext := findMatch_cross_lt (p := p) (uvs := uvs) (i := i) (by omega)
        rw [ih _ _ fun _ => hnext]

theorem walkVerdict_congr {p : Nat} {uvs uvs' : Nat → Word} (h : ∀ k < 2 * p, uvs k = uvs' k) :
    walkVerdict p uvs = walkVerdict p uvs' := by
  have hwalk := walkFrom_congr h (p + 1) 0 0 fun hp => by omega
  simp only [walkVerdict, xorSide_congr h (side := 0) (by decide), xorSide_congr h (side := 1) (by decide), hwalk]

theorem endpoints_congr (c : Config) (key : Key) {p : Nat} {edges edges' : Nat → Word}
    (h : ∀ n < p, edges n = edges' n) : ∀ k < 2 * p, endpoints c key edges k = endpoints c key edges' k := by
  intro k hk
  rw [endpoints, endpoints, h (k / 2) (by omega)]

/-- Settles O50: step 1 reads only indices below `P`, and the array of `2*P` endpoints is made of those edges. -/
theorem verdictDependsOnTheProofAlone : Obligations.VerdictDependsOnTheProofAlone := by
  intro c edges edges' key h
  rw [verify, verify, scanVerdict_congr c h c.proofSize 0 (by omega), walkVerdict_congr (endpoints_congr c key h)]

end Sys2Proof.Machine
end

section
/-! The block right after reset, as its registers and words show it (`10_state.md` R43). -/

namespace Sys2Proof.Machine

theorem resetBlock_proofAt (s : State) (n : Nat) : s.resetBlock.proofAt n = 0 := rfl

theorem resetBlock_proofvAt (s : State) (n : Nat) : s.resetBlock.proofvAt n = false := rfl

theorem resetBlock_proofFull {s : State} (hc : s.cfg.wellFormed = true) : s.resetBlock.proofFull = false := by
  have hp := (wellFormed_proofSize hc).2.1
  refine Bool.eq_false_iff.mpr fun hfull => ?_
  have h0 : s.resetBlock.proofvAt 0 = true := (proofFull_iff _).mp hfull 0 (by show 0 < s.cfg.proofSize; omega)
  simp [resetBlock_proofvAt] at h0

theorem resetBlock_keyValidRead (s : State) : s.resetBlock.keyValidRead = false := rfl

/-- After reset no flag of `STATUS` is set, `PROOF_FULL` included since a proof has entries (R9). -/
theorem resetBlock_status {s : State} (hc : s.cfg.wellFormed = true) : s.resetBlock.view .status = 0 := by
  refine BitVec.eq_of_getLsbD_eq fun k _ => ?_
  simp [State.view, statusWord_getLsbD, resetBlock_proofFull hc, resetBlock_keyValidRead]

theorem resetBlock_verdict (s : State) : s.resetBlock.view .verdict = 0 := by
  simp [State.view, State.verdictWord, flagAt]

/-- Settles O31: every register is read off the reset state; the two words are `resetBlock_verdict` and
`resetBlock_status`. -/
theorem resetLeavesTheTable : Obligations.ResetLeavesTheTable := by
  intro s
  refine ⟨s.resetBlock, rfl, ?_⟩
  simpa [hostEvent, resetBlock_proofAt, resetBlock_proofvAt, resetBlock_verdict] using resetBlock_status

end Sys2Proof.Machine
end

section
/-! The register map and the accesses it does not allow, and the port while the block is busy (`20_memory.md` sections
1 and 4; `70_reset_and_hazards.md` section 3). -/

namespace Sys2Proof.Machine

/-! ### The register map -/

/-- The numbers of the `PROOF` window name the proof entries in order (R66). -/
theorem ofNumber_of_proof_window {c : Config} {a : RegNum} {n : Nat} (ha : a.toNat = proofBase + n)
    (hn : n < c.proofSize) : Reg.ofNumber c a = some (.proof n) := by
  have hbase : proofBase = 0x1000 := rfl
  unfold Reg.ofNumber
  split
  case h_16 => rw [ha, if_pos ⟨by omega, by omega⟩, Nat.add_sub_cancel_left]
  all_goals omega

/-- A valid configuration has at most 4096 proof entries, so the numbers of the window do not wrap around (R9, R66). -/
theorem toNat_proof_window {c : Config} (hc : c.wellFormed = true) {n : Nat} (hn : n < c.proofSize) :
    ((0x1000 : RegNum) + BitVec.ofNat 16 n).toNat = proofBase + n := by
  have hsize := (wellFormed_proofSize hc).2.2
  have hbase : (0x1000 : RegNum).toNat = 0x1000 := rfl
  simp only [proofBase, BitVec.toNat_add, BitVec.toNat_ofNat]
  omega

/-- The four key words stand at `0x0010` to `0x0013` in order (R66). -/
theorem ofNumber_key (c : Config) (j : Fin 4) :
    Reg.ofNumber c (0x0010 + BitVec.ofNat 16 j.val) = some (.key j) := by
  match j with
  | 0 => rfl
  | 1 => rfl
  | 2 => rfl
  | 3 => rfl

/-- Every mapped number is one of the first eleven, of a key word, or in the `PROOF` window (R66). -/
theorem ofNumber_ne_none_range {c : Config} {a : RegNum} (h : Reg.ofNumber c a ≠ none) :
    a.toNat ≤ 0x000A ∨ (0x0010 ≤ a.toNat ∧ a.toNat ≤ 0x0013) ∨
      (0x1000 ≤ a.toNat ∧ a.toNat < 0x1000 + c.proofSize) := by
  unfold Reg.ofNumber at h
  split at h
  case h_16 =>
    split at h
    · next hwindow =>
      simp only [proofBase] at hwindow
      omega
    · exact absurd rfl h
  all_goals omega

theorem writable_eq_false_iff (r : Reg) :
    r.writable = false ↔ r ∈ [.cfg0, .cfg1, .status, .verdict, .node, .hdrCount] := by
  cases r <;> simp [Reg.writable]

/-- Settles O22: the fixed numbers are read off the map; the window and the closure of the map are the lemmas above. -/
theorem registerMapIsTheTable : Obligations.RegisterMapIsTheTable := by
  intro c hc
  refine ⟨⟨rfl, rfl, rfl, rfl, rfl, rfl, rfl, rfl, rfl, rfl, rfl⟩, ofNumber_key c, fun n hn => ?_,
    fun a => ofNumber_ne_none_range, writable_eq_false_iff, fun s => ⟨rfl, rfl⟩⟩
  exact ofNumber_of_proof_window (toNat_proof_window hc hn) hn

/-! ### Accesses the map does not allow -/

theorem raise_addr (s : State) : s.raise .addr = { s with errAddr := true } := by
  simp [State.raise]

theorem regWrite_of_unmapped {s : State} {a : RegNum} (h : Reg.ofNumber s.cfg a = none) (v : Word) :
    regWrite a v s = .next (s.raise .addr) := by
  simp [regWrite, h]

theorem regWrite_of_not_writable {s : State} {a : RegNum} {r : Reg} (h : Reg.ofNumber s.cfg a = some r)
    (hr : r.writable = false) (v : Word) : regWrite a v s = .next (s.raise .addr) := by
  unfold regWrite
  split
  · rfl
  · next hcmd =>
    obtain rfl : r = .cmd := by simpa [h] using hcmd
    cases hr
  · next q _ hq =>
    obtain rfl : r = q := by simpa [h] using hq
    simp [hr]

theorem regRead_of_unmapped {s : State} {a : RegNum} (h : Reg.ofNumber s.cfg a = none) :
    regRead a s = (s.raise .addr).record 0 := by
  rcases regRead_cases a s with ⟨_, hread⟩ | ⟨q, hq, _⟩
  · exact hread
  · simp [h] at hq

theorem regRead_of_mapped {s : State} {a : RegNum} {r : Reg} (h : Reg.ofNumber s.cfg a = some r) :
    regRead a s = s.record (s.view r) := by
  rcases regRead_cases a s with ⟨hnone, _⟩ | ⟨q, hq, hread⟩
  · simp [h] at hnone
  · obtain rfl : r = q := by simpa [h] using hq
    exact hread

/-- Settles O21: a refused access raises `ERR_ADDR`; `CMD` and `HDR_PUSH` are mapped, so reading them raises nothing. -/
theorem accessesTheMapDoesNotAllow : Obligations.AccessesTheMapDoesNotAllow := by
  intro s a v
  refine ⟨fun hnone => ⟨?_, ?_⟩, fun r hr hro => ?_, ?_⟩
  · rw [regWrite_of_unmapped hnone, raise_addr]
  · rw [regRead_of_unmapped hnone, raise_addr]
    rfl
  · rw [regWrite_of_not_writable hr hro, raise_addr]
  · rintro (rfl | rfl)
    · exact regRead_of_mapped (r := .cmd) rfl
    · exact regRead_of_mapped (r := .hdrPush) rfl

/-! ### The port while the block is busy -/

/-- While busy a register write can only raise a flag: storing and accepting need an idle block (R204, R230). -/
theorem regWrite_busy_raises {a : RegNum} {v : Word} {s t : State} (hb : s.busy = true)
    (hw : regWrite a v s = .next t) : ∃ e, t = s.raise e := by
  rcases regWrite_cases hw with hraise | ⟨hidle, _⟩ | ⟨hidle, _⟩
  · exact hraise
  · simp [hb] at hidle
  · simp [hb] at hidle

theorem raise_eq_withFlagsAndReads (s : State) (e : Err) : s.raise e = s.withFlagsAndReads (s.raise e) := rfl

/-- A read changes only the record and, at an unmapped number, a flag, busy or not (R65, R67). -/
theorem regRead_eq_withFlagsAndReads (s : State) (a : RegNum) : regRead a s = s.withFlagsAndReads (regRead a s) := by
  rcases regRead_cases a s with ⟨_, hread⟩ | ⟨r, _, hread⟩
  · rw [hread]
    rfl
  · rw [hread]
    rfl

/-- Settles O35: a line that is no reset is a write, which can only raise a flag while busy, or a read. -/
theorem busyHostAccessesDisturbNothing : Obligations.BusyHostAccessesDisturbNothing := by
  intro s t x hb hx h
  rcases hostEvent_cases h with ⟨a, v, _, hw⟩ | ⟨_, a, rfl⟩ | ⟨hreset, _⟩
  · obtain ⟨e, rfl⟩ := regWrite_busy_raises hb hw
    exact raise_eq_withFlagsAndReads s e
  · exact regRead_eq_withFlagsAndReads s a
  · simp [hx] at hreset

end Sys2Proof.Machine
end

section
/-! The decoder and the encoder, both read through the three fields of a command word: `OPCODE`, bit 8 and the reserved
bits (`30_encoding.md` R81, R84, R85). -/

namespace Sys2Proof

/-! ### The fields of a word -/

/-- The three fields cover every bit of a word, so they determine it (R81). -/
theorem eq_of_fields_eq {w v : Word} (hreserved : reservedField w = reservedField v)
    (hopcode : opcodeField w = opcodeField v) (hside : sideField w = sideField v) : w = v := by
  simp only [reservedField, opcodeField, sideField, ← BitVec.toNat_inj, BitVec.extractLsb'_toNat,
    Nat.shiftRight_eq_div_pow] at hreserved hopcode hside
  refine BitVec.eq_of_toNat_eq ?_
  omega

theorem eq_iff_fields_eq {w v : Word} :
    w = v ↔ reservedField w = reservedField v ∧ opcodeField w = opcodeField v ∧ sideField w = sideField v :=
  ⟨fun h => h ▸ ⟨rfl, rfl, rfl⟩, fun ⟨hr, ho, hs⟩ => eq_of_fields_eq hr ho hs⟩

@[simp] theorem reservedField_and (w v : Word) : reservedField (w &&& v) = reservedField w &&& reservedField v :=
  BitVec.extractLsb'_and

@[simp] theorem opcodeField_and (w v : Word) : opcodeField (w &&& v) = opcodeField w &&& opcodeField v :=
  BitVec.extractLsb'_and

@[simp] theorem sideField_and (w v : Word) : sideField (w &&& v) = sideField w &&& sideField v :=
  BitVec.extractLsb'_and

/-! ### The decoder -/

theorem formatN_eq_some_iff {side : BitVec 1} {i j : Instr} : formatN side i = some j ↔ side = 0 ∧ i = j := by
  simp [formatN]

theorem formatN_eq_none_iff {side : BitVec 1} {i : Instr} : formatN side i = none ↔ side ≠ 0 := by
  simp [formatN]

/-- A decoded operation has the opcode and the side bit of its word, and the reserved bits are 0 (R81, R84). -/
theorem fields_of_decode {w : Word} {i : Instr} (h : decode w = some i) :
    reservedField w = 0 ∧ opcodeField w = i.opcode ∧ sideField w = i.sideBit := by
  unfold decode at h
  split at h
  · cases h
  next hreserved =>
    refine ⟨not_not.mp hreserved, ?_⟩
    split at h
    case h_8 => cases h
    case h_3 hop | h_4 hop =>
      cases h
      exact ⟨BitVec.eq_of_toNat_eq hop, rfl⟩
    all_goals
      next hop =>
      obtain ⟨hside, rfl⟩ := formatN_eq_some_iff.mp h
      exact ⟨BitVec.eq_of_toNat_eq hop, hside⟩

/-- Nothing but the three fields decides what a word means. -/
theorem decode_of_fields {w : Word} {i : Instr} (hreserved : reservedField w = 0)
    (hopcode : opcodeField w = i.opcode) (hside : sideField w = i.sideBit) : decode w = some i := by
  unfold decode
  rw [if_neg (not_not.mpr hreserved), hopcode, hside]
  cases i <;> rfl

theorem decode_eq_some_iff {w : Word} {i : Instr} :
    decode w = some i ↔ reservedField w = 0 ∧ opcodeField w = i.opcode ∧ sideField w = i.sideBit :=
  ⟨fields_of_decode, fun ⟨hr, ho, hs⟩ => decode_of_fields hr ho hs⟩

theorem decode_eq_none_iff_illegalWord (w : Word) : decode w = none ↔ illegalWord w := by
  unfold decode illegalWord
  by_cases hreserved : reservedField w = 0
  · rw [if_neg (not_not.mpr hreserved)]
    split
    case h_8 =>
      simp only [imp_false] at *
      exact iff_of_true trivial (.inl (by omega))
    all_goals simp [*, formatN_eq_none_iff]
  · rw [if_pos hreserved]
    exact iff_of_true rfl (.inr (.inl hreserved))

/-! ### The encoder -/

theorem encodedWord (i : Instr) : Laws.EncodedWord.Statement i := by
  cases i with
  | nop => exact Laws.EncodedWord.nop
  | deriveKey => exact Laws.EncodedWord.deriveKey
  | sipnode side => exact Laws.EncodedWord.sipnode side
  | sipnodeTagged side => exact Laws.EncodedWord.sipnodeTagged side
  | verify => exact Laws.EncodedWord.verify
  | verifyHeader => exact Laws.EncodedWord.verifyHeader
  | clear => exact Laws.EncodedWord.clear

theorem encode_eq_iff_fields {w : Word} {i : Instr} :
    encode i = w ↔ reservedField w = 0 ∧ opcodeField w = i.opcode ∧ sideField w = i.sideBit := by
  obtain ⟨_, hopcode, hside, hreserved⟩ := encodedWord i
  rw [eq_comm, eq_iff_fields_eq, hopcode, hside, hreserved]

theorem decode_eq_some_iff_encode {w : Word} {i : Instr} : decode w = some i ↔ encode i = w :=
  decode_eq_some_iff.trans encode_eq_iff_fields.symm

theorem decode_encode (i : Instr) : decode (encode i) = some i :=
  decode_eq_some_iff_encode.mpr rfl

/-- Settles O1: a word decodes to an operation, and is encoded from it, under the same condition on its fields. -/
theorem decodeAndEncodeAgree : Obligations.DecodeAndEncodeAgree :=
  fun _ _ => decode_eq_some_iff_encode

/-! ### The rows of the opcode map -/

/-- The mask keeps all of `OPCODE` and the reserved bits, and at most drops bit 8 (R84). -/
theorem fields_of_row_match {w : Word} {i : Instr} (h : w &&& i.row.mask = i.row.pattern) :
    reservedField w = 0 ∧ opcodeField w = i.opcode ∧ sideField w &&& sideField i.row.mask = 0 := by
  have hmask : reservedField i.row.mask = BitVec.allOnes 55 ∧ opcodeField i.row.mask = BitVec.allOnes 8 := by
    cases i <;> simp only [Instr.row] <;> decide
  have hpattern : reservedField i.row.pattern = 0 ∧ opcodeField i.row.pattern = i.opcode ∧
      sideField i.row.pattern = 0 := by
    cases i <;> simp only [Instr.row, Instr.opcode] <;> decide
  simpa only [eq_iff_fields_eq, reservedField_and, opcodeField_and, sideField_and, hmask, hpattern,
    BitVec.and_allOnes] using h

/-- Where the mask drops bit 8 (format S) the row has an operation for either side; elsewhere bit 8 is 0 (R82). -/
theorem exists_row_sideBit {i : Instr} {side : BitVec 1} (h : side &&& sideField i.row.mask = 0) :
    ∃ j : Instr, j.row = i.row ∧ j.opcode = i.opcode ∧ j.sideBit = side := by
  cases i with
  | sipnode => exact ⟨.sipnode side, rfl, rfl, rfl⟩
  | sipnodeTagged => exact ⟨.sipnodeTagged side, rfl, rfl, rfl⟩
  | _ => exact ⟨_, rfl, rfl, by revert side; decide⟩

/-- Settles O3: the encoded word of an operation matches its row, and a word that matches a row is that of the row's
operation with the word's bit 8. -/
theorem decodeFollowsMaskAndMatch : Obligations.DecodeFollowsMaskAndMatch := by
  refine fun w i => ⟨?_, fun hmatch => ?_⟩
  · rintro ⟨j, hdecode, hrow⟩
    rw [← hrow, ← decode_eq_some_iff_encode.mp hdecode]
    exact (encodedWord j).1
  · obtain ⟨hreserved, hopcode, hside⟩ := fields_of_row_match hmatch
    obtain ⟨j, hrow, hj, hbit⟩ := exists_row_sideBit hside
    exact ⟨j, decode_of_fields hreserved (hopcode.trans hj.symm) hbit.symm, hrow⟩

/-- Settles O4: the legal words are the encoder's; the illegal ones fail by the opcode, by bit 8 in format N, and by a
reserved bit each. -/
theorem opcodeMapWordsDecode : Obligations.OpcodeMapWordsDecode := by
  have hillegal : ∀ {w : Word}, illegalWord w → decode w = none := (decode_eq_none_iff_illegalWord _).mpr
  exact ⟨decode_encode .nop, decode_encode .deriveKey, decode_encode (.sipnode 0), decode_encode (.sipnode 1),
    decode_encode (.sipnodeTagged 0), decode_encode (.sipnodeTagged 1), decode_encode .verify,
    decode_encode .verifyHeader, decode_encode .clear, hillegal (.inl (by decide)),
    hillegal (.inr (.inr (by decide))), hillegal (.inr (.inl (by decide))), hillegal (.inr (.inl (by decide)))⟩

end Sys2Proof
end

section
/-! What a `CMD` write does: an illegal word, a legal one as the host's next event, and what each accepted operation
leaves (`30_encoding.md` R83, R85, R87; `70_reset_and_hazards.md` R242). -/

namespace Sys2Proof.Machine

/-! ### The `CMD` write -/

/-- `CMD` is mapped at `0x0003`, so a write there is a command word (R66, R83). -/
theorem regWrite_cmd (w : Word) (s : State) : regWrite 0x0003 w s = writeCmd w s := rfl

theorem writeCmd_of_decode {w : Word} {i : Instr} (h : decode w = some i) (s : State) : writeCmd w s = exec i s := by
  simp [writeCmd, h]

theorem writeCmd_illegal_idle {w : Word} {s : State} (h : decode w = none) (hb : s.busy = false) :
    writeCmd w s = .next (s.raise .cmd) := by
  simp [writeCmd, h, hb]

theorem raise_cmd (s : State) : s.raise .cmd = { s with errCmd := true } := by
  simp [State.raise]

/-- Settles O2: the decoder's refusals are `illegalWord`, and an idle block answers one with `ERR_CMD` alone. -/
theorem illegalWordsStartNothing : Obligations.IllegalWordsStartNothing := by
  refine ⟨decode_eq_none_iff_illegalWord, fun s w hillegal hb => ?_⟩
  rw [regWrite_cmd, writeCmd_illegal_idle hillegal hb, raise_cmd]

/-! ### The host's next access as the next event -/

theorem step_of_host {s : State} {x : HostAction} {rest : List HostAction} (hc : s.cfg.wellFormed = true)
    (hprog : s.program = x :: rest) (hm : s.mover = some .host) :
    step s = andThen (hostEvent x s) (s.moveOn .host (x.doneAfter s)) := by
  simp [step, agentEvent, hc, hm, hprog]

/-- Settles O5: the host's event is the `CMD` write, the `CMD` write is `exec`, and a write is done after one event. -/
theorem stepRunsTheDecodedCommand : Obligations.StepRunsTheDecodedCommand := by
  intro s w i rest hc hprog hm hdecode
  have hevent : hostEvent (.wr 0x0003 w) s = exec i s := (regWrite_cmd w s).trans (writeCmd_of_decode hdecode s)
  rw [step_of_host hc hprog hm, hevent]
  rfl

/-- A `WAIT` line reads `STATUS`, which is mapped (R66, R92). -/
theorem hostEvent_wait (s : State) : hostEvent .wait s = .next (s.record (s.view .status)) :=
  congrArg Host.Outcome.next (regRead_of_mapped (r := .status) rfl)

/-- Settles O7: the read records `STATUS`, and the line is done exactly when the block was idle. -/
theorem waitReadsStatusUntilIdle : Obligations.WaitReadsStatusUntilIdle := by
  intro s rest hc hprog hm
  refine ⟨s.moveOn .host (HostAction.wait.doneAfter s) (s.record (s.view .status)), ?_, rfl, ?_⟩
  · rw [step_of_host hc hprog hm, hostEvent_wait, andThen_next]
  · cases hb : s.busy <;> simp [State.moveOn, HostAction.doneAfter, hb, hprog]

/-! ### Accepted operations -/

theorem exec_of_ready {i : Instr} {s : State} (hb : s.busy = false) (ho : s.operandsReady i = true) :
    exec i s = .next (s.accepted i) := by
  simp [exec_eq, hb, ho]

theorem edgeReady_of {s : State} (hk : s.keyValid = true) (he : s.argEdge ≤ Config.edgeMask s.cfg) :
    s.edgeReady = true := by
  simp [State.edgeReady, hk, he]

theorem seqStep_of_sipnode {t : State} (hp : t.phase = .node) (ho : t.opc = Instr.opcode (.sipnode 0)) :
    seqStep t = .next t.finishSipnode := by
  simp only [seqStep, hp, stepNode, if_pos ho]

theorem seqStep_of_sipnodeTagged {t : State} (hp : t.phase = .node)
    (ho : t.opc = Instr.opcode (.sipnodeTagged 0)) : seqStep t = .next t.finishSipnodeTagged := by
  have hne : t.opc ≠ Instr.opcode (.sipnode 0) := by rw [ho]; decide
  simp only [seqStep, hp, stepNode, if_neg hne, if_pos ho]

theorem seqStep_of_deriveKey {t : State} (hp : t.phase = .hash) (ho : t.opc = Instr.opcode .deriveKey) :
    seqStep t = .next t.finishDeriveKey := by
  simp only [seqStep, hp, stepHash, if_pos ho]

/-- Settles O11: acceptance latches opcode and side, and the step of phase `NODE` writes the endpoint of R107. -/
theorem sipnodeLeavesTheEndpoint : Obligations.SipnodeLeavesTheEndpoint := by
  intro s side hb hk he
  exact ⟨s.accepted (.sipnode side), exec_of_ready hb (edgeReady_of hk he), rfl, seqStep_of_sipnode rfl rfl⟩

/-- Settles O12: as for `SIPNODE`; the latched opcode selects the tagged form of R109. -/
theorem sipnodeTaggedLeavesTheTaggedEndpoint : Obligations.SipnodeTaggedLeavesTheTaggedEndpoint := by
  intro s side hb hk he
  exact ⟨s.accepted (.sipnodeTagged side), exec_of_ready hb (edgeReady_of hk he), rfl,
    seqStep_of_sipnodeTagged rfl rfl⟩

/-- Settles O13: the header and the keying mode at the step of phase `HASH` are those of the acceptance. -/
theorem deriveKeyLeavesTheKey : Obligations.DeriveKeyLeavesTheKey := by
  intro s hb hovf hlen
  have hready : s.headerReady = true := by simp [State.headerReady, hovf, hlen]
  exact ⟨s.accepted .deriveKey, exec_of_ready hb hready, rfl, seqStep_of_deriveKey rfl rfl⟩

/-- Settles O14: `VERIFY` asks for key and proof, `VERIFY_HEADER` for the proof alone (R87). -/
theorem verificationsAreAccepted : Obligations.VerificationsAreAccepted := by
  intro s hb hfull
  refine ⟨fun hk => ?_, exec_of_ready (i := .verifyHeader) hb hfull⟩
  have hready : s.proofReady = true := by simp [State.proofReady, hk, hfull]
  exact exec_of_ready (i := .verify) hb hready

end Sys2Proof.Machine
end

section
/-! The two forms of the endpoint as numbers, and the check values of the default functions
(`40_edge_endpoint_generator.md` section 3, `41_header_key_derivation.md` R127). -/

namespace Sys2Proof.Machine

/-! ### The two forms of the endpoint -/

theorem two_pow_edgeBits_le {c : Config} (hc : c.wellFormed = true) : 2 ^ c.edgeBits ≤ 2 ^ 63 :=
  Nat.pow_le_pow_right (by decide) (wellFormed_edgeBits hc).2

/-- At most 63 bits of an endpoint leave one bit free for the side (R9, R109). -/
theorem sipnode_lt_two_pow_63 {c : Config} (hc : c.wellFormed = true) (key : Key) (e : Word) (side : BitVec 1) :
    (sipnode c key e side).toNat < 2 ^ 63 :=
  Nat.lt_of_lt_of_le (sipnode_lt hc key e side) (two_pow_edgeBits_le hc)

theorem toNat_side (side : BitVec 1) : (side.setWidth 64).toNat = side.toNat :=
  BitVec.toNat_setWidth_of_le (by decide)

/-- The input of `PRF` does not wrap around for an edge in range (R107). -/
theorem prfInput_toNat {c : Config} (hc : c.wellFormed = true) {e : Word} (he : e ≤ Config.edgeMask c)
    (side : BitVec 1) : (2 * e + side.setWidth 64).toNat = 2 * e.toNat + side.toNat := by
  have hmask := edgeMask_toNat hc
  have hbits := two_pow_edgeBits_le hc
  have hle := BitVec.le_def.mp he
  have hside := side.isLt
  have htwo : (2 : Word).toNat = 2 := rfl
  rw [BitVec.toNat_add, BitVec.toNat_mul, toNat_side, htwo]
  omega

/-- The side stands in the bit that the shift has freed, so the OR adds it (R109). -/
theorem sipnodeTagged_toNat {c : Config} (hc : c.wellFormed = true) (key : Key) (e : Word) (side : BitVec 1) :
    (sipnodeTagged c key e side).toNat = 2 * (sipnode c key e side).toNat + side.toNat := by
  have hnode := sipnode_lt_two_pow_63 hc key e side
  have hside : (side.setWidth 64).toNat < 2 ^ 1 := by rw [toNat_side]; exact side.isLt
  rw [sipnodeTagged, BitVec.or_comm, toNat_or_shiftLeft hside (by omega), toNat_side]
  omega

/-- Settles O37: the mask keeps an edge and an endpoint below `2 ^ EDGEBITS`, and one more bit fits a word. -/
theorem endpointRanges : Obligations.EndpointRanges := by
  intro c key e side hc he
  have hnode := sipnode_lt hc key e side
  have htagged := sipnodeTagged_toNat hc key e side
  have hside := side.isLt
  exact ⟨prfInput_toNat hc he side, hnode, htagged, by omega⟩

theorem sipnodeTagged_shiftRight {c : Config} (hc : c.wellFormed = true) (key : Key) (e : Word) (side : BitVec 1) :
    sipnodeTagged c key e side >>> 1 = sipnode c key e side := by
  have hside := side.isLt
  apply BitVec.eq_of_toNat_eq
  rw [BitVec.toNat_ushiftRight, sipnodeTagged_toNat hc, Nat.shiftRight_eq_div_pow]
  omega

theorem sipnodeTagged_and_one {c : Config} (hc : c.wellFormed = true) (key : Key) (e : Word) (side : BitVec 1) :
    sipnodeTagged c key e side &&& 1 = side.setWidth 64 := by
  have hside := side.isLt
  have hone : (1 : Word).toNat = 1 := rfl
  apply BitVec.eq_of_toNat_eq
  rw [BitVec.toNat_and, sipnodeTagged_toNat hc, toNat_side, hone, Nat.and_one_is_mod]
  omega

/-- Settles O38: a tagged value is `2 * node + side`, and a number has one quotient and one remainder by 2. -/
theorem taggedFormHoldsNodeAndSide : Obligations.TaggedFormHoldsNodeAndSide := by
  intro c key key' e e' side side' hc
  refine ⟨sipnodeTagged_shiftRight hc key e side, sipnodeTagged_and_one hc key e side, ?_⟩
  have hside := side.isLt
  have hside' := side'.isLt
  simp only [← BitVec.toNat_inj, sipnodeTagged_toNat hc]
  omega

/-! ### Check values of the default functions -/

/-- A digest as the number whose big-endian bytes it is, as R127 writes its check values. -/
def digestNumber (d : Vector Byte 32) : Nat := d.toList.foldl (fun acc b => acc * 256 + b.toNat) 0

/-- `H256("")`: the empty message is one block of zero bytes (R126). -/
theorem digestNumber_empty :
    digestNumber (blake2b256 []) = 0x0e5751c026e543b2e8ab2eb06099daa1d1e5df47778f7787faab45cdf12fe3a8 := by
  decide +kernel

/-- `H256("abc")`: one block, filled up with zero bytes (R126). -/
theorem digestNumber_abc :
    digestNumber (blake2b256 [0x61, 0x62, 0x63]) =
      0xbddd813c634239723171ef3fee98579b94964e3bb1cb3e427262c8c068d52319 := by
  decide +kernel

/-- 128 bytes: the one full block is the final block (R126). -/
theorem digestNumber_one_full_block :
    digestNumber (blake2b256 (List.replicate 128 0)) =
      0x378d0caaaa3855f1b38693c1d6ef004fd118691c95c959d4efa950d6d6fcf7c1 := by
  decide +kernel

/-- 129 bytes: a full block that is not the final one, and a final block of one byte (R126). -/
theorem digestNumber_two_blocks :
    digestNumber (blake2b256 (List.replicate 129 0)) =
      0xbaadfb64c3bd2cd187b54accc5e61a0720ed86bf48c28017873536cf9015d1b8 := by
  decide +kernel

/-- Settles O39: each value is one evaluation of the model's function; the digests as `digestNumber` reads them. -/
theorem defaultFunctionValues : Obligations.DefaultFunctionValues := by
  refine ⟨by decide +kernel, ?_⟩
  show [digestNumber (blake2b256 []), digestNumber (blake2b256 [0x61, 0x62, 0x63]),
    digestNumber (blake2b256 (List.replicate 128 0)), digestNumber (blake2b256 (List.replicate 129 0))] = _
  rw [digestNumber_empty, digestNumber_abc, digestNumber_one_full_block, digestNumber_two_blocks]

end Sys2Proof.Machine
end

section
/-! The derived key: the bytes of its words in default mode, and the legacy transform
(`41_header_key_derivation.md` R128 to R131). -/

namespace Sys2Proof.Machine

/-! ### The bytes of a little-endian word -/

/-- A word that holds the byte `x` as its byte `m`, and 0 in its other bytes. -/
def placeByte (x : Byte) (m : Nat) : Word := x.setWidth 64 <<< (8 * m)

theorem placeByte_extractLsb' (x : Byte) (m : Nat) {b : Nat} (hb : b < 8) :
    (placeByte x m).extractLsb' (8 * b) 8 = if m = b then x else 0 := by
  ext k hk
  rw [placeByte, BitVec.getElem_extractLsb', BitVec.getLsbD_shiftLeft, BitVec.getLsbD_setWidth]
  obtain hlt | rfl | hgt := Nat.lt_trichotomy m b
  · have habove : x.getLsbD (8 * b + k - 8 * m) = false := BitVec.getLsbD_of_ge _ _ (by omega)
    simp [habove, hlt.ne]
  · have hin : 8 * m + k < 64 := by omega
    simp [hin, show k < 64 by omega, BitVec.getLsbD_eq_getElem hk]
  · have hbelow : 8 * b + k < 8 * m := by omega
    simp [hbelow, hgt.ne']

/-- `le64` joins eight placed bytes, the first in the lowest place (R128). -/
theorem le64_eq_placeByte (d : Vector Byte 8) :
    le64 d = placeByte d[0] 0 ||| placeByte d[1] 1 ||| placeByte d[2] 2 ||| placeByte d[3] 3 |||
      placeByte d[4] 4 ||| placeByte d[5] 5 ||| placeByte d[6] 6 ||| placeByte d[7] 7 := by
  simp [le64, placeByte]

/-- Of the eight placed bytes only byte `b` shows in place `b`. -/
theorem le64_extractLsb' (d : Vector Byte 8) (b : Fin 8) : (le64 d).extractLsb' (8 * b.val) 8 = d[b] := by
  simp only [le64_eq_placeByte, BitVec.extractLsb'_or, placeByte_extractLsb' _ _ b.isLt]
  fin_cases b <;> simp

/-! ### The two keying modes -/

theorem hashWords_getElem (d : Vector Byte 32) (j : Fin 4) :
    (hashWords d)[j] = le64 (Vector.ofFn (fun b : Fin 8 => d[8 * j.val + b.val]'(by omega))) := by
  simp [hashWords]

theorem deriveKey_default (c : Config) (header : List Byte) :
    deriveKey c header false = hashWords (h256 c header) := rfl

theorem deriveKey_legacy (c : Config) (header : List Byte) :
    deriveKey c header true = keyOfWords c (deriveKey c header false) true := rfl

/-- Settles O40: a default key word is `le64` of eight digest bytes, and `le64` keeps byte `b` in place `b`. -/
theorem keyWordsAreLittleEndian : Obligations.KeyWordsAreLittleEndian := by
  intro c header j b
  rw [deriveKey_default, hashWords_getElem, le64_extractLsb']
  simp

/-- Two words masked from one word differ as their masks do: the hash word cancels (R131). -/
theorem xor_mask_xor_mask (w x y : Word) : (w ^^^ x) ^^^ (w ^^^ y) = x ^^^ y := by
  rw [BitVec.xor_comm w x, BitVec.xor_assoc, ← BitVec.xor_assoc w w y, BitVec.xor_self, BitVec.zero_xor]

/-- Settles O41: legacy words 0 and 2 mask one default word, and so do legacy words 1 and 3. -/
theorem legacyKeyWords : Obligations.LegacyKeyWords := by
  intro c header
  rw [deriveKey_legacy]
  exact ⟨rfl, xor_mask_xor_mask _ _ _, xor_mask_xor_mask _ _ _⟩

end Sys2Proof.Machine
end

section
/-! Step 1 of the verification and the order of the rejections (`42_cycle_verifier.md` sections 2 and 6,
`43_top_level_and_housekeeping.md` R175). -/

namespace Sys2Proof.Machine

/-! ### One edge of step 1 -/

/-- The edge at index `n` passes step 1: in range, and above the edge before it (R142, R143). -/
def EdgePasses (c : Config) (edges : Nat → Word) (n : Nat) : Prop :=
  edges n ≤ Config.edgeMask c ∧ (n > 0 → edges (n - 1) < edges n)

/-- The edge at index `n` is rejected with `v`, the bound check first (R144). -/
def EdgeRejected (c : Config) (edges : Nat → Word) (n : Nat) (v : Verdict) : Prop :=
  (v = .tooBig ∧ Config.edgeMask c < edges n) ∨
    (v = .tooSmall ∧ edges n ≤ Config.edgeMask c ∧ n > 0 ∧ edges n ≤ edges (n - 1))

theorem edgePasses_or_rejected (c : Config) (edges : Nat → Word) (n : Nat) :
    EdgePasses c edges n ∨ ∃ v, EdgeRejected c edges n v := by
  by_cases hbig : Config.edgeMask c < edges n
  · exact .inr ⟨.tooBig, .inl ⟨rfl, hbig⟩⟩
  · have hle : edges n ≤ Config.edgeMask c := BitVec.not_lt.mp hbig
    by_cases hsmall : n > 0 ∧ edges n ≤ edges (n - 1)
    · exact .inr ⟨.tooSmall, .inr ⟨rfl, hle, hsmall⟩⟩
    · exact .inl ⟨hle, fun hn => BitVec.not_le.mp fun hx => hsmall ⟨hn, hx⟩⟩

theorem scanVerdict_succ_of_passes {c : Config} {edges : Nat → Word} {n : Nat} (h : EdgePasses c edges n)
    (count : Nat) : scanVerdict c edges (count + 1) n = scanVerdict c edges count (n + 1) := by
  obtain ⟨hle, hlt⟩ := h
  have hsmall : ¬ (n > 0 ∧ edges n ≤ edges (n - 1)) := fun ⟨hn, hx⟩ => BitVec.not_lt.mpr hx (hlt hn)
  rw [scanVerdict, if_neg (BitVec.not_lt.mpr hle), if_neg hsmall]

theorem scanVerdict_succ_of_rejected {c : Config} {edges : Nat → Word} {n : Nat} {v : Verdict}
    (h : EdgeRejected c edges n v) (count : Nat) : scanVerdict c edges (count + 1) n = some v := by
  rcases h with ⟨rfl, hbig⟩ | ⟨rfl, hle, hsmall⟩
  · rw [scanVerdict, if_pos hbig]
  · rw [scanVerdict, if_neg (BitVec.not_lt.mpr hle), if_pos hsmall]

/-! ### The whole scan -/

/-- Edges that pass are left behind. -/
theorem scanVerdict_eq_of_passes {c : Config} {edges : Nat → Word} {p n : Nat} (hn : n ≤ p)
    (h : ∀ k < n, EdgePasses c edges k) : scanVerdict c edges p 0 = scanVerdict c edges (p - n) n := by
  induction n with
  | zero => rfl
  | succ n ih =>
    rw [ih (by omega) fun k hk => h k (by omega), ← scanVerdict_succ_of_passes (h n (by omega))]
    congr 1
    omega

theorem scanVerdict_of_first_rejected {c : Config} {edges : Nat → Word} {p n : Nat} {v : Verdict} (hn : n < p)
    (h : ∀ k < n, EdgePasses c edges k) (hv : EdgeRejected c edges n v) : scanVerdict c edges p 0 = some v := by
  have hcount : p - n = p - n - 1 + 1 := by omega
  rw [scanVerdict_eq_of_passes hn.le h, hcount, scanVerdict_succ_of_rejected hv]

theorem scanVerdict_of_all_pass {c : Config} {edges : Nat → Word} {p : Nat} (h : ∀ k < p, EdgePasses c edges k) :
    scanVerdict c edges p 0 = none := by
  rw [scanVerdict_eq_of_passes le_rfl h, Nat.sub_self, scanVerdict]

/-- A sequence passes as a whole, or there is a first rejected edge. -/
theorem all_pass_or_first_rejected (c : Config) (edges : Nat → Word) (p : Nat) :
    (∀ k < p, EdgePasses c edges k) ∨
      ∃ n < p, (∀ k < n, EdgePasses c edges k) ∧ ∃ v, EdgeRejected c edges n v := by
  induction p with
  | zero => exact .inl fun k hk => absurd hk (Nat.not_lt_zero k)
  | succ p ih =>
    rcases ih with hall | ⟨n, hn, hfirst⟩
    · rcases edgePasses_or_rejected c edges p with hp | hp
      · exact .inl (Nat.forall_lt_succ_right.mpr ⟨hall, hp⟩)
      · exact .inr ⟨p, by omega, hall, hp⟩
    · exact .inr ⟨n, by omega, hfirst⟩

theorem scanVerdict_eq_none_iff {c : Config} {edges : Nat → Word} {p : Nat} :
    scanVerdict c edges p 0 = none ↔ ∀ k < p, EdgePasses c edges k := by
  refine ⟨fun h => ?_, scanVerdict_of_all_pass⟩
  rcases all_pass_or_first_rejected c edges p with hall | ⟨n, hn, hpass, v, hv⟩
  · exact hall
  · simp [scanVerdict_of_first_rejected hn hpass hv] at h

theorem scanVerdict_eq_some_iff {c : Config} {edges : Nat → Word} {p : Nat} {v : Verdict} :
    scanVerdict c edges p 0 = some v ↔ ∃ n < p, (∀ k < n, EdgePasses c edges k) ∧ EdgeRejected c edges n v := by
  refine ⟨fun h => ?_, fun ⟨n, hn, hpass, hv⟩ => scanVerdict_of_first_rejected hn hpass hv⟩
  rcases all_pass_or_first_rejected c edges p with hall | ⟨n, hn, hpass, w, hw⟩
  · simp [scanVerdict_of_all_pass hall] at h
  · obtain rfl : w = v := by simpa [scanVerdict_of_first_rejected hn hpass hw] using h
    exact ⟨n, hn, hpass, hw⟩

/-- Comparing each edge with the one before it compares it with all before it. -/
theorem all_pass_iff_ascending {c : Config} {edges : Nat → Word} {p : Nat} :
    (∀ k < p, EdgePasses c edges k) ↔
      (∀ n < p, edges n ≤ Config.edgeMask c) ∧ ∀ n m, n < m → m < p → edges n < edges m := by
  refine ⟨fun h => ⟨fun n hn => (h n hn).1, fun n m hnm hm => ?_⟩, fun ⟨hle, hlt⟩ k hk =>
    ⟨hle k hk, fun hpos => hlt (k - 1) k (by omega) hk⟩⟩
  induction m, hnm using Nat.le_induction with
  | base => exact (h (n + 1) hm).2 n.succ_pos
  | succ m _ ih => exact BitVec.lt_trans (ih (by omega)) ((h (m + 1) hm).2 m.succ_pos)

/-- Settles O43: the scan stops at the first rejected edge, and there is none exactly when all pass. -/
theorem scanReportsTheFirstRejection : Obligations.ScanReportsTheFirstRejection :=
  fun _ _ => ⟨scanVerdict_eq_none_iff.trans all_pass_iff_ascending, fun _ => scanVerdict_eq_some_iff⟩

/-! ### The order of the rejections -/

theorem walkFrom_mem (p : Nat) (uvs : Nat → Word) (fuel i steps : Nat) :
    walkFrom p uvs fuel i steps ∈ [Verdict.ok, .branch, .deadEnd, .shortCycle] := by
  induction fuel generalizing i steps with
  | zero => simp [walkFrom]
  | succ fuel ih =>
    simp only [walkFrom]
    split
    · simp
    · split
      · simp
      · split
        · split <;> simp
        · exact ih _ _

theorem walkVerdict_of_xor_ne {p : Nat} {uvs : Nat → Word} (h : xorSide p uvs 0 ≠ 0 ∨ xorSide p uvs 1 ≠ 0) :
    walkVerdict p uvs = .nonMatching :=
  if_pos h

theorem walkVerdict_of_xor_eq {p : Nat} {uvs : Nat → Word} (h0 : xorSide p uvs 0 = 0) (h1 : xorSide p uvs 1 = 0) :
    walkVerdict p uvs = walkFrom p uvs (p + 1) 0 0 :=
  if_neg (by simp [h0, h1])

theorem walkVerdict_eq_nonMatching_iff {p : Nat} {uvs : Nat → Word} :
    walkVerdict p uvs = .nonMatching ↔ xorSide p uvs 0 ≠ 0 ∨ xorSide p uvs 1 ≠ 0 := by
  refine ⟨fun h => ?_, walkVerdict_of_xor_ne⟩
  by_contra hxor
  obtain ⟨h0, h1⟩ : xorSide p uvs 0 = 0 ∧ xorSide p uvs 1 = 0 := by simpa using hxor
  have hmem := walkFrom_mem p uvs (p + 1) 0 0
  simp [← walkVerdict_of_xor_eq h0 h1, h] at hmem

theorem walkVerdict_ne_headerLength (p : Nat) (uvs : Nat → Word) : walkVerdict p uvs ≠ .headerLength := by
  intro h
  have hmem := walkFrom_mem p uvs (p + 1) 0 0
  unfold walkVerdict at h
  split at h
  · cases h
  · simp [h] at hmem

theorem verify_of_scan_some {c : Config} {edges : Nat → Word} {v : Verdict}
    (h : scanVerdict c edges c.proofSize 0 = some v) (key : Key) : verify c edges key = v := by
  simp only [verify, h]

theorem verify_of_scan_none {c : Config} {edges : Nat → Word} (h : scanVerdict c edges c.proofSize 0 = none)
    (key : Key) : verify c edges key = walkVerdict c.proofSize (endpoints c key edges) := by
  simp only [verify, h]

theorem verify_ne_headerLength (c : Config) (edges : Nat → Word) (key : Key) :
    verify c edges key ≠ .headerLength := by
  cases hscan : scanVerdict c edges c.proofSize 0 with
  | none => rw [verify_of_scan_none hscan]; exact walkVerdict_ne_headerLength _ _
  | some v =>
    obtain ⟨n, _, _, ⟨rfl, _⟩ | ⟨rfl, _⟩⟩ := scanVerdict_eq_some_iff.mp hscan <;>
      simp [verify_of_scan_some hscan]

/-- The condition under which `verify_header` rejects the header's length (R175). -/
def HeaderLengthWrong (c : Config) (header : List Byte) (len : Nat) (ovf : Bool) : Prop :=
  ovf = true ∨ len ≠ header.length ∨ ∃ l, c.headerLen = some l ∧ len ≠ l

theorem verifyHeader_of_wrong {c : Config} {header : List Byte} {len : Nat} {ovf : Bool}
    (h : HeaderLengthWrong c header len ovf) (edges : Nat → Word) (legacy : Bool) :
    verifyHeader c header len ovf edges legacy = (.headerLength, none) :=
  if_pos h

theorem verifyHeader_of_right {c : Config} {header : List Byte} {len : Nat} {ovf : Bool}
    (h : ¬ HeaderLengthWrong c header len ovf) (edges : Nat → Word) (legacy : Bool) :
    verifyHeader c header len ovf edges legacy =
      (verify c edges (deriveKey c header legacy), some (deriveKey c header legacy)) :=
  if_neg h

theorem verifyHeader_eq_headerLength_iff {c : Config} {header : List Byte} {len : Nat} {ovf : Bool}
    {edges : Nat → Word} {legacy : Bool} :
    (verifyHeader c header len ovf edges legacy).1 = .headerLength ↔ HeaderLengthWrong c header len ovf := by
  refine ⟨fun h => ?_, fun h => by rw [verifyHeader_of_wrong h]⟩
  by_contra hright
  rw [verifyHeader_of_right hright] at h
  exact verify_ne_headerLength _ _ _ h

/-- Settles O44: only the length check answers `HEADER_LENGTH`, only step 1 stops before the array is looked at, and
only the XOR check answers `NON_MATCHING` after it. -/
theorem rejectionsComeInOrder : Obligations.RejectionsComeInOrder := by
  intro c header len ovf edges legacy key
  refine ⟨verifyHeader_eq_headerLength_iff, fun h => ?_, fun h => ?_, verify_ne_headerLength c edges key,
    fun v hv => verify_of_scan_some hv key, fun hscan => ?_⟩
  · rw [verifyHeader_of_wrong (verifyHeader_eq_headerLength_iff.mp h)]
  · exact verifyHeader_of_right (mt verifyHeader_eq_headerLength_iff.mpr h) edges legacy
  · rw [verify_of_scan_none hscan]
    refine ⟨walkVerdict_eq_nonMatching_iff, fun h0 h1 => ?_⟩
    rw [walkVerdict_of_xor_eq h0 h1]
    exact walkFrom_mem ..

end Sys2Proof.Machine
end

section
/-! The candidates of a position and its matches (`42_cycle_verifier.md` section 4, R147): the other positions of its
side, and that "is the only match of" is symmetric. -/

namespace Sys2Proof.Machine

/-! ### Candidates -/

/-- A candidate is less than a whole turn of the array away, so the remainder drops at most one turn. -/
theorem add_mod_turn {p i d : Nat} (hi : i < 2 * p) (hd : d < 2 * p) :
    (i + d) % (2 * p) = if i + d < 2 * p then i + d else i + d - 2 * p := by
  split
  · exact Nat.mod_eq_of_lt ‹_›
  · rw [Nat.mod_eq_sub_mod (by omega), Nat.mod_eq_of_lt (by omega)]

theorem mem_candidates {p i k : Nat} (hi : i < 2 * p) :
    k ∈ candidates p i ↔ k < 2 * p ∧ k ≠ i ∧ k % 2 = i % 2 := by
  simp only [candidates, List.mem_map, List.mem_range]
  constructor
  · rintro ⟨t, ht, rfl⟩
    rw [add_mod_turn hi (by omega)]
    split <;> omega
  · rintro ⟨hk, hne, hside⟩
    refine ⟨if i < k then (k - i) / 2 - 1 else (k + 2 * p - i) / 2 - 1, by split <;> omega, ?_⟩
    rw [add_mod_turn hi (by split <;> omega)]
    split <;> split <;> omega

theorem candidates_length (p i : Nat) : (candidates p i).length = p - 1 := by simp [candidates]

theorem candidates_nodup {p i : Nat} (hi : i < 2 * p) : (candidates p i).Nodup := by
  refine List.Nodup.map_on (fun t ht t' ht' h => ?_) List.nodup_range
  have ht : t < p - 1 := List.mem_range.mp ht
  have ht' : t' < p - 1 := List.mem_range.mp ht'
  rw [add_mod_turn hi (by omega), add_mod_turn hi (by omega)] at h
  split at h <;> split at h <;> omega

/-- Whatever the position, its candidates are of its side. -/
theorem candidate_side {p i k : Nat} (h : k ∈ candidates p i) : k % 2 = i % 2 := by
  obtain ⟨t, _, rfl⟩ := List.mem_map.mp h
  rw [Nat.mod_mul_right_mod]
  omega

/-! ### Matches -/

/-- Position `k` matches position `i`: another position of the same side that holds the same value (R147). -/
def Matches (p : Nat) (uvs : Nat → Word) (i k : Nat) : Prop :=
  k < 2 * p ∧ k ≠ i ∧ k % 2 = i % 2 ∧ uvs k = uvs i

theorem mem_matchesOf {p i k : Nat} {uvs : Nat → Word} (hi : i < 2 * p) :
    k ∈ matchesOf p uvs i ↔ Matches p uvs i k := by
  simp only [matchesOf, List.mem_filter, mem_candidates hi, decide_eq_true_eq, Matches, and_assoc]

theorem Matches.comm {p i k : Nat} {uvs : Nat → Word} (hi : i < 2 * p) (h : Matches p uvs i k) :
    Matches p uvs k i := by
  obtain ⟨_, hne, hside, hval⟩ := h
  exact ⟨hi, hne.symm, hside.symm, hval.symm⟩

/-- Two matches of one position match each other. -/
theorem Matches.trans {p i j k : Nat} {uvs : Nat → Word} (hij : Matches p uvs i j) (hik : Matches p uvs i k)
    (hne : k ≠ j) : Matches p uvs j k := by
  obtain ⟨_, _, hside, hval⟩ := hij
  obtain ⟨hk, _, hside', hval'⟩ := hik
  exact ⟨hk, hne, hside'.trans hside.symm, hval'.trans hval.symm⟩

theorem matchesOf_nodup {p i : Nat} (uvs : Nat → Word) (hi : i < 2 * p) : (matchesOf p uvs i).Nodup :=
  (candidates_nodup hi).filter _

theorem matchesOf_eq_singleton {p i k : Nat} {uvs : Nat → Word} (h : findMatch p uvs i = (1, k)) :
    matchesOf p uvs i = [k] := by
  obtain ⟨hlen, hhead⟩ := Prod.mk.inj h
  obtain ⟨j, hj⟩ := List.length_eq_one_iff.mp hlen
  simpa [hj] using hhead

/-- `find_match` answers one match exactly when it is the only position that matches. -/
theorem findMatch_eq_one_iff {p i k : Nat} {uvs : Nat → Word} (hi : i < 2 * p) :
    findMatch p uvs i = (1, k) ↔ ∀ j, Matches p uvs i j ↔ j = k := by
  refine ⟨fun h j => ?_, fun h => ?_⟩
  · rw [← mem_matchesOf hi, matchesOf_eq_singleton h, List.mem_singleton]
  · have hk : matchesOf p uvs i = [k] := by
      refine List.perm_singleton.mp ((List.perm_ext_iff_of_nodup (matchesOf_nodup uvs hi) (by simp)).mpr fun j => ?_)
      rw [mem_matchesOf hi, h j, List.mem_singleton]
    simp [findMatch, hk]

theorem matches_of_findMatch {p i k : Nat} {uvs : Nat → Word} (hi : i < 2 * p) (h : findMatch p uvs i = (1, k)) :
    Matches p uvs i k :=
  ((findMatch_eq_one_iff hi).mp h k).mpr rfl

theorem findMatch_of_fst {p i : Nat} {uvs : Nat → Word} (h : (findMatch p uvs i).1 = 1) :
    findMatch p uvs i = (1, (findMatch p uvs i).2) :=
  Prod.ext h rfl

/-- The only match of a position has that position as its only match: the key fact of the walk (R157). -/
theorem findMatch_comm {p i k : Nat} {uvs : Nat → Word} (hi : i < 2 * p) (h : findMatch p uvs i = (1, k)) :
    findMatch p uvs k = (1, i) := by
  have hik : Matches p uvs i k := matches_of_findMatch hi h
  have hki : Matches p uvs k i := hik.comm hi
  refine (findMatch_eq_one_iff hik.1).mpr fun j => ⟨fun hkj => ?_, fun hj => hj ▸ hki⟩
  by_contra hne
  obtain rfl : j = k := ((findMatch_eq_one_iff hi).mp h j).mp (hki.trans hkj hne)
  exact hkj.2.1 rfl

/-- The matching positions are counted in the order of the candidates, which does not change their number. -/
theorem findMatch_fst {p i : Nat} (uvs : Nat → Word) (hi : i < 2 * p) :
    (findMatch p uvs i).1 =
      ((List.range (2 * p)).filter (fun k => decide (k ≠ i ∧ k % 2 = i % 2 ∧ uvs k = uvs i))).length := by
  refine List.Perm.length_eq ((List.perm_ext_iff_of_nodup (matchesOf_nodup uvs hi) (List.nodup_range.filter _)).mpr
    fun k => ?_)
  rw [mem_matchesOf hi]
  simp [Matches]

/-- Settles O42: the candidates are listed without repetition, so counting them is counting positions. -/
theorem candidatesAreTheOtherSameSidePositions : Obligations.CandidatesAreTheOtherSameSidePositions :=
  fun p i hi => ⟨candidates_length p i, candidates_nodup hi, fun _ => mem_candidates hi, fun uvs =>
    ⟨findMatch_fst uvs hi, fun h => matches_of_findMatch hi (findMatch_of_fst h)⟩⟩

end Sys2Proof.Machine
end

section
/-! The walk as a sequence of positions (`42_cycle_verifier.md` sections 5 and 6): it alternates between the sides, it
never stands on one edge twice before it closes, and so it makes at most `P` steps (R155 to R157). -/

namespace Sys2Proof.Machine

/-! ### Steps of the walk -/

/-- After `k` steps the walk stands on `i` and has not closed. -/
def StandsOn (p : Nat) (uvs : Nat → Word) (k i : Nat) : Prop :=
  walkPos p uvs k = some i ∧ (k = 0 ∨ i ≠ 0)

theorem standsOn_zero (p : Nat) (uvs : Nat → Word) : StandsOn p uvs 0 0 := ⟨rfl, .inl rfl⟩

theorem xor_one_eq_iff {a b : Nat} : a ^^^ 1 = b ↔ a = b ^^^ 1 := by
  constructor
  · rintro rfl; simp
  · rintro rfl; simp

/-- A step crosses from a position with one match: the match is the other end of the edge stepped to. -/
theorem walkPos_succ_iff {p k j : Nat} {uvs : Nat → Word} :
    walkPos p uvs (k + 1) = some j ↔ ∃ i, StandsOn p uvs k i ∧ findMatch p uvs i = (1, j ^^^ 1) := by
  have hopen : ∀ i, ¬ (k ≠ 0 ∧ i = 0) ↔ (k = 0 ∨ i ≠ 0) := fun i => by omega
  simp only [walkPos, StandsOn]
  cases walkPos p uvs k with
  | none => simp
  | some i =>
    simp only [Option.some.injEq, exists_eq_left', and_assoc, ← hopen i, Prod.ext_iff, ← xor_one_eq_iff (b := j)]
    split
    · simp [*]
    · split <;> simp [*]

theorem exists_standsOn_of_succ {p k i : Nat} {uvs : Nat → Word} (h : walkPos p uvs (k + 1) = some i) :
    ∃ a, StandsOn p uvs k a := by
  obtain ⟨a, ha, _⟩ := walkPos_succ_iff.mp h
  exact ⟨a, ha⟩

/-- Before every step but the last the walk stands on a position and has not closed. -/
theorem standsOn_of_lt {p j k i : Nat} {uvs : Nat → Word} (h : walkPos p uvs k = some i) (hj : j < k) :
    ∃ a, StandsOn p uvs j a := by
  induction k, hj using Nat.le_induction generalizing i with
  | base => exact exists_standsOn_of_succ h
  | succ k _ ih =>
    obtain ⟨a, ha⟩ := exists_standsOn_of_succ h
    exact ih ha.1

theorem cross_side (k : Nat) : (k ^^^ 1) % 2 = (k + 1) % 2 := by
  rcases Nat.mod_two_eq_zero_or_one k with h | h <;> simp [Nat.xor_mod_two_eq, Nat.add_mod, h]

/-- Settles O45: a match is of the same side, and crossing an edge changes the side. -/
theorem walkAlternatesSides : Obligations.WalkAlternatesSides := by
  intro p uvs k
  induction k with
  | zero =>
    intro i hp h
    obtain rfl : 0 = i := by simpa [walkPos] using h
    omega
  | succ k ih =>
    intro j hp h
    obtain ⟨i, hi, hm⟩ := walkPos_succ_iff.mp h
    obtain ⟨hlt, hside⟩ := ih i hp hi.1
    obtain ⟨hj, _, hsame, _⟩ := matches_of_findMatch hlt hm
    have hcross := cross_side j
    have := xor_one_lt_two_mul hj
    rw [Nat.xor_xor_cancel_right] at this
    omega

theorem walkPos_lt {p k i : Nat} {uvs : Nat → Word} (hp : 0 < p) (h : walkPos p uvs k = some i) : i < 2 * p :=
  (walkAlternatesSides p uvs k i hp h).1

/-! ### No edge twice -/

/-- The walk can be traced back: it comes to one position from one position only, so it meets again none but the
start. -/
theorem not_standsOn_twice {p j k i : Nat} {uvs : Nat → Word} (hp : 0 < p) (hjk : j < k)
    (hj : StandsOn p uvs j i) (hk : StandsOn p uvs k i) : False := by
  induction j generalizing k i with
  | zero =>
    obtain rfl : 0 = i := by simpa [walkPos] using hj.1
    exact hk.2.elim (by omega) (· rfl)
  | succ j ih =>
    obtain ⟨k, rfl⟩ : ∃ k', k = k' + 1 := ⟨k - 1, by omega⟩
    obtain ⟨a, ha, hma⟩ := walkPos_succ_iff.mp hj.1
    obtain ⟨b, hb, hmb⟩ := walkPos_succ_iff.mp hk.1
    have hab := findMatch_comm (walkPos_lt hp ha.1) hma
    rw [findMatch_comm (walkPos_lt hp hb.1) hmb] at hab
    obtain rfl : b = a := (Prod.mk.inj hab).2
    exact ih (by omega) ha hb

/-- The walk never comes to the other end of an edge it has left: traced from both ends, the part in between would
shrink to a position that matches itself (R157). -/
theorem walkPos_ne_other_end {p j k a b : Nat} {uvs : Nat → Word} (hp : 0 < p) (hjk : j < k)
    (ha : walkPos p uvs j = some a) (hb : walkPos p uvs k = some b) : b ≠ a ^^^ 1 := by
  rintro rfl
  obtain ⟨d, hd⟩ : ∃ d, k - j = d := ⟨_, rfl⟩
  induction d using Nat.strong_induction_on generalizing j k a with
  | _ d ih =>
    obtain ⟨k, rfl⟩ : ∃ k', k = k' + 1 := ⟨k - 1, by omega⟩
    obtain ⟨c, hc, hmc⟩ := walkPos_succ_iff.mp hb
    have hma : findMatch p uvs a = (1, c) := by
      simpa using findMatch_comm (walkPos_lt hp hc.1) hmc
    have hca : c ≠ a := (matches_of_findMatch (walkPos_lt hp ha) hma).2.1
    have hjk' : j ≠ k := by
      rintro rfl
      exact hca (Option.some.inj (hc.1.symm.trans ha))
    obtain ⟨a', ha'⟩ : ∃ a', StandsOn p uvs j a' := standsOn_of_lt hc.1 (by omega)
    obtain rfl : a = a' := Option.some.inj (ha.symm.trans ha'.1)
    have hnext : walkPos p uvs (j + 1) = some (c ^^^ 1) :=
      walkPos_succ_iff.mpr ⟨a, ha', by simpa using hma⟩
    have hc' : walkPos p uvs k = some (c ^^^ 1 ^^^ 1) := by simpa using hc.1
    rcases Nat.lt_or_ge (j + 1) k with hlt | hge
    · exact ih (k - (j + 1)) (by omega) hlt hnext hc' rfl
    · obtain rfl : k = j + 1 := by omega
      have hself := congrArg (· % 2) (Option.some.inj (hc'.symm.trans hnext))
      have h1 := cross_side c
      have h2 := cross_side (c ^^^ 1)
      omega

theorem eq_or_other_end {a b : Nat} (h : b / 2 = a / 2) : b = a ∨ b = a ^^^ 1 := by
  have hdiv : (a ^^^ 1) / 2 = a / 2 := by simp [Nat.xor_div_two]
  have hside := cross_side a
  omega

/-- The edge the walk stands on after `k` steps. -/
def walkEdge (p : Nat) (uvs : Nat → Word) (k : Nat) : Nat := ((walkPos p uvs k).getD 0) / 2

theorem walkEdge_eq {p k i : Nat} {uvs : Nat → Word} (h : walkPos p uvs k = some i) : walkEdge p uvs k = i / 2 := by
  simp [walkEdge, h]

theorem walkEdge_ne {p j k a b : Nat} {uvs : Nat → Word} (hp : 0 < p) (hjk : j < k) (hj : StandsOn p uvs j a)
    (hk : StandsOn p uvs k b) : walkEdge p uvs k ≠ walkEdge p uvs j := by
  rw [walkEdge_eq hj.1, walkEdge_eq hk.1]
  intro h
  rcases eq_or_other_end h with rfl | hother
  · exact not_standsOn_twice hp hjk hj hk
  · exact walkPos_ne_other_end hp hjk hj.1 hk.1 hother

/-- Standing on as many edges as there are steps so far, and one more, none of them twice. -/
theorem walkEdge_injOn {p k i : Nat} {uvs : Nat → Word} (hp : 0 < p) (h : StandsOn p uvs k i) :
    Set.InjOn (walkEdge p uvs) (Finset.range (k + 1)) := by
  have hstands : ∀ j ∈ Finset.range (k + 1), ∃ a, StandsOn p uvs j a := by
    intro j hj
    have hj : j < k + 1 := Finset.mem_range.mp hj
    rcases Nat.lt_or_ge j k with hlt | hge
    · exact standsOn_of_lt h.1 hlt
    · obtain rfl : j = k := by omega
      exact ⟨i, h⟩
  intro j hj l hl hjl
  obtain ⟨a, ha⟩ := hstands j hj
  obtain ⟨b, hb⟩ := hstands l hl
  rcases Nat.lt_trichotomy j l with hlt | heq | hgt
  · exact absurd hjl.symm (walkEdge_ne hp hlt ha hb)
  · exact heq
  · exact absurd hjl (walkEdge_ne hp hgt hb ha)

theorem walkEdge_lt {p : Nat} {uvs : Nat → Word} (hp : 0 < p) (k : Nat) : walkEdge p uvs k < p := by
  unfold walkEdge
  cases h : walkPos p uvs k with
  | none => simpa using hp
  | some i =>
    have := walkPos_lt hp h
    simp only [Option.getD_some]
    omega

/-- `k + 1` different edges are at most `P`. -/
theorem standsOn_lt {p k i : Nat} {uvs : Nat → Word} (hp : 0 < p) (h : StandsOn p uvs k i) : k < p := by
  have hcard := Finset.card_le_card_of_injOn (s := Finset.range (k + 1)) (t := Finset.range p) (walkEdge p uvs)
    (fun j _ => Finset.mem_coe.mpr (Finset.mem_range.mpr (walkEdge_lt hp j))) (walkEdge_injOn hp h)
  simpa [Nat.succ_le_iff] using hcard

theorem pos_of_findMatch {p i k : Nat} {uvs : Nat → Word} (h : findMatch p uvs i = (1, k)) : 0 < p := by
  have := candidate_lt (findMatch_snd_mem_candidates (congrArg Prod.fst h))
  omega

/-- Settles O46: as long as the walk has not closed it stands on a new edge after every step. -/
theorem walkNeverReachesTheCap : Obligations.WalkNeverReachesTheCap := by
  intro p uvs k i h
  cases k with
  | zero =>
    obtain rfl : 0 = i := by simpa [walkPos] using h
    exact ⟨Nat.zero_le p, fun _ => rfl⟩
  | succ k =>
    obtain ⟨a, ha, hm⟩ := walkPos_succ_iff.mp h
    have hp := pos_of_findMatch hm
    refine ⟨standsOn_lt hp ha, fun hk => ?_⟩
    by_contra hne
    have := standsOn_lt hp (show StandsOn p uvs (k + 1) i from ⟨h, .inr hne⟩)
    omega

end Sys2Proof.Machine
end

section
/-! Verdict `OK` and the closed walk through all edges (`42_cycle_verifier.md` R158), and that the verdict does not
depend on the form of the endpoint (R160). -/

namespace Sys2Proof.Machine

/-! ### The loop of `walk_verdict` along the walk -/

/-- A step finds several matches, none, or one. -/
theorem findMatch_cases (p : Nat) (uvs : Nat → Word) (i : Nat) :
    1 < (findMatch p uvs i).1 ∨ (findMatch p uvs i).1 = 0 ∨ ∃ k, findMatch p uvs i = (1, k) := by
  by_cases hone : (findMatch p uvs i).1 = 1
  · exact .inr (.inr ⟨_, findMatch_of_fst hone⟩)
  · omega

section
variable {p i k steps : Nat} {uvs : Nat → Word} (fuel : Nat)

theorem walkFrom_of_many (h : 1 < (findMatch p uvs i).1) : walkFrom p uvs (fuel + 1) i steps = .branch := by
  simp only [walkFrom, gt_iff_lt, h, if_true]

theorem walkFrom_of_none (h : (findMatch p uvs i).1 = 0) : walkFrom p uvs (fuel + 1) i steps = .deadEnd := by
  simp [walkFrom, h]

theorem walkFrom_of_closing (h : findMatch p uvs i = (1, k)) (hk : k ^^^ 1 = 0) :
    walkFrom p uvs (fuel + 1) i steps = if steps + 1 = p then .ok else .shortCycle := by
  simp [walkFrom, h, hk]

theorem walkFrom_of_going_on (h : findMatch p uvs i = (1, k)) (hk : k ^^^ 1 ≠ 0) (hcap : steps ≠ p) :
    walkFrom p uvs (fuel + 1) i steps = walkFrom p uvs fuel (k ^^^ 1) (steps + 1) := by
  simp [walkFrom, h, hk, hcap]

end

theorem walkPos_succ_of_findMatch {p k i m : Nat} {uvs : Nat → Word} (h : StandsOn p uvs k i)
    (hm : findMatch p uvs i = (1, m)) : walkPos p uvs (k + 1) = some (m ^^^ 1) :=
  walkPos_succ_iff.mpr ⟨i, h, by simpa using hm⟩

/-- A walk that goes on has found one match. -/
theorem findMatch_of_walkPos {p j k i a : Nat} {uvs : Nat → Word} (hi : StandsOn p uvs j i) (hjk : j < k)
    (h : walkPos p uvs k = some a) : ∃ m, findMatch p uvs i = (1, m) := by
  obtain ⟨b, hb⟩ : ∃ b, walkPos p uvs (j + 1) = some b := by
    rcases Nat.lt_or_ge (j + 1) k with hlt | hge
    · exact (standsOn_of_lt h hlt).imp fun _ hb => hb.1
    · obtain rfl : k = j + 1 := by omega
      exact ⟨a, h⟩
  obtain ⟨c, hc, hm⟩ := walkPos_succ_iff.mp hb
  obtain rfl : i = c := Option.some.inj (hi.1.symm.trans hc.1)
  exact ⟨_, hm⟩

/-- The loop, started at position 0, is where the walk is after as many steps. -/
theorem walkFrom_of_standsOn {p k i : Nat} {uvs : Nat → Word} (h : StandsOn p uvs k i) :
    walkFrom p uvs (p + 1) 0 0 = walkFrom p uvs (p + 1 - k) i k := by
  induction k generalizing i with
  | zero =>
    obtain rfl : 0 = i := by simpa [walkPos] using h.1
    rfl
  | succ k ih =>
    obtain ⟨a, ha, hm⟩ := walkPos_succ_iff.mp h.1
    have hk := standsOn_lt (pos_of_findMatch hm) ha
    have hi : i ^^^ 1 ^^^ 1 ≠ 0 := by simpa using h.2
    have hfuel : p + 1 - k = p + 1 - (k + 1) + 1 := by omega
    rw [ih ha, hfuel, walkFrom_of_going_on _ hm hi (by omega), Nat.xor_xor_cancel_right]

theorem walkPos_of_walkFrom_ok {p fuel k i : Nat} {uvs : Nat → Word} (h : StandsOn p uvs k i)
    (hok : walkFrom p uvs fuel i k = .ok) : walkPos p uvs p = some 0 := by
  induction fuel generalizing k i with
  | zero => cases hok
  | succ fuel ih =>
    rcases findMatch_cases p uvs i with hmany | hnone | ⟨m, hm⟩
    · simp [walkFrom_of_many fuel hmany] at hok
    · simp [walkFrom_of_none fuel hnone] at hok
    · have hk := standsOn_lt (pos_of_findMatch hm) h
      have hnext := walkPos_succ_of_findMatch h hm
      by_cases hclose : m ^^^ 1 = 0
      · have hlast : k + 1 = p := by
          by_contra hne
          simp [walkFrom_of_closing fuel hm hclose, hne] at hok
        rwa [hclose, hlast] at hnext
      · rw [walkFrom_of_going_on fuel hm hclose (by omega)] at hok
        exact ih ⟨hnext, .inr hclose⟩ hok

/-- The loop ends with `OK` exactly when the walk is back at position 0 after `P` steps (R152, R153). -/
theorem walkFrom_eq_ok_iff {p : Nat} {uvs : Nat → Word} (hp : 0 < p) :
    walkFrom p uvs (p + 1) 0 0 = .ok ↔ walkPos p uvs p = some 0 := by
  refine ⟨walkPos_of_walkFrom_ok (standsOn_zero p uvs), fun h => ?_⟩
  obtain ⟨q, rfl⟩ : ∃ q, p = q + 1 := ⟨p - 1, by omega⟩
  obtain ⟨a, ha, hm⟩ := walkPos_succ_iff.mp h
  have hfuel : q + 1 + 1 - q = 1 + 1 := by omega
  rw [walkFrom_of_standsOn ha, hfuel, walkFrom_of_closing 1 hm (by decide), if_pos rfl]

/-! ### The edges a closed walk passes -/

/-- The walk that closes after `P` steps has stood on `P` different edges, so on every one. -/
theorem exists_standsOn_of_edge {p e : Nat} {uvs : Nat → Word} (h : walkPos p uvs p = some 0) (he : e < p) :
    ∃ k < p, ∃ i, StandsOn p uvs k i ∧ i / 2 = e := by
  obtain ⟨a, ha⟩ := standsOn_of_lt h (show p - 1 < p by omega)
  have hinj := walkEdge_injOn (by omega) ha
  rw [show p - 1 + 1 = p by omega] at hinj
  have hmaps : Set.MapsTo (walkEdge p uvs) (Finset.range p) (Finset.range p) :=
    fun j _ => Finset.mem_coe.mpr (Finset.mem_range.mpr (walkEdge_lt (by omega) j))
  have hsurj := Finset.surjOn_of_injOn_of_card_le _ hmaps hinj le_rfl
  obtain ⟨k, hk, rfl⟩ := hsurj (Finset.mem_coe.mpr (Finset.mem_range.mpr he))
  have hk : k < p := Finset.mem_range.mp hk
  obtain ⟨i, hi⟩ := standsOn_of_lt h hk
  exact ⟨k, hk, i, hi, (walkEdge_eq hi.1).symm⟩

/-- The other end of an edge of a closed walk is the match the walk came in by; at the start, by its last step. -/
theorem exists_findMatch_other_end {p k a : Nat} {uvs : Nat → Word} (hp : 0 < p) (h : walkPos p uvs p = some 0)
    (ha : walkPos p uvs k = some a) : ∃ b, findMatch p uvs (a ^^^ 1) = (1, b) := by
  have hcame : ∃ k', walkPos p uvs (k' + 1) = some a := by
    cases k with
    | zero =>
      obtain rfl : 0 = a := by simpa [walkPos] using ha
      exact ⟨p - 1, by rwa [show p - 1 + 1 = p by omega]⟩
    | succ k => exact ⟨k, ha⟩
  obtain ⟨k', hk'⟩ := hcame
  obtain ⟨b, hb, hm⟩ := walkPos_succ_iff.mp hk'
  exact ⟨b, findMatch_comm (walkPos_lt hp hb.1) hm⟩

theorem findMatch_of_closed_walk {p i : Nat} {uvs : Nat → Word} (h : walkPos p uvs p = some 0) (hi : i < 2 * p) :
    (findMatch p uvs i).1 = 1 := by
  obtain ⟨k, hk, a, ha, hedge⟩ := exists_standsOn_of_edge h (show i / 2 < p by omega)
  rcases eq_or_other_end hedge.symm with rfl | rfl
  · obtain ⟨m, hm⟩ := findMatch_of_walkPos ha hk h
    rw [hm]
  · obtain ⟨b, hb⟩ := exists_findMatch_other_end (by omega) h ha.1
    rw [hb]

/-- Settles O47: with `OK` the walk is back after `P` steps, on `P` different edges, each with one match at the end it
is left by and one at the end it is entered by. -/
theorem okMeansOneSimpleCycle : Obligations.OkMeansOneSimpleCycle := by
  intro p uvs hp hok
  have hclosed : walkPos p uvs p = some 0 := by
    refine (walkFrom_eq_ok_iff hp).mp ?_
    unfold walkVerdict at hok
    split at hok
    · cases hok
    · exact hok
  refine ⟨fun i => findMatch_of_closed_walk hclosed, fun e he => ?_, hclosed⟩
  obtain ⟨k, hk, i, hi, hedge⟩ := exists_standsOn_of_edge hclosed he
  exact ⟨k, hk, i, hi.1, hedge⟩

/-- A walk that passes every edge has not closed after `P - 1` steps. -/
theorem exists_standsOn_last {p : Nat} {uvs : Nat → Word} (hp : 0 < p)
    (h : ∀ e < p, ∃ k < p, ∃ i, walkPos p uvs k = some i ∧ i / 2 = e) : ∃ i, StandsOn p uvs (p - 1) i := by
  classical
  obtain ⟨standing, hstanding⟩ : ∃ S : Finset Nat, ∀ k, k ∈ S ↔ k < p ∧ ∃ i, StandsOn p uvs k i :=
    ⟨(Finset.range p).filter fun k => ∃ i, StandsOn p uvs k i, by simp⟩
  have hsub : standing ⊆ Finset.range p := fun k hk => Finset.mem_range.mpr ((hstanding k).mp hk).1
  have hcover : Finset.range p ⊆ standing.image (walkEdge p uvs) := by
    intro e he
    obtain ⟨k, hk, i, hi, hedge⟩ := h e (Finset.mem_range.mp he)
    rw [Finset.mem_image]
    by_cases hopen : k = 0 ∨ i ≠ 0
    · exact ⟨k, (hstanding k).mpr ⟨hk, i, hi, hopen⟩, (walkEdge_eq hi).trans hedge⟩
    · obtain rfl : i = 0 := by omega
      exact ⟨0, (hstanding 0).mpr ⟨hp, 0, standsOn_zero p uvs⟩, hedge⟩
  have hall : standing = Finset.range p :=
    Finset.eq_of_subset_of_card_le hsub ((Finset.card_le_card hcover).trans Finset.card_image_le)
  have hlast : p - 1 ∈ standing := hall ▸ Finset.mem_range.mpr (by omega)
  exact ((hstanding _).mp hlast).2

/-! ### The XOR of a side -/

theorem xorSide_succ (p : Nat) (uvs : Nat → Word) (side : Nat) :
    xorSide (p + 1) uvs side = xorSide p uvs side ^^^ uvs (2 * p + side) := by
  simp [xorSide, List.range_succ]

/-- Bit `b` of a word as a number modulo 2, where XOR is addition. -/
def bitMod2 (b : Nat) (w : Word) : ZMod 2 := if w.getLsbD b then 1 else 0

theorem bitMod2_xor (b : Nat) (v w : Word) : bitMod2 b (v ^^^ w) = bitMod2 b v + bitMod2 b w := by
  simp only [bitMod2, BitVec.getLsbD_xor]
  cases v.getLsbD b <;> cases w.getLsbD b <;> decide

theorem bitMod2_xorSide (b p : Nat) (uvs : Nat → Word) (side : Nat) :
    bitMod2 b (xorSide p uvs side) = ∑ n ∈ Finset.range p, bitMod2 b (uvs (2 * n + side)) := by
  induction p with
  | zero => simp [xorSide, bitMod2]
  | succ p ih => rw [xorSide_succ, bitMod2_xor, ih, Finset.sum_range_succ]

theorem eq_zero_of_bitMod2 {w : Word} (h : ∀ b, bitMod2 b w = 0) : w = 0 := by
  refine BitVec.eq_of_getLsbD_eq fun b _ => ?_
  have hb := h b
  unfold bitMod2 at hb
  split at hb
  · cases hb
  · simpa using ‹¬ w.getLsbD b = true›

/-- Where every position has one match the values of a side cancel in pairs. -/
theorem xorSide_eq_zero {p side : Nat} {uvs : Nat → Word} (hside : side < 2)
    (h : ∀ i < 2 * p, (findMatch p uvs i).1 = 1) : xorSide p uvs side = 0 := by
  refine eq_zero_of_bitMod2 fun b => ?_
  rw [bitMod2_xorSide]
  have hmatch : ∀ n ∈ Finset.range p, ∃ m < p, m ≠ n ∧ findMatch p uvs (2 * n + side) = (1, 2 * m + side) ∧
      uvs (2 * m + side) = uvs (2 * n + side) := by
    intro n hn
    have hi : 2 * n + side < 2 * p := by have := Finset.mem_range.mp hn; omega
    have hone := findMatch_of_fst (h _ hi)
    obtain ⟨hlt, hne, hsame, hval⟩ := matches_of_findMatch hi hone
    have hk : (findMatch p uvs (2 * n + side)).2 = 2 * ((findMatch p uvs (2 * n + side)).2 / 2) + side := by omega
    exact ⟨_, by omega, by omega, hone.trans (congrArg _ hk), hk ▸ hval⟩
  choose! g hg using hmatch
  refine Finset.sum_involution (fun n _ => g n) (fun n hn => ?_) (fun n hn _ => (hg n hn).2.1)
    (fun n hn => Finset.mem_range.mpr (hg n hn).1) (fun n hn => ?_)
  · obtain ⟨_, _, _, hval⟩ := hg n hn
    rw [hval]
    exact CharTwo.add_self_eq_zero _
  · obtain ⟨hlt, _, hm, _⟩ := hg n hn
    obtain ⟨_, _, hm', _⟩ := hg (g n) (Finset.mem_range.mpr hlt)
    have hi : 2 * n + side < 2 * p := by have := Finset.mem_range.mp hn; omega
    have := (Prod.mk.inj (hm'.symm.trans (findMatch_comm hi hm))).2
    omega

/-- Settles O48: pairs of equal values cancel in the XOR check, and a walk that has passed all edges can only step back
to position 0. -/
theorem simpleCyclesAreAccepted : Obligations.SimpleCyclesAreAccepted := by
  intro p uvs hp hone hedges
  rw [walkVerdict_of_xor_eq (xorSide_eq_zero (by decide) hone) (xorSide_eq_zero (by decide) hone),
    walkFrom_eq_ok_iff hp]
  obtain ⟨i, hi⟩ := exists_standsOn_last hp hedges
  have hnext := walkPos_succ_of_findMatch hi (findMatch_of_fst (hone i (walkPos_lt hp hi.1)))
  rw [show p - 1 + 1 = p by omega] at hnext
  rw [hnext, (walkNeverReachesTheCap p uvs p _ hnext).2 rfl]

/-! ### The tagged form -/

theorem taggedArray_toNat {uvs : Nat → Word} (h : ∀ k, (uvs k).toNat < 2 ^ 63) (k : Nat) :
    (taggedArray uvs k).toNat = 2 * (uvs k).toNat + k % 2 := by
  have hk := h k
  have hbit : (BitVec.ofNat 64 (k % 2)).toNat = k % 2 := by rw [BitVec.toNat_ofNat]; omega
  rw [taggedArray, BitVec.or_comm, toNat_or_shiftLeft (by omega) (by omega), hbit]
  omega

/-- On one side of the array equal tagged values are equal untagged ones. -/
theorem taggedArray_eq_iff {uvs : Nat → Word} (h : ∀ k, (uvs k).toNat < 2 ^ 63) {j k : Nat}
    (hside : j % 2 = k % 2) : taggedArray uvs j = taggedArray uvs k ↔ uvs j = uvs k := by
  rw [← BitVec.toNat_inj, ← BitVec.toNat_inj, taggedArray_toNat h, taggedArray_toNat h]
  omega

theorem findMatch_taggedArray {uvs : Nat → Word} (h : ∀ k, (uvs k).toNat < 2 ^ 63) (p i : Nat) :
    findMatch p (taggedArray uvs) i = findMatch p uvs i := by
  have hmatches : matchesOf p (taggedArray uvs) i = matchesOf p uvs i := by
    refine List.filter_congr fun k hk => ?_
    simp only [taggedArray_eq_iff h (candidate_side hk)]
  simp only [findMatch, hmatches]

theorem walkFrom_taggedArray {uvs : Nat → Word} (h : ∀ k, (uvs k).toNat < 2 ^ 63) (p fuel i steps : Nat) :
    walkFrom p (taggedArray uvs) fuel i steps = walkFrom p uvs fuel i steps := by
  induction fuel generalizing i steps with
  | zero => rfl
  | succ fuel ih => simp only [walkFrom, findMatch_taggedArray h, ih]

theorem taggedArray_eq_xor (uvs : Nat → Word) (k : Nat) :
    taggedArray uvs k = (uvs k <<< 1) ^^^ BitVec.ofNat 64 (k % 2) := by
  refine BitVec.eq_of_getLsbD_eq fun b _ => ?_
  rcases Nat.mod_two_eq_zero_or_one k with hk | hk <;> cases b <;> simp [taggedArray, hk]

/-- The tags of an even number of entries cancel. -/
theorem xorSide_taggedArray (q : Nat) (uvs : Nat → Word) (side : Nat) :
    xorSide (2 * q) (taggedArray uvs) side = xorSide (2 * q) uvs side <<< 1 := by
  induction q with
  | zero => rfl
  | succ q ih =>
    have htag : (2 * (2 * q + 1) + side) % 2 = (2 * (2 * q) + side) % 2 := by omega
    simp only [show 2 * (q + 1) = 2 * q + 1 + 1 by omega, xorSide_succ, ih, taggedArray_eq_xor, htag,
      BitVec.shiftLeft_xor_distrib]
    rw [BitVec.xor_comm (uvs (2 * (2 * q) + side) <<< 1), BitVec.xor_comm (uvs (2 * (2 * q + 1) + side) <<< 1),
      BitVec.xor_assoc, xor_mask_xor_mask, BitVec.xor_assoc]

theorem xorSide_lt {uvs : Nat → Word} (h : ∀ k, (uvs k).toNat < 2 ^ 63) (p side : Nat) :
    (xorSide p uvs side).toNat < 2 ^ 63 := by
  induction p with
  | zero => simp [xorSide]
  | succ p ih =>
    rw [xorSide_succ, BitVec.toNat_xor]
    exact Nat.xor_lt_two_pow ih (h _)

theorem xorSide_taggedArray_eq_zero_iff {p : Nat} {uvs : Nat → Word} (hp : p % 2 = 0)
    (h : ∀ k, (uvs k).toNat < 2 ^ 63) (side : Nat) :
    xorSide p (taggedArray uvs) side = 0 ↔ xorSide p uvs side = 0 := by
  have hlt := xorSide_lt h p side
  have hshift := xorSide_taggedArray (p / 2) uvs side
  rw [show 2 * (p / 2) = p by omega] at hshift
  have hzero : (0 : Word).toNat = 0 := rfl
  rw [hshift, ← BitVec.toNat_inj, ← BitVec.toNat_inj, BitVec.toNat_shiftLeft, hzero, Nat.shiftLeft_eq]
  omega

/-- Settles O49: the XOR check sees the tags of an even number of entries, which cancel, and the walk compares entries
of one side only, whose tags are equal. -/
theorem taggedArrayGivesTheSameVerdict : Obligations.TaggedArrayGivesTheSameVerdict := by
  intro p uvs hp h
  simp only [walkVerdict, ne_eq, xorSide_taggedArray_eq_zero_iff hp h, walkFrom_taggedArray h]

end Sys2Proof.Machine
end

section
/-! The sequencer steps of a verification, one equation per case (`42_cycle_verifier.md` section 7, R162, R163). -/

namespace Sys2Proof.Machine

/-! ### Completion -/

/-- Settles O30: the only case split of a completion is whether the command was `VERIFY_HEADER`. -/
theorem completionWritesTheVerdict : Obligations.CompletionWritesTheVerdict := by
  intro s v
  have heq : complete v s = .next (s.complete v) := rfl
  refine ⟨⟨s.complete v, rfl, ?_⟩, fun hopc => ?_, fun hopc => ?_⟩
  · rw [complete_eq]
    exact ⟨rfl, fun _ => ⟨rfl, rfl⟩⟩
  · have hopc : s.opc = Instr.opcode .verifyHeader := hopc
    rw [heq, complete_eq, if_pos hopc, if_pos hopc, if_pos hopc]
  · have hopc : s.opc ≠ Instr.opcode .verifyHeader := hopc
    rw [heq, complete_eq, if_neg hopc, if_neg hopc, if_neg hopc]

/-! ### Phase `SCAN` -/

theorem phaseInv_scan {s : State} (h : Inv s) (hp : s.phase = .scan) :
    Verifying s ∧ s.n < s.cfg.proofSize ∧ Scanned s := by
  simpa only [PhaseInv, hp] using h.phase

section
variable {s : State} (hp : s.phase = .scan) (hlast : s.n > 0 → s.prev = s.proofAt (s.n - 1))
include hp hlast

/-- The step compares with `PREV`, which is the edge before (R38). -/
theorem seqStep_of_rejected {v : Verdict} (h : EdgeRejected s.cfg s.proofAt s.n v) : seqStep s = complete v s := by
  rcases h with ⟨rfl, hbig⟩ | ⟨rfl, hle, hn, hsmall⟩
  · simp only [seqStep, hp, stepScan, gt_iff_lt, hbig, if_true]
  · have hprev : s.proofAt s.n ≤ s.prev := by rwa [hlast hn]
    simp only [seqStep, hp, stepScan, gt_iff_lt, BitVec.not_lt.mpr hle, if_false]
    rw [if_pos ⟨hn, hprev⟩]

theorem seqStep_of_passes (h : EdgePasses s.cfg s.proofAt s.n) : seqStep s = .next (s.scanEdge (s.proofAt s.n)) := by
  obtain ⟨hle, hlt⟩ := h
  have hprev : ¬ (s.n > 0 ∧ s.proofAt s.n ≤ s.prev) :=
    fun ⟨hn, hx⟩ => BitVec.not_lt.mpr (hlast hn ▸ hx) (hlt hn)
  simp only [seqStep, hp, stepScan, gt_iff_lt, BitVec.not_lt.mpr hle, if_false]
  rw [if_neg hprev]

end

/-- A taken edge's endpoints stand at `2*N` and `2*N+1`, undiminished, and nothing else is overwritten (R145). -/
theorem scanEdge_uvsAt {s : State} (hc : s.cfg.wellFormed = true) (e : Word) (k : Nat) :
    (s.scanEdge e).uvsAt k =
      if k = 2 * s.n then sipnode s.cfg s.key e 0
      else if k = 2 * s.n + 1 then sipnode s.cfg s.key e 1 else s.uvsAt k := by
  simp only [State.uvsAt, State.scanEdge_uvs, State.scanEdge_cfg, Bank.get?_put, toW_sipnode hc, eq_comm (b := k)]
  split
  · rw [if_neg (by omega)]
    simp [*]
  · split <;> simp [*]

/-- Settles O58: `PREV` is the edge before, by the invariant, and the cut to `W` bits drops nothing. -/
theorem scanStepStoresBothEndpoints : Obligations.ScanStepStoresBothEndpoints := by
  intro s h hp
  obtain ⟨_, _, hscanned⟩ := phaseInv_scan h hp
  have hlast : s.n > 0 → s.prev = s.proofAt (s.n - 1) := fun hn => hscanned.last _ (by omega)
  refine ⟨fun hbig => seqStep_of_rejected hp hlast (.inl ⟨rfl, hbig⟩), fun hle hn hsmall =>
    seqStep_of_rejected hp hlast (.inr ⟨rfl, hle, hn, hsmall⟩), fun hle hlt =>
    ⟨_, seqStep_of_passes hp hlast ⟨hle, hlt⟩, scanEdge_uvsAt h.config _, ?_⟩⟩
  simp only [State.scanEdge, toW_sipnode h.config, toW_edge h.config hle]

/-! ### Phase `XORCHK` -/

theorem seqStep_of_xor_ne {s : State} (hp : s.phase = .xorchk) (h : s.xor0 ≠ 0 ∨ s.xor1 ≠ 0) :
    seqStep s = complete .nonMatching s := by
  simp only [seqStep, hp, stepXorchk, if_pos h]

theorem seqStep_of_xor_eq {s : State} (hp : s.phase = .xorchk) (h0 : s.xor0 = 0) (h1 : s.xor1 = 0) :
    seqStep s = .next { s with i := 0, steps := 0, phase := .walk } := by
  simp [seqStep, hp, stepXorchk, h0, h1]

/-- Settles O59. -/
theorem xorCheckStartsTheWalk : Obligations.XorCheckStartsTheWalk :=
  fun _ hp => ⟨seqStep_of_xor_ne hp, seqStep_of_xor_eq hp⟩

/-! ### Phase `WALK` -/

section
variable {s : State} {k : Nat} (hp : s.phase = .walk)
include hp

theorem seqStep_of_many (h : 1 < (findMatch s.cfg.proofSize s.uvsAt s.i).1) : seqStep s = complete .branch s := by
  simp only [seqStep, hp, stepWalk, gt_iff_lt, if_pos h]

theorem seqStep_of_none (h : (findMatch s.cfg.proofSize s.uvsAt s.i).1 = 0) : seqStep s = complete .deadEnd s := by
  simp [seqStep, hp, stepWalk, h]

theorem seqStep_of_closing (h : findMatch s.cfg.proofSize s.uvsAt s.i = (1, k)) (hk : k ^^^ 1 = 0) :
    seqStep s = complete (if s.steps + 1 = s.cfg.proofSize then .ok else .shortCycle)
      { s with i := 0, steps := s.steps + 1 } := by
  simp [seqStep, hp, stepWalk, h, hk]

theorem seqStep_of_cap (h : findMatch s.cfg.proofSize s.uvsAt s.i = (1, k)) (hk : k ^^^ 1 ≠ 0)
    (hcap : s.steps = s.cfg.proofSize) :
    seqStep s = complete .shortCycle { s with i := k ^^^ 1, steps := s.steps + 1 } := by
  simp [seqStep, hp, stepWalk, h, hk, hcap]

theorem seqStep_of_going_on (h : findMatch s.cfg.proofSize s.uvsAt s.i = (1, k)) (hk : k ^^^ 1 ≠ 0)
    (hcap : s.steps ≠ s.cfg.proofSize) :
    seqStep s = .next { s with i := k ^^^ 1, steps := s.steps + 1 } := by
  simp [seqStep, hp, stepWalk, h, hk, hcap]

end

theorem findMatch_of_matchesOf {p i : Nat} {uvs : Nat → Word} {l : List Nat} (h : l = matchesOf p uvs i) :
    findMatch p uvs i = (l.length, l.headD 0) := by
  rw [h, findMatch]

/-- Settles O60: `find_match` is the length and the head of the list of matching candidates. -/
theorem walkStepFollowsTheOnlyMatch : Obligations.WalkStepFollowsTheOnlyMatch := by
  intro s matching hp hmatching
  have hm := findMatch_of_matchesOf (uvs := s.uvsAt) hmatching
  refine ⟨fun hmany => seqStep_of_many hp (by rwa [hm]), fun hnone => seqStep_of_none hp (by simp [hm, hnone]),
    fun k hk => ?_⟩
  subst hk
  refine ⟨fun hne hcap => seqStep_of_going_on hp hm hne hcap, fun hclose hlast => ?_, fun hclose hlast => ?_,
    fun hne hcap => seqStep_of_cap hp hm hne hcap⟩
  · rw [seqStep_of_closing hp hm hclose, if_pos hlast]
  · rw [seqStep_of_closing hp hm hclose, if_neg hlast]

end Sys2Proof.Machine
end

section
/-! Runs of the sequencer alone: a measure that every step of a busy block brings down, and the end of the operation
within it (`42_cycle_verifier.md` R164, `43_top_level_and_housekeeping.md` R176). -/

namespace Sys2Proof.Machine

/-! ### Runs -/

theorem seqRun_succ {s t : State} (h : seqStep s = .next t) (k : Nat) : seqRun (k + 1) s = seqRun k t := by
  simp only [seqRun, h]

theorem seqRun_of_idle {s : State} (h : s.busy = false) (k : Nat) : seqRun k s = .next s := by
  have hstep : seqStep s = .next s := by simp only [seqStep, (not_busy_iff s).mp h]
  induction k with
  | zero => rfl
  | succ k ih => rw [seqRun_succ hstep, ih]

theorem seqRun_add {s t : State} {j : Nat} (h : seqRun j s = .next t) (k : Nat) : seqRun (j + k) s = seqRun k t := by
  induction j generalizing s with
  | zero =>
    obtain rfl : s = t := by simpa [seqRun] using h
    rw [Nat.zero_add]
  | succ j ih =>
    cases hs : seqStep s with
    | next u =>
      rw [seqRun_succ hs] at h
      rw [show j + 1 + k = j + k + 1 by omega, seqRun_succ hs, ih h]
    | fault r => simp [seqRun, hs] at h
    | refused r => simp [seqRun, hs] at h

/-- Once the block is idle, further sequencer steps change nothing. -/
theorem seqRun_of_le {s u : State} {k m : Nat} (h : seqRun k s = .next u) (hu : u.busy = false) (hkm : k ≤ m) :
    seqRun m s = .next u := by
  obtain ⟨d, rfl⟩ := Nat.exists_eq_add_of_le hkm
  rw [seqRun_add h, seqRun_of_idle hu]

/-- `k` sequencer steps lead from `s` to `u`, and the block is busy before each of them. -/
def BusyRun (k : Nat) (s u : State) : Prop :=
  seqRun k s = .next u ∧ ∀ j < k, ∃ v, seqRun j s = .next v ∧ v.busy = true

theorem busyRun_zero (s : State) : BusyRun 0 s s := ⟨rfl, fun j hj => absurd hj (Nat.not_lt_zero j)⟩

theorem BusyRun.step {s t u : State} {k : Nat} (hb : s.busy = true) (hs : seqStep s = .next t) (h : BusyRun k t u) :
    BusyRun (k + 1) s u := by
  obtain ⟨hrun, hbusy⟩ := h
  refine ⟨(seqRun_succ hs k).trans hrun, fun j hj => ?_⟩
  cases j with
  | zero => exact ⟨s, rfl, hb⟩
  | succ j => exact seqRun_succ hs j ▸ hbusy j (by omega)

/-- The induction behind every statement that an operation ends: when each step from a state in `I` brings the measure
`m` down and either stays in `I` or ends as `E` says, the run ends so within `m` steps. -/
theorem exists_busyRun {I E : State → Prop} (m : State → Nat) (hbusy : ∀ s, I s → s.busy = true)
    (hpos : ∀ s, I s → 0 < m s) (hstep : ∀ s, I s → ∃ t, seqStep s = .next t ∧ (E t ∨ I t ∧ m t < m s))
    {s : State} (hs : I s) : ∃ k u, k ≤ m s ∧ BusyRun k s u ∧ E u := by
  obtain ⟨d, hd⟩ : ∃ d, m s = d := ⟨_, rfl⟩
  induction d using Nat.strong_induction_on generalizing s with
  | _ d ih =>
    obtain ⟨t, ht, hend | ⟨hI, hlt⟩⟩ := hstep s hs
    · exact ⟨1, t, hpos s hs, (busyRun_zero t).step (hbusy s hs) ht, hend⟩
    · obtain ⟨k, u, hk, hrun, hu⟩ := ih (m t) (by omega) hI rfl
      exact ⟨k + 1, u, by omega, hrun.step (hbusy s hs) ht, hu⟩

/-! ### The measure -/

/-- How many steps are left at most, when a walk ends after at most `cap` of them. -/
def stepsLeft (cap : Nat) (s : State) : Nat :=
  match s.phase with
  | .idle => 0
  | .node => 1
  | .walk => cap - s.steps
  | .xorchk => cap + 1
  | .scan => (s.cfg.proofSize - s.n) + cap + 1
  | .hash => s.cfg.proofSize + cap + 2
  | .hdrchk => s.cfg.proofSize + cap + 3

theorem scanEdge_busy (s : State) (e : Word) : (s.scanEdge e).busy = true := by
  rw [busy_iff, State.scanEdge_phase]
  split <;> decide

theorem scanEdge_stepsLeft {s : State} (hp : s.phase = .scan) (hn : s.n < s.cfg.proofSize) (cap : Nat) (e : Word) :
    stepsLeft cap (s.scanEdge e) < stepsLeft cap s := by
  by_cases hlast : s.n + 1 = s.cfg.proofSize
  · simp only [stepsLeft, hp, State.scanEdge_phase, if_pos hlast]
    omega
  · simp only [stepsLeft, hp, State.scanEdge_phase, if_neg hlast, State.scanEdge_n, State.scanEdge_cfg]
    omega

/-! ### From any state of the invariant -/

theorem phaseInv_node {s : State} (h : Inv s) (hp : s.phase = .node) :
    (s.opc = Instr.opcode (.sipnode 0) ∨ s.opc = Instr.opcode (.sipnodeTagged 0)) ∧ s.edgeReady = true := by
  simpa only [PhaseInv, hp] using h.phase

/-- The key step of `VERIFY_HEADER` (R176). -/
theorem seqStep_of_verifyHeader {s : State} (hp : s.phase = .hash) (ho : s.opc = Instr.opcode .verifyHeader) :
    seqStep s = .next s.keyForScan := by
  have hne : s.opc ≠ Instr.opcode .deriveKey := by rw [ho]; decide
  simp only [seqStep, hp, stepHash, if_neg hne, if_pos ho]

/-- In phases `HASH` and `NODE` the invariant names the opcode; in the others every branch answers a next state. -/
theorem exists_seqStep {s : State} (h : Inv s) : ∃ t, seqStep s = .next t := by
  cases hp : s.phase with
  | idle => exact ⟨s, by simp only [seqStep, hp]⟩
  | hdrchk =>
    simp only [seqStep, hp, stepHdrchk]
    split <;> exact ⟨_, rfl⟩
  | hash =>
    rcases phaseInv_hash h hp with ⟨ho, _⟩ | ⟨ho, _⟩
    · exact ⟨_, seqStep_of_deriveKey hp ho⟩
    · exact ⟨_, seqStep_of_verifyHeader hp ho⟩
  | node =>
    rcases phaseInv_node h hp with ⟨ho | ho, _⟩
    · exact ⟨_, seqStep_of_sipnode hp ho⟩
    · exact ⟨_, seqStep_of_sipnodeTagged hp ho⟩
  | scan =>
    simp only [seqStep, hp, stepScan]
    split_ifs <;> exact ⟨_, rfl⟩
  | xorchk =>
    simp only [seqStep, hp, stepXorchk]
    split <;> exact ⟨_, rfl⟩
  | walk =>
    simp only [seqStep, hp, stepWalk]
    split_ifs <;> exact ⟨_, rfl⟩

theorem complete_ended (s : State) (v : Verdict) : (s.complete v).busy = false ∧ (s.complete v).done = true := by
  rw [complete_eq]
  exact ⟨rfl, rfl⟩

/-- A step of a busy block ends the operation or leaves fewer steps to make, the cap of R154 being `P + 1`. -/
theorem seqStep_stepsLeft {s t : State} (h : Inv s) (hb : s.busy = true) (hstep : seqStep s = .next t) :
    (t.busy = false ∧ t.done = true) ∨
      t.busy = true ∧ stepsLeft (t.cfg.proofSize + 1) t < stepsLeft (s.cfg.proofSize + 1) s := by
  rcases seqStep_cases hstep with
    ⟨hp, _⟩ | ⟨hp, _, rfl⟩ | ⟨_, _, rfl⟩ | ⟨_, _, rfl⟩ | ⟨hp, _, rfl⟩ | ⟨_, _, rfl⟩ | ⟨_, _, rfl⟩ |
    ⟨_, v, rfl⟩ | ⟨hp, _, _, rfl⟩ | ⟨_, rfl⟩ | ⟨hp, _, _, rfl⟩ | ⟨_, v, rfl⟩ | ⟨hp, k, _, hwalk⟩
  · exact absurd hp ((busy_iff s).mp hb)
  · exact .inr ⟨rfl, by simp [stepsLeft, hp]⟩
  · exact .inl (complete_ended s _)
  · exact .inl ⟨rfl, rfl⟩
  · exact .inr ⟨rfl, by simp [stepsLeft, hp]⟩
  · exact .inl ⟨rfl, rfl⟩
  · exact .inl ⟨rfl, rfl⟩
  · exact .inl (complete_ended s v)
  · obtain ⟨_, hn, _⟩ := phaseInv_scan h hp
    exact .inr ⟨scanEdge_busy .., scanEdge_stepsLeft hp hn ..⟩
  · exact .inl (complete_ended s _)
  · exact .inr ⟨rfl, by simp [stepsLeft, hp]⟩
  · exact .inl (complete_ended s v)
  · obtain ⟨_, _, _, _, _, hsteps⟩ := phaseInv_walk h hp
    rcases hwalk with ⟨v, rfl⟩ | ⟨_, _, rfl⟩
    · exact .inl (complete_ended _ v)
    · exact .inr ⟨hb, by simp [stepsLeft, hp]; omega⟩

theorem stepsLeft_pos {s : State} (h : Inv s) (hb : s.busy = true) : 0 < stepsLeft (s.cfg.proofSize + 1) s := by
  cases hp : s.phase
  case idle => exact absurd hp ((busy_iff s).mp hb)
  case walk =>
    obtain ⟨_, _, _, _, _, hsteps⟩ := phaseInv_walk h hp
    simp only [stepsLeft, hp]
    omega
  all_goals simp [stepsLeft, hp]

theorem stepsLeft_le (cap : Nat) (s : State) : stepsLeft cap s ≤ s.cfg.proofSize + cap + 3 := by
  unfold stepsLeft
  split <;> omega

/-- Settles O54: every step keeps the invariant and brings `stepsLeft` down, from at most `2*P + 4`. -/
theorem busyBlockCompletes : Obligations.BusyBlockCompletes := by
  intro s h hb
  obtain ⟨k, u, hk, ⟨hrun, _⟩, hend⟩ := exists_busyRun
    (I := fun t => Inv t ∧ t.busy = true) (E := fun t => t.busy = false ∧ t.done = true)
    (fun t => stepsLeft (t.cfg.proofSize + 1) t) (fun _ hI => hI.2) (fun _ hI => stepsLeft_pos hI.1 hI.2)
    (fun t ⟨hI, hbusy⟩ => by
      obtain ⟨u, hu⟩ := exists_seqStep hI
      exact ⟨u, hu, (seqStep_stepsLeft hI hbusy hu).imp_right fun hlt => ⟨⟨seqStep_inv hI hu, hlt.1⟩, hlt.2⟩⟩)
    ⟨h, hb⟩
  have hle := stepsLeft_le (s.cfg.proofSize + 1) s
  exact ⟨k, u, by omega, hrun, hend⟩

end Sys2Proof.Machine
end

section
/-! A verification that started at its acceptance, whatever the state it was accepted in: every step keeps it on the way
to the verdict of the pure function (`42_cycle_verifier.md` R161, R162, R164; `43_top_level_and_housekeeping.md`
R176). -/

namespace Sys2Proof.Machine

/-! ### The endpoint array -/

theorem endpoints_uSide (c : Config) (key : Key) (edges : Nat → Word) (n : Nat) :
    endpoints c key edges (2 * n) = sipnode c key (edges n) 0 := by
  simp [endpoints]

theorem endpoints_vSide (c : Config) (key : Key) (edges : Nat → Word) (n : Nat) :
    endpoints c key edges (2 * n + 1) = sipnode c key (edges n) 1 := by
  have hdiv : (2 * n + 1) / 2 = n := by omega
  have hmod : (2 * n + 1) % 2 = 1 := by omega
  simp [endpoints, hdiv, hmod]

/-! ### What the scan leaves, in the terms of `verify` -/

/-- The first `N` edges passed step 1, their endpoints stand in `UVS`, and the scan registers are what the pure function
makes of them. -/
structure ScannedEdges (s : State) : Prop where
  passed : ∀ k < s.n, EdgePasses s.cfg s.proofAt k
  stored : ∀ k < 2 * s.n, s.uvsAt k = endpoints s.cfg s.key s.proofAt k
  xorU : s.xor0 = xorSide s.n (endpoints s.cfg s.key s.proofAt) 0
  xorV : s.xor1 = xorSide s.n (endpoints s.cfg s.key s.proofAt) 1
  last : s.n > 0 → s.prev = s.proofAt (s.n - 1)

theorem scannedEdges_of_cleared {s : State} (hn : s.n = 0) (h0 : s.xor0 = 0) (h1 : s.xor1 = 0) : ScannedEdges s where
  passed k hk := by omega
  stored k hk := by omega
  xorU := by rw [h0, hn]; rfl
  xorV := by rw [h1, hn]; rfl
  last hn' := by omega

theorem ScannedEdges.scanEdge {s : State} (h : ScannedEdges s) (hc : s.cfg.wellFormed = true)
    (he : EdgePasses s.cfg s.proofAt s.n) : ScannedEdges (s.scanEdge (s.proofAt s.n)) where
  passed k hk := by
    rcases Nat.lt_succ_iff_lt_or_eq.mp hk with hk | rfl
    · exact h.passed k hk
    · exact he
  stored k hk := by
    have hk : k < 2 * s.n + 2 := hk
    show _ = endpoints s.cfg s.key s.proofAt k
    rw [scanEdge_uvsAt hc]
    split
    · subst k
      exact (endpoints_uSide ..).symm
    · split
      · subst k
        exact (endpoints_vSide ..).symm
      · exact h.stored k (by omega)
  xorU := by
    show _ = xorSide (s.n + 1) (endpoints s.cfg s.key s.proofAt) 0
    rw [xorSide_succ, ← h.xorU, Nat.add_zero, endpoints_uSide, State.scanEdge_xor0, toW_sipnode hc]
  xorV := by
    show _ = xorSide (s.n + 1) (endpoints s.cfg s.key s.proofAt) 1
    rw [xorSide_succ, ← h.xorV, endpoints_vSide, State.scanEdge_xor1, toW_sipnode hc]
  last _ := toW_edge hc he.1

theorem ScannedEdges.of_walk_registers {s : State} (h : ScannedEdges s) (j m : Nat) (p : Phase) :
    ScannedEdges { s with i := j, steps := m, phase := p } :=
  ⟨h.passed, h.stored, h.xorU, h.xorV, h.last⟩

/-! ### The verification under way -/

/-- The phase and its registers agree with how far the verification has come. -/
def OnTrackPhase (s : State) : Prop :=
  match s.phase with
  | .scan => s.n < s.cfg.proofSize
  | .xorchk => s.n = s.cfg.proofSize
  | .walk =>
    s.n = s.cfg.proofSize ∧ s.xor0 = 0 ∧ s.xor1 = 0 ∧ StandsOn s.cfg.proofSize s.uvsAt s.steps s.i
  | .idle => False
  | .hdrchk => False
  | .hash => False
  | .node => False

/-- The strengthened invariant of a running verification: unlike `Inv` it asks nothing of the state the command was
accepted in, and it records that the walk is the one from position 0, so that the cap is out of reach (R157). -/
structure OnTrack (s : State) : Prop where
  config : s.cfg.wellFormed = true
  scanned : ScannedEdges s
  phase : OnTrackPhase s

/-- The verdict the block is on its way to. -/
def State.verdictToCome (s : State) : Verdict := verify s.cfg s.proofAt s.key

theorem verdictToCome_of_rejected {s : State} {v : Verdict} (h : ScannedEdges s) (hn : s.n < s.cfg.proofSize)
    (hv : EdgeRejected s.cfg s.proofAt s.n v) : s.verdictToCome = v :=
  verify_of_scan_some (scanVerdict_of_first_rejected hn h.passed hv) s.key

theorem verdictToCome_of_scanned {s : State} (h : ScannedEdges s) (hn : s.n = s.cfg.proofSize) :
    s.verdictToCome = walkVerdict s.cfg.proofSize (endpoints s.cfg s.key s.proofAt) :=
  verify_of_scan_none (scanVerdict_of_all_pass (hn ▸ h.passed)) s.key

theorem verdictToCome_of_xor_ne {s : State} (h : ScannedEdges s) (hn : s.n = s.cfg.proofSize)
    (hxor : s.xor0 ≠ 0 ∨ s.xor1 ≠ 0) : s.verdictToCome = .nonMatching := by
  rw [h.xorU, h.xorV, hn] at hxor
  rw [verdictToCome_of_scanned h hn, walkVerdict_of_xor_ne hxor]

/-- While walking, the verdict to come is that of the loop from where the walk stands, on the array as stored. -/
theorem verdictToCome_of_walk {s : State} (h : ScannedEdges s) (hn : s.n = s.cfg.proofSize) (h0 : s.xor0 = 0)
    (h1 : s.xor1 = 0) (hw : StandsOn s.cfg.proofSize s.uvsAt s.steps s.i) :
    s.verdictToCome = walkFrom s.cfg.proofSize s.uvsAt (s.cfg.proofSize + 1 - s.steps) s.i s.steps := by
  have hstored : ∀ k < 2 * s.cfg.proofSize, s.uvsAt k = endpoints s.cfg s.key s.proofAt k := hn ▸ h.stored
  rw [h.xorU, hn] at h0
  rw [h.xorV, hn] at h1
  rw [verdictToCome_of_scanned h hn, walkVerdict_of_xor_eq h0 h1, ← walkFrom_of_standsOn hw,
    walkFrom_congr hstored _ _ _ fun hp => by omega]

/-! ### What a step on the way leaves alone -/

/-- From `s` to `t` the sequencer has moved, and nothing else of the block has. -/
def SameBlock (s t : State) : Prop := t.opc = s.opc ∧ t.withSequencerOf s = { s with phase := t.phase }

theorem sameBlock_rfl (s : State) : SameBlock s s := ⟨rfl, rfl⟩

theorem SameBlock.trans {s t u : State} (hst : SameBlock s t) (htu : SameBlock t u) : SameBlock s u := by
  refine ⟨htu.1.trans hst.1, ?_⟩
  calc u.withSequencerOf s = (u.withSequencerOf t).withSequencerOf s := rfl
    _ = { t.withSequencerOf s with phase := u.phase } := by rw [htu.2]; rfl
    _ = { s with phase := u.phase } := by rw [hst.2]

theorem SameBlock.verdictToCome {s t : State} (h : SameBlock s t) : t.verdictToCome = s.verdictToCome := by
  have hcfg : t.cfg = s.cfg := (congrArg State.cfg h.2 :)
  have hkey : t.key = s.key := (congrArg State.key h.2 :)
  have hproof : t.proof = s.proof := (congrArg State.proof h.2 :)
  have hproofAt : t.proofAt = s.proofAt := by
    funext n
    rw [State.proofAt, State.proofAt, hproof]
  rw [State.verdictToCome, State.verdictToCome, hcfg, hkey, hproofAt]

/-- The block has ended as `complete(V)` says, but for the sequencer's registers. -/
def CompletedAs (s : State) (v : Verdict) (u : State) : Prop := u.withSequencerOf s = s.complete v

theorem completedAs_complete (s : State) (v : Verdict) : CompletedAs s v (s.complete v) := by
  unfold CompletedAs
  rw [complete_eq]
  rfl

theorem completedAs_walk_complete (s : State) (v : Verdict) (j m : Nat) :
    CompletedAs s v (State.complete { s with i := j, steps := m } v) := by
  unfold CompletedAs
  rw [complete_with_walk_registers, complete_eq]
  rfl

theorem CompletedAs.of_sameBlock {s t u : State} {v : Verdict} (hst : SameBlock s t) (h : CompletedAs t v u) :
    CompletedAs s v u := by
  have hcommute : (t.complete v).withSequencerOf s = (t.withSequencerOf s).complete v := by
    rw [complete_eq, complete_eq, hst.1]
    rfl
  calc u.withSequencerOf s = (u.withSequencerOf t).withSequencerOf s := rfl
    _ = (t.complete v).withSequencerOf s := by rw [h]
    _ = State.complete { s with phase := t.phase } v := by rw [hcommute, hst.2]
    _ = s.complete v := by rw [complete_eq, complete_eq]

theorem CompletedAs.ended {s u : State} {v : Verdict} (h : CompletedAs s v u) : u.busy = false ∧ u.done = true := by
  obtain ⟨hbusy, hdone⟩ := complete_ended s v
  rw [← h] at hbusy hdone
  exact ⟨hbusy, hdone⟩

/-! ### One step on the way -/

/-- What one step from a state on the way answers: the verdict to come, or another state on the way with fewer steps
left. -/
def StepsOn (s : State) : Prop :=
  ∃ t, seqStep s = .next t ∧
    (CompletedAs s s.verdictToCome t ∨
      (OnTrack t ∧ SameBlock s t) ∧ stepsLeft t.cfg.proofSize t < stepsLeft s.cfg.proofSize s)

theorem stepsOn_of_scan {s : State} (hp : s.phase = .scan) (hc : s.cfg.wellFormed = true) (h : ScannedEdges s)
    (hn : s.n < s.cfg.proofSize) : StepsOn s := by
  rcases edgePasses_or_rejected s.cfg s.proofAt s.n with hpass | ⟨v, hv⟩
  · refine ⟨_, seqStep_of_passes hp h.last hpass, .inr ⟨⟨⟨hc, h.scanEdge hc hpass, ?_⟩, ?_⟩, ?_⟩⟩
    · by_cases hlast : s.n + 1 = s.cfg.proofSize
      · simp only [OnTrackPhase, State.scanEdge_phase, if_pos hlast]
        exact hlast
      · simp only [OnTrackPhase, State.scanEdge_phase, if_neg hlast]
        exact Nat.lt_of_le_of_ne hn hlast
    · exact ⟨rfl, rfl⟩
    · exact scanEdge_stepsLeft hp hn ..
  · rw [← verdictToCome_of_rejected h hn hv] at hv
    exact ⟨_, seqStep_of_rejected hp h.last hv, .inl (completedAs_complete ..)⟩

theorem stepsOn_of_xorchk {s : State} (hp : s.phase = .xorchk) (hc : s.cfg.wellFormed = true) (h : ScannedEdges s)
    (hn : s.n = s.cfg.proofSize) : StepsOn s := by
  by_cases hxor : s.xor0 ≠ 0 ∨ s.xor1 ≠ 0
  · refine ⟨_, seqStep_of_xor_ne hp hxor, .inl ?_⟩
    rw [verdictToCome_of_xor_ne h hn hxor]
    exact completedAs_complete ..
  · obtain ⟨h0, h1⟩ : s.xor0 = 0 ∧ s.xor1 = 0 := by simpa using hxor
    have hon : OnTrack { s with i := 0, steps := 0, phase := .walk } :=
      ⟨hc, h.of_walk_registers .., hn, h0, h1, standsOn_zero _ _⟩
    exact ⟨_, seqStep_of_xor_eq hp h0 h1, .inr ⟨⟨hon, rfl, rfl⟩, by simp [stepsLeft, hp]⟩⟩

/-- The step of the block and the step of the loop of `walk_verdict` split the same cases; the cap is excluded, since
the walk has made fewer than `P` steps (R157). -/
theorem stepsOn_of_walk {s : State} (hp : s.phase = .walk) (hc : s.cfg.wellFormed = true) (h : ScannedEdges s)
    (hn : s.n = s.cfg.proofSize) (h0 : s.xor0 = 0) (h1 : s.xor1 = 0)
    (hw : StandsOn s.cfg.proofSize s.uvsAt s.steps s.i) : StepsOn s := by
  have hpos : 0 < s.cfg.proofSize := by have := wellFormed_proofSize hc; omega
  have hcap := standsOn_lt hpos hw
  have hverdict := verdictToCome_of_walk h hn h0 h1 hw
  rw [show s.cfg.proofSize + 1 - s.steps = s.cfg.proofSize - s.steps + 1 by omega] at hverdict
  rcases findMatch_cases s.cfg.proofSize s.uvsAt s.i with hmany | hnone | ⟨k, hk⟩
  · rw [walkFrom_of_many _ hmany] at hverdict
    exact ⟨_, seqStep_of_many hp hmany, .inl (hverdict ▸ completedAs_complete ..)⟩
  · rw [walkFrom_of_none _ hnone] at hverdict
    exact ⟨_, seqStep_of_none hp hnone, .inl (hverdict ▸ completedAs_complete ..)⟩
  · by_cases hclose : k ^^^ 1 = 0
    · rw [walkFrom_of_closing _ hk hclose] at hverdict
      exact ⟨_, seqStep_of_closing hp hk hclose, .inl (hverdict ▸ completedAs_walk_complete ..)⟩
    · have hnext := walkPos_succ_of_findMatch hw hk
      refine ⟨_, seqStep_of_going_on hp hk hclose hcap.ne, .inr ⟨⟨⟨hc, h.of_walk_registers .., ?_⟩, rfl, rfl⟩, ?_⟩⟩
      · simp only [OnTrackPhase, hp]
        exact ⟨hn, h0, h1, hnext, .inr hclose⟩
      · simp [stepsLeft, hp]
        omega

theorem OnTrack.stepsOn {s : State} (h : OnTrack s) : StepsOn s := by
  obtain ⟨hc, hs, hphase⟩ := h
  unfold OnTrackPhase at hphase
  split at hphase <;> rename_i hp
  · exact stepsOn_of_scan hp hc hs hphase
  · exact stepsOn_of_xorchk hp hc hs hphase
  · obtain ⟨hn, h0, h1, hw⟩ := hphase
    exact stepsOn_of_walk hp hc hs hn h0 h1 hw
  all_goals exact hphase.elim

theorem OnTrack.busy {s : State} (h : OnTrack s) : s.busy = true := by
  refine (busy_iff s).mpr fun hp => ?_
  simpa only [OnTrackPhase, hp] using h.phase

theorem OnTrack.stepsLeft_pos {s : State} (h : OnTrack s) : 0 < stepsLeft s.cfg.proofSize s := by
  have hpos : 0 < s.cfg.proofSize := by have := wellFormed_proofSize h.config; omega
  have hphase := h.phase
  unfold OnTrackPhase at hphase
  split at hphase <;> rename_i hp
  · simp [stepsLeft, hp]
  · simp [stepsLeft, hp]
  · obtain ⟨_, _, _, hw⟩ := hphase
    have := standsOn_lt hpos hw
    simp only [stepsLeft, hp]
    omega
  all_goals exact hphase.elim

/-- A verification on its way runs, busy until its end, to the verdict to come, and changes nothing but what
`complete(V)` writes and the sequencer's registers. -/
theorem OnTrack.run {s : State} (h : OnTrack s) :
    ∃ k u, k ≤ stepsLeft s.cfg.proofSize s ∧ BusyRun k s u ∧ CompletedAs s s.verdictToCome u :=
  exists_busyRun (I := fun t => OnTrack t ∧ SameBlock s t) (fun t => stepsLeft t.cfg.proofSize t)
    (fun _ hI => hI.1.busy) (fun _ hI => hI.1.stepsLeft_pos)
    (fun t ⟨hI, hst⟩ => by
      obtain ⟨u, hu, hend | ⟨⟨hon, htu⟩, hlt⟩⟩ := hI.stepsOn
      · rw [hst.verdictToCome] at hend
        exact ⟨u, hu, .inl (hend.of_sameBlock hst)⟩
      · exact ⟨u, hu, .inr ⟨⟨hon, hst.trans htu⟩, hlt⟩⟩)
    ⟨h, sameBlock_rfl s⟩

/-! ### From acceptance -/

theorem onTrack_of_cleared {s : State} (hc : s.cfg.wellFormed = true) (hp : s.phase = .scan) (hn : s.n = 0)
    (h0 : s.xor0 = 0) (h1 : s.xor1 = 0) : OnTrack s := by
  refine ⟨hc, scannedEdges_of_cleared hn h0 h1, ?_⟩
  have hsize := wellFormed_proofSize hc
  simp only [OnTrackPhase, hp, hn]
  omega

/-- At the first scan step the rest of a verification takes at most `2*P + 1` steps. -/
theorem exists_run_of_cleared {s : State} (hc : s.cfg.wellFormed = true) (hp : s.phase = .scan) (hn : s.n = 0)
    (h0 : s.xor0 = 0) (h1 : s.xor1 = 0) :
    ∃ k u, k ≤ 2 * s.cfg.proofSize + 1 ∧ BusyRun k s u ∧ CompletedAs s s.verdictToCome u := by
  obtain ⟨k, u, hk, hrun, hend⟩ := (onTrack_of_cleared hc hp hn h0 h1).run
  simp only [stepsLeft, hp, hn] at hk
  exact ⟨k, u, by omega, hrun, hend⟩

theorem exec_verify_of_ready {s : State} (hb : s.busy = false) (hk : s.keyValid = true) (hfull : s.proofFull = true) :
    exec .verify s = .next (s.accepted .verify) :=
  exec_of_ready hb (by simp [State.operandsReady, State.proofReady, hk, hfull])

/-- Settles O15: the accepted state is on its way to `verify(PROOF, KEY)`, and the run from there writes nothing but the
completion, which leaves the header to a command that is not `VERIFY_HEADER`. -/
theorem verifyRunsToItsVerdict : Obligations.VerifyRunsToItsVerdict := by
  intro s hc hb hk hfull
  obtain ⟨k, u, hle, ⟨hrun, hbusy⟩, hend⟩ := exists_run_of_cleared (s := s.accepted .verify) hc rfl rfl rfl rfl
  rw [accepted_cfg] at hle
  refine ⟨_, u, k, exec_verify_of_ready hb hk hfull, by omega, hrun, hbusy, ?_⟩
  have hp := (not_busy_iff s).mp hb
  have hopc : (s.accepted .verify).opc ≠ Instr.opcode .verifyHeader :=
    show Instr.opcode .verify ≠ Instr.opcode .verifyHeader by decide
  calc u.withSequencerOf s = (u.withSequencerOf (s.accepted .verify)).withSequencerOf s := rfl
    _ = _ := by
      rw [hend, complete_eq, if_neg hopc, if_neg hopc, if_neg hopc, ← hp]
      rfl

theorem seqStep_of_lenOk {s : State} (hp : s.phase = .hdrchk) (hl : s.lenOk = true) :
    seqStep s = .next { s with phase := .hash } := by
  simp only [seqStep, hp, stepHdrchk, if_pos hl]

theorem seqStep_of_not_lenOk {s : State} (hp : s.phase = .hdrchk) (hl : s.lenOk = false) :
    seqStep s = complete .headerLength s := by
  simp [seqStep, hp, stepHdrchk, hl]

/-- `VERIFY_HEADER` ends with its first step, or scans after its second. -/
theorem exists_run_of_verifyHeader {s : State} (hc : s.cfg.wellFormed = true) :
    ∃ k u, k ≤ 2 * s.cfg.proofSize + 3 ∧ BusyRun k (s.accepted .verifyHeader) u ∧ u.busy = false ∧ u.done = true := by
  cases hl : (s.accepted .verifyHeader).lenOk with
  | false =>
    exact ⟨1, _, by omega, (busyRun_zero _).step rfl (seqStep_of_not_lenOk rfl hl), complete_ended ..⟩
  | true =>
    obtain ⟨k, u, hk, hrun, hend⟩ := exists_run_of_cleared
      (s := State.keyForScan { s.accepted .verifyHeader with phase := .hash }) hc rfl rfl rfl rfl
    exact ⟨k + 2, u, Nat.add_le_add_right hk 2,
      (hrun.step rfl (seqStep_of_verifyHeader rfl rfl)).step rfl (seqStep_of_lenOk rfl hl), hend.ended⟩

/-- Settles O17: the runs from acceptance end within the bounds, and an idle block stays as it is. -/
theorem verificationsKeepTheirStepBounds : Obligations.VerificationsKeepTheirStepBounds := by
  intro s hc hb hfull
  refine ⟨fun hk => ?_, ?_⟩
  · obtain ⟨k, u, hle, ⟨hrun, _⟩, hend⟩ := exists_run_of_cleared (s := s.accepted .verify) hc rfl rfl rfl rfl
    exact ⟨_, u, exec_verify_of_ready hb hk hfull, seqRun_of_le hrun hend.ended.1 hle, hend.ended⟩
  · obtain ⟨k, u, hle, ⟨hrun, _⟩, hidle, hdone⟩ := exists_run_of_verifyHeader (s := s) hc
    exact ⟨_, u, exec_of_ready (i := .verifyHeader) hb hfull, seqRun_of_le hrun hidle hle, hidle, hdone⟩

end Sys2Proof.Machine
end

section
/-! The register port of an idle block and its reads: what a plain write stores, what a header push appends, and what a
read of each register returns (`43_top_level_and_housekeeping.md` section 4, `20_memory.md` R65). -/

namespace Sys2Proof.Machine

/-! ### Plain writes -/

theorem regWrite_idle_stores {s : State} {a : RegNum} {r : Reg} (hb : s.busy = false)
    (hr : Reg.ofNumber s.cfg a = some r) (hcmd : r ≠ .cmd) (hw : r.writable = true) (v : Word) :
    regWrite a v s = .next (s.store r v) := by
  unfold regWrite
  split
  · next hnone => simp [hr] at hnone
  · next hq => exact absurd (by simpa [hr] using hq) hcmd
  · next q _ hq =>
    obtain rfl : r = q := by simpa [hr] using hq
    simp [hw, hb]

theorem writeKey_key_getElem (s : State) (j k : Fin 4) (v : Word) :
    (s.writeKey j v).key[k] = if k = j then v else s.key[k] := by
  simp [Vector.getElem_set, Fin.ext_iff, eq_comm]

theorem writeKey_keyv_getElem (s : State) (j k : Fin 4) (v : Word) :
    (s.writeKey j v).keyv[k] = if k = j then true else s.keyv[k] := by
  simp [Vector.getElem_set, Fin.ext_iff, eq_comm]

/-- Settles O23: each register is found in the map and is writable, so an idle write is its `store`; the arrays are read
back by the read-after-write rules. -/
theorem idleWritesStore : Obligations.IdleWritesStore := by
  intro s v hc hb
  refine ⟨regWrite_idle_stores (r := .ctrl) hb rfl nofun rfl v,
    regWrite_idle_stores (r := .argEdge) hb rfl nofun rfl v, regWrite_idle_stores (r := .hdrLen) hb rfl nofun rfl v,
    fun j => ?_, fun n hn => ?_⟩
  · exact ⟨s.writeKey j v, regWrite_idle_stores hb (ofNumber_key s.cfg j) nofun rfl v,
      fun k => writeKey_key_getElem s j k v, fun k => writeKey_keyv_getElem s j k v, rfl⟩
  · have hmap := ofNumber_of_proof_window (toNat_proof_window hc hn) hn
    refine ⟨s.writeProof n v, regWrite_idle_stores hb hmap nofun rfl v, fun k => ?_, fun k => ?_, rfl⟩
    · simp only [State.writeProof_proofAt, eq_comm (a := n)]
    · by_cases hk : k = n <;> simp [hk, eq_comm (a := n)]

/-! ### Header bytes -/

theorem pushHeader_of_room {s : State} (h : s.hdrCount < s.cfg.hdrMax) (b : Byte) :
    s.pushHeader b = { s with hdr := Bank.put s.hdr s.hdrCount b, hdrCount := s.hdrCount + 1 } :=
  if_pos h

theorem pushHeader_of_full {s : State} (h : ¬ s.hdrCount < s.cfg.hdrMax) (b : Byte) :
    s.pushHeader b = { s with hdrOvf := true } :=
  if_neg h

theorem pushHeader_hdrAt {s : State} (h : s.hdrCount < s.cfg.hdrMax) (b : Byte) (k : Nat) :
    (s.pushHeader b).hdrAt k = if k = s.hdrCount then b else s.hdrAt k := by
  rw [pushHeader_of_room h]
  simp only [State.hdrAt, Bank.get?_put, eq_comm (b := k)]
  split <;> rfl

/-- The byte goes to the index `HDR_COUNT`, past every byte of the header before (R29, R181). -/
theorem pushHeader_header {s : State} (h : s.hdrCount < s.cfg.hdrMax) (b : Byte) :
    (s.pushHeader b).header = s.header ++ [b] := by
  have hcount : (s.pushHeader b).hdrCount = s.hdrCount + 1 := by rw [pushHeader_of_room h]
  have hbefore : (List.range s.hdrCount).map (s.pushHeader b).hdrAt = (List.range s.hdrCount).map s.hdrAt :=
    List.map_congr_left fun k hk => by rw [pushHeader_hdrAt h, if_neg (List.mem_range.mp hk).ne]
  rw [State.header, hcount, List.range_succ, List.map_append, hbefore, List.map_singleton, pushHeader_hdrAt h,
    if_pos rfl, State.header]

/-- Settles O24: an idle write of `HDR_PUSH` is the push of the low byte. -/
theorem headerPushAppendsOneByte : Obligations.HeaderPushAppendsOneByte := by
  intro s v hb
  have hwrite : regWrite 0x000A v s = .next (s.pushHeader (v.setWidth 8)) :=
    regWrite_idle_stores (r := .hdrPush) hb rfl nofun rfl v
  refine ⟨fun hroom => ⟨_, hwrite, pushHeader_header hroom _, pushHeader_hdrAt hroom _, ?_⟩, fun hfull => ?_⟩
  · rw [pushHeader_of_room hroom]
  · rw [hwrite, pushHeader_of_full hfull]

/-! ### Reads -/

theorem ctrlWord_eq (s : State) : s.ctrlWord = if s.legacy then 1 else 0 := by
  cases h : s.legacy <;> simp [State.ctrlWord, flagAt, h]

theorem numberField_of_lt {width value : Nat} (h : value < 2 ^ width) :
    numberField width value = BitVec.ofNat 64 value :=
  if_pos h

/-- Only a busy `VERIFY_HEADER` leaves the key between old and new (R231). -/
theorem keyUnsettled_eq_false {s : State} (h : s.busy = false ∨ s.opc ≠ 0x05) : s.keyUnsettled = false := by
  rcases h with hidle | hopc
  · simp [State.keyUnsettled, hidle]
  · have hopc : s.opc ≠ Instr.opcode .verifyHeader := hopc
    simp [State.keyUnsettled, hopc]

theorem keyRead_of_settled {s : State} (h : s.keyUnsettled = false) (j : Fin 4) : s.keyRead j = s.key[j] := by
  simp [State.keyRead, h]

theorem keyValidRead_of_settled {s : State} (h : s.keyUnsettled = false) : s.keyValidRead = s.keyValid := by
  simp [State.keyValidRead, h]

/-- Settles O28: each number is mapped, so its read records `view` of the register and nothing else. -/
theorem readsReturnTheRegisters : Obligations.ReadsReturnTheRegisters := by
  intro s hc
  have hstatus : regRead 0x0004 s = s.record (s.statusWord s.keyValidRead) := regRead_of_mapped (r := .status) rfl
  refine ⟨⟨regRead_of_mapped (r := .cfg0) rfl, regRead_of_mapped (r := .cfg1) rfl, ?_, ⟨_, hstatus⟩,
    regRead_of_mapped (r := .verdict) rfl, regRead_of_mapped (r := .argEdge) rfl,
    regRead_of_mapped (r := .node) rfl, regRead_of_mapped (r := .hdrLen) rfl, fun hcount => ?_, fun n hn => ?_⟩,
    fun hidle => ?_⟩
  · rw [← ctrlWord_eq]
    exact regRead_of_mapped (r := .ctrl) rfl
  · rw [← numberField_of_lt hcount]
    exact regRead_of_mapped (r := .hdrCount) rfl
  · exact regRead_of_mapped (ofNumber_of_proof_window (toNat_proof_window hc hn) hn)
  · have hsettled := keyUnsettled_eq_false hidle
    refine ⟨by rw [hstatus, keyValidRead_of_settled hsettled], fun j => ?_⟩
    rw [← keyRead_of_settled hsettled]
    exact regRead_of_mapped (ofNumber_key s.cfg j)

end Sys2Proof.Machine
end

section
/-! The housekeeping commands `NOP` and `CLEAR`, and the run of `VERIFY_HEADER` to the answer of `verify_header`
(`43_top_level_and_housekeeping.md` sections 2 and 3). -/

namespace Sys2Proof.Machine

/-! ### `NOP` and `CLEAR` -/

theorem exec_of_busy {s : State} (hb : s.busy = true) (i : Instr) : exec i s = .next { s with errBusy := true } := by
  rw [exec_eq, if_pos hb]
  simp [State.raise]

/-- Settles O9. -/
theorem nopChangesNothing : Obligations.NopChangesNothing :=
  ⟨decode_encode .nop, fun _ => ⟨fun hb => exec_of_ready hb rfl, fun hb => exec_of_busy hb .nop⟩⟩

/-- What `CLEAR` writes, field by field (R179). -/
theorem accepted_clear_eq (s : State) :
    s.accepted .clear = { s with
      proof := [], proofv := [], hdrCount := 0, hdrOvf := false, hdrLen := 0, node := 0, nodeValid := false
      verdictCode := 0, verdictValid := false, done := false } := rfl

/-- Settles O10: `CLEAR` has no operand, so an idle block always accepts it; where every field it writes holds the
cleared value already, the state is the same. -/
theorem clearDropsOperandsAndResults : Obligations.ClearDropsOperandsAndResults := by
  refine ⟨decode_encode .clear, fun s => ⟨fun hb => ?_, fun hb => exec_of_busy hb .clear, ?_⟩⟩
  · exact ⟨s.accepted .clear, exec_of_ready hb rfl, accepted_clear_eq s, fun _ => ⟨rfl, rfl⟩, hb⟩
  · intro hb hproof hproofv hcount hovf hlen hnode hnodev hcode hverdict hdone
    rw [exec_of_ready hb rfl, accepted_clear_eq]
    cases s
    simp_all

/-! ### `VERIFY_HEADER` -/

theorem header_length (s : State) : s.header.length = s.hdrCount := by
  simp [State.header]

/-- The length check of phase `HDRCHK` is that of `verify_header` on what the registers hold (R173, R175). -/
theorem lenOk_eq_true_iff (s : State) :
    s.lenOk = true ↔ ¬ HeaderLengthWrong s.cfg s.header s.hdrLen.toNat s.hdrOvf := by
  unfold State.lenOk HeaderLengthWrong State.headerReady
  cases s.cfg.headerLen <;> simp [header_length, and_assoc]

/-- A completion of `VERIFY_HEADER` consumes the header too, whatever the verdict (R163, R172). -/
theorem complete_of_verifyHeader {s : State} (hopc : s.opc = Instr.opcode .verifyHeader) (v : Verdict) :
    s.complete v = { s with
      verdictCode := v.code, verdictValid := true, proof := [], proofv := [], done := true, phase := .idle
      hdrCount := 0, hdrOvf := false, hdrLen := 0 } := by
  rw [complete_eq, if_pos hopc, if_pos hopc, if_pos hopc]

/-- An accepted `VERIFY_HEADER` at its first scan step, when the length check has passed: the key is the header's. -/
def State.keyedForScan (s : State) : State := State.keyForScan { s.accepted .verifyHeader with phase := .hash }

theorem keyedForScan_verdictToCome (s : State) :
    s.keyedForScan.verdictToCome = verify s.cfg s.proofAt s.derivedKey := rfl

theorem busyRun_of_not_lenOk {s : State} (hl : s.lenOk = false) :
    BusyRun 1 (s.accepted .verifyHeader) ((s.accepted .verifyHeader).complete .headerLength) :=
  (busyRun_zero _).step rfl (seqStep_of_not_lenOk rfl hl)

/-- The length check and the derivation come before the scan, one step each (R176). -/
theorem exists_run_of_lenOk {s : State} (hc : s.cfg.wellFormed = true) (hl : s.lenOk = true) :
    ∃ k u, k ≤ 2 * s.cfg.proofSize + 3 ∧ BusyRun k (s.accepted .verifyHeader) u ∧
      CompletedAs s.keyedForScan (verify s.cfg s.proofAt s.derivedKey) u := by
  obtain ⟨k, u, hk, hrun, hend⟩ := exists_run_of_cleared (s := s.keyedForScan) hc rfl rfl rfl rfl
  rw [keyedForScan_verdictToCome] at hend
  exact ⟨k + 2, u, Nat.add_le_add_right hk 2,
    (hrun.step rfl (seqStep_of_verifyHeader rfl rfl)).step rfl (seqStep_of_lenOk rfl hl), hend⟩

/-- Settles O16: the length check decides between `verify_header`'s two answers. Where it fails the first step
completes; where it passes the block scans with the header's key, and the completion writes the rest. -/
theorem verifyHeaderRunsToItsVerdict : Obligations.VerifyHeaderRunsToItsVerdict := by
  intro s hc hb hfull
  have hexec : exec .verifyHeader s = .next (s.accepted .verifyHeader) := exec_of_ready hb hfull
  have hp := (not_busy_iff s).mp hb
  cases hl : s.lenOk with
  | false =>
    have hwrong : HeaderLengthWrong s.cfg s.header s.hdrLen.toNat s.hdrOvf :=
      not_not.mp fun h => by simp [(lenOk_eq_true_iff s).mpr h] at hl
    obtain ⟨hrun, hbusy⟩ := busyRun_of_not_lenOk hl
    refine ⟨_, _, 1, hexec, by omega, hrun, hbusy, _, rfl, ?_⟩
    rw [verifyHeader_of_wrong hwrong, complete_of_verifyHeader rfl, ← hp]
    rfl
  | true =>
    obtain ⟨k, u, hk, ⟨hrun, hbusy⟩, hend⟩ := exists_run_of_lenOk hc hl
    refine ⟨_, u, k, hexec, by omega, hrun, hbusy, _, rfl, ?_⟩
    rw [verifyHeader_of_right ((lenOk_eq_true_iff s).mp hl)]
    calc u.withSequencerOf s = (u.withSequencerOf s.keyedForScan).withSequencerOf s := rfl
      _ = _ := by
        rw [hend, complete_of_verifyHeader rfl, ← hp]
        rfl

end Sys2Proof.Machine
end

section
/-! What the block refuses (`60_exceptions.md` section 3): a write while busy, a command whose operands are not ready, a
header that does not match. -/

namespace Sys2Proof.Machine

/-! ### One flag and nothing else (R200) -/

theorem raise_busy (s : State) : s.raise .busy = { s with errBusy := true } := by
  simp [State.raise]

theorem raise_operand (s : State) : s.raise .operand = { s with errOperand := true } := by
  simp [State.raise]

theorem raise_hdr (s : State) : s.raise .hdr = { s with errHdr := true } := by
  simp [State.raise]

/-! ### Writes while busy -/

/-- The port looks at the map first and at `BUSY` second, `CMD` being no exception (R206). -/
theorem regWrite_of_busy {s : State} {a : RegNum} {r : Reg} (hb : s.busy = true) (h : Reg.ofNumber s.cfg a = some r)
    (hr : r.writable = true) (v : Word) : regWrite a v s = .next (s.raise .busy) := by
  unfold regWrite
  split
  · next hnone => simp [h] at hnone
  · exact writeCmd_busy hb
  · next q _ hq =>
    obtain rfl : r = q := by simpa [h] using hq
    simp [hr, hb]

/-- Settles O20. -/
theorem writesWhileBusyAreDropped : Obligations.WritesWhileBusyAreDropped := by
  intro s a v r hb h hr
  rw [regWrite_of_busy hb h hr, raise_busy]

/-! ### Operands that are not ready -/

theorem exec_of_not_ready {i : Instr} {s : State} (hb : s.busy = false) (ho : s.operandsReady i = false) :
    exec i s = .next (s.raise (operandErr i)) := by
  simp [exec_eq, hb, ho]

theorem edgeReady_eq_false_iff (s : State) :
    s.edgeReady = false ↔ s.keyValid = false ∨ Config.edgeMask s.cfg < s.argEdge := by
  simp only [State.edgeReady, Bool.and_eq_false_iff, decide_eq_false_iff_not, BitVec.not_le]

theorem proofReady_eq_false_iff (s : State) : s.proofReady = false ↔ s.keyValid = false ∨ s.proofFull = false :=
  Bool.and_eq_false_iff

theorem headerReady_eq_false_iff (s : State) :
    s.headerReady = false ↔ s.hdrOvf = true ∨ s.hdrLen.toNat ≠ s.hdrCount := by
  simp only [State.headerReady, Bool.and_eq_false_iff, Bool.not_eq_false', decide_eq_false_iff_not, ne_eq]

/-- Settles O18: each premise is the failure of that operation's operand condition. -/
theorem missingOperandsAreRefused : Obligations.MissingOperandsAreRefused := by
  intro s hb
  rw [← raise_operand, ← proofReady_eq_false_iff, ← edgeReady_eq_false_iff]
  exact ⟨fun side hedge =>
      ⟨exec_of_not_ready (i := .sipnode side) hb hedge, exec_of_not_ready (i := .sipnodeTagged side) hb hedge⟩,
    fun hproof => exec_of_not_ready (i := .verify) hb hproof,
    fun hfull => exec_of_not_ready (i := .verifyHeader) hb hfull⟩

/-! ### Header mismatch -/

theorem accepted_errHdr (s : State) (i : Instr) : (s.accepted i).errHdr = s.errHdr := by
  cases i <;> rfl

/-- Only `DERIVE_KEY` refuses with `ERR_HDR` (R203). -/
theorem exec_errHdr {i : Instr} {s t : State} (hi : i ≠ .deriveKey) (h : exec i s = .next t) :
    t.errHdr = s.errHdr := by
  have hne : operandErr i ≠ .hdr := by cases i <;> simp_all [operandErr]
  rw [exec_eq] at h
  split_ifs at h <;> obtain rfl := Host.Outcome.next.inj h
  · simp
  · exact accepted_errHdr s i
  · simp [hne]

/-- The length check of `VERIFY_HEADER` asks for everything that `DERIVE_KEY` asks of the header (R173). -/
theorem lenOk_of_not_headerReady {s : State} (h : s.headerReady = false) : s.lenOk = false := by
  simp [State.lenOk, h]

/-- Settles O19: `DERIVE_KEY` checks the header as an operand; `VERIFY_HEADER` checks it in its first step, whose
failure completes with a verdict and raises nothing. -/
theorem headerMismatchIsRefused : Obligations.HeaderMismatchIsRefused := by
  simp only [Obligations.HeaderMismatchIsRefused, ← raise_hdr, ← headerReady_eq_false_iff]
  refine ⟨fun s hb hhdr => exec_of_not_ready (i := .deriveKey) hb hhdr, fun s t => exec_errHdr (by simp),
    fun s hp hhdr => ⟨_, seqStep_of_not_lenOk hp (lenOk_of_not_headerReady hhdr), ?_⟩⟩
  rw [complete_eq]
  exact ⟨rfl, rfl, rfl⟩

end Sys2Proof.Machine
end

section
/-! Every event answers, and a run without reset is a run of the sequencer but for the host's side: the host's accesses
only come between its steps (`60_exceptions.md` R198; `70_reset_and_hazards.md` R240 to R243). -/

namespace Sys2Proof.Machine

/-! ### Every event answers a next state -/

theorem exists_writeCmd (w : Word) (s : State) : ∃ t, writeCmd w s = .next t := by
  unfold writeCmd
  split
  · rw [exec_eq]
    split_ifs <;> exact ⟨_, rfl⟩
  · split <;> exact ⟨_, rfl⟩

theorem exists_regWrite (a : RegNum) (v : Word) (s : State) : ∃ t, regWrite a v s = .next t := by
  unfold regWrite
  split
  · exact ⟨_, rfl⟩
  · exact exists_writeCmd v s
  · split_ifs <;> exact ⟨_, rfl⟩

theorem exists_hostEvent (x : HostAction) (s : State) : ∃ t, hostEvent x s = .next t := by
  cases x with
  | wr a v => exact exists_regWrite a v s
  | rd a => exact ⟨_, rfl⟩
  | wait => exact ⟨_, rfl⟩
  | reset => exact ⟨_, rfl⟩
  | resetWr a v => exact ⟨_, rfl⟩
  | resetRd a => exact ⟨_, rfl⟩

/-- Settles O53: the host and reset always answer, and the sequencer does where the invariant holds. -/
theorem soundStatesNeverStop : Obligations.SoundStatesNeverStop := by
  intro s h
  unfold step agentEvent
  rw [if_pos h.config]
  split
  · exact ⟨_, rfl⟩
  · exact ⟨_, rfl⟩
  · obtain ⟨t, ht⟩ := exists_seqStep h
    exact ⟨_, andThen_eq_next.mpr ⟨t, ht, rfl⟩⟩
  · split
    · exact ⟨_, rfl⟩
    · next x _ _ =>
      obtain ⟨t, ht⟩ := exists_hostEvent x s
      exact ⟨_, andThen_eq_next.mpr ⟨t, ht, rfl⟩⟩

/-! ### The sequencer does not look at the host's side -/

theorem andThen_complete_withHostSideOf (s r : State) (v : Verdict) :
    andThen (complete v s) (fun t => t.withHostSideOf r) = complete v (s.withHostSideOf r) := by
  simp only [complete_next, andThen_next, complete_eq]
  rfl

/-- In no phase does a branch or a written value depend on the host's side, so replacing it before the step or after it
is the same. -/
theorem seqStep_withHostSideOf (s r : State) :
    seqStep (s.withHostSideOf r) = andThen (seqStep s) (fun t => t.withHostSideOf r) := by
  have hphase : (s.withHostSideOf r).phase = s.phase := rfl
  unfold seqStep
  rw [hphase]
  cases s.phase with
  | idle => rfl
  | hdrchk =>
    simp only [stepHdrchk, andThen_ite, andThen_complete_withHostSideOf]
    rfl
  | hash =>
    simp only [stepHash, andThen_ite]
    rfl
  | node =>
    simp only [stepNode, andThen_ite]
    rfl
  | scan =>
    simp only [stepScan, andThen_ite, andThen_complete_withHostSideOf]
    rfl
  | xorchk =>
    simp only [stepXorchk, andThen_ite, andThen_complete_withHostSideOf]
    rfl
  | walk =>
    simp only [stepWalk, andThen_ite, andThen_complete_withHostSideOf]
    rfl

theorem seqRun_withHostSideOf {m : Nat} {s u : State} (h : seqRun m s = .next u) (r : State) :
    seqRun m (s.withHostSideOf r) = .next (u.withHostSideOf r) := by
  induction m generalizing s with
  | zero =>
    obtain rfl := Host.Outcome.next.inj h
    rfl
  | succ m ih =>
    cases hs : seqStep s with
    | next t =>
      rw [seqRun_succ hs] at h
      have ht : seqStep (s.withHostSideOf r) = .next (t.withHostSideOf r) := by
        rw [seqStep_withHostSideOf, hs, andThen_next]
      rw [seqRun_succ ht, ih h]
    | fault e => simp [seqRun, hs] at h
    | refused e => simp [seqRun, hs] at h

/-! ### One step of a run without reset -/

/-- An operation is running and no reset is to come, neither from outside nor in the host's program. -/
structure Undisturbed (s : State) : Prop where
  inv : Inv s
  busy : s.busy = true
  noReset : s.resetAfter = []
  program : ∀ x ∈ s.program, x.resets = false

theorem resetsAfter_of_nil {s : State} (h : s.resetAfter = []) (who : Agent) : s.resetsAfter who = [] := by
  cases who <;> simp [State.resetsAfter, h]

theorem busy_of_mover_none {s : State} (h : s.mover = none) : s.busy = false := by
  rcases mover_cases s with hcase | hcase | hcase | hcase <;> simp_all

theorem resetAfter_of_mover_reset {s : State} (h : s.mover = some .reset) : s.resetAfter ≠ [] := by
  rcases mover_cases s with hcase | hcase | hcase | hcase <;> simp_all

/-- The bookkeeping after an event that left the block busy adds no reset. -/
theorem Undisturbed.moveOn {s u : State} (h : Undisturbed s) (hinv : Inv u) (hb : u.busy = true)
    (hprog : u.program = s.program) (who : Agent) (b : Bool) : Undisturbed (s.moveOn who b u) where
  inv := moveOn_inv hinv s who b
  busy := hb
  noReset := resetsAfter_of_nil h.noReset who
  program := by
    rw [State.moveOn_program, hprog]
    split
    · exact fun x hx => h.program x (List.mem_of_mem_tail hx)
    · exact h.program

/-- What an event brings down: the steps that are left, or the host's lead while they stay the same (log 3). -/
def eventsLeft (s : State) : Nat ×ₗ Nat := toLex (stepsLeft (s.cfg.proofSize + 1) s, s.lead)

/-- An event is one sequencer step or none, but for the host's side, and it ends the operation or brings `eventsLeft`
down. -/
theorem Undisturbed.step {s : State} (h : Undisturbed s) :
    ∃ t m w, step s = .next t ∧ seqRun m s = .next w ∧ t = w.withHostSideOf t ∧
      ((w.busy = false ∧ w.done = true) ∨ Undisturbed t ∧ eventsLeft t < eventsLeft s) := by
  obtain ⟨t, ht⟩ := soundStatesNeverStop s h.inv
  rcases step_cases ht with ⟨hm, _⟩ | ⟨hm, _⟩ | ⟨_, u, hu, rfl⟩ | ⟨hm, x, _, u, hprog, hu, rfl⟩
  · have hidle := busy_of_mover_none hm
    simp [h.busy] at hidle
  · exact absurd h.noReset (resetAfter_of_mover_reset hm)
  · refine ⟨_, 1, u, ht, by rw [seqRun_succ hu]; rfl, rfl, ?_⟩
    refine (seqStep_stepsLeft h.inv h.busy hu).imp_right fun ⟨hb, hlt⟩ => ⟨?_, ?_⟩
    · exact h.moveOn (seqStep_inv h.inv hu) hb (seqStep_frame hu).program ..
    · exact Prod.Lex.toLex_lt_toLex.mpr (.inl hlt)
  · have hx : x.resets = false := h.program x (by simp [hprog])
    have hframe : u = s.withFlagsAndReads u := busyHostAccessesDisturbNothing s u x h.busy hx hu
    have hb : u.busy = true := by rw [hframe]; exact h.busy
    have hlead := moveOn_host_lead hm h.busy (x.doneAfter s) u
    refine ⟨_, 0, s, ht, rfl, ?_, .inr ⟨?_, ?_⟩⟩
    · rw [hframe]; rfl
    · exact h.moveOn (hostEvent_inv h.inv hu) hb (hostEvent_inputs hu).1 ..
    · have hleft : stepsLeft (u.cfg.proofSize + 1) u = stepsLeft (s.cfg.proofSize + 1) s := by rw [hframe]; rfl
      exact Prod.Lex.toLex_lt_toLex.mpr (.inr ⟨hleft, by omega⟩)

/-! ### The whole run -/

/-- The run from `s` reaches the end of the operation, busy until then, and the sequencer's steps alone reach the same
end but for the host's side. -/
def CompletesAsAlone (s : State) : Prop :=
  ∃ k m t u, run k s = .next t ∧ seqRun m s = .next u ∧ u.busy = false ∧ u.done = true ∧
    t = u.withHostSideOf t ∧ ∀ j < k, ∃ v, run j s = .next v ∧ v.busy = true

/-- Steps that the sequencer makes alone may be put in front of the rest of a run: what the host's accesses changed
meanwhile makes no difference to it. -/
theorem CompletesAsAlone.of_step {s t w : State} {m : Nat} (hb : s.busy = true) (ht : step s = .next t)
    (hw : seqRun m s = .next w) (hside : t = w.withHostSideOf t) (h : CompletesAsAlone t) : CompletesAsAlone s := by
  obtain ⟨k, m', t', u, hrun, halone, hidle, hdone, hend, hbusy⟩ := h
  have hback : w = t.withHostSideOf w := by rw [hside]; rfl
  have halone' : seqRun m' w = .next (u.withHostSideOf w) := hback ▸ seqRun_withHostSideOf halone w
  refine ⟨k + 1, m + m', t', u.withHostSideOf w, (run_succ ht).trans hrun, (seqRun_add hw m').trans halone', hidle,
    hdone, hend, fun j hj => ?_⟩
  cases j with
  | zero => exact ⟨s, rfl, hb⟩
  | succ j => exact run_succ ht ▸ hbusy j (by omega)

theorem Undisturbed.completesAsAlone {s : State} (h : Undisturbed s) : CompletesAsAlone s := by
  induction hd : eventsLeft s using WellFoundedLT.induction generalizing s with
  | ind d ih =>
    obtain ⟨t, m, w, ht, hw, hside, ⟨hidle, hdone⟩ | ⟨hundisturbed, hlt⟩⟩ := h.step
    · refine ⟨1, m, t, w, run_succ ht, hw, hidle, hdone, hside, fun j hj => ?_⟩
      obtain rfl : j = 0 := by omega
      exact ⟨s, rfl, h.busy⟩
    · exact .of_step h.busy ht hw hside (ih _ (hd ▸ hlt) hundisturbed rfl)

/-- Settles O55: the lead bounds the host's events before each sequencer step, and the invariant bounds those steps. -/
theorem operationsCompleteInEveryRun : Obligations.OperationsCompleteInEveryRun :=
  fun _ hinv hb hreset hprog => Undisturbed.completesAsAlone ⟨hinv, hb, hreset, hprog⟩

end Sys2Proof.Machine
end

section
/-! Which event comes next and that every run ends: the resets to come and the lines of the host's program run out, and
between two of them the sequencer's steps and the host's lead do (`70_reset_and_hazards.md` R223, R240 to R243). -/

namespace Sys2Proof.Machine

/-! ### Who brings about the next event -/

/-- A reset from outside comes when no event is left before it, or no other event is enabled (R242 c). -/
theorem resetNow_iff (s : State) :
    s.resetNow = true ↔
      ∃ n rest, s.resetAfter = n :: rest ∧ (n = 0 ∨ (s.program = [] ∧ s.busy = false)) := by
  unfold State.resetNow
  split <;> simp [*]

theorem resetNow_eq_false {s : State} (h : s.resetAfter.head? ≠ some 0) (hon : s.program = [] → s.busy = true) :
    s.resetNow = false := by
  rw [Bool.eq_false_iff, Ne, resetNow_iff]
  rintro ⟨n, rest, hreset, rfl | ⟨hprog, hb⟩⟩
  · simp [hreset] at h
  · simp [hon hprog] at hb

theorem mover_of_resetNow {s : State} (h : s.resetNow = true) : s.mover = some .reset := by
  simp [State.mover, h]

theorem mover_eq_none {s : State} (hprog : s.program = []) (hb : s.busy = false) (hreset : s.resetAfter = []) :
    s.mover = none := by
  simp [State.mover, State.resetNow, hprog, hb, hreset]

/-- While busy the sequencer moves when the host has no access left or no lead (R242 b; log 3). -/
theorem mover_eq_sequencer {s : State} (hr : s.resetNow = false) (hb : s.busy = true)
    (hlead : s.program = [] ∨ s.lead = 0) : s.mover = some .sequencer := by
  cases hprog : s.program with
  | nil => simp [State.mover, hr, hb, hprog]
  | cons x rest =>
    have hzero : s.lead = 0 := by simpa [hprog] using hlead
    simp [State.mover, hr, hb, hprog, hzero]

/-- A host with an access left moves when the block is idle or it has a lead (R242 a; log 3). -/
theorem mover_eq_host {s : State} {x : HostAction} {rest : List HostAction} (hr : s.resetNow = false)
    (hprog : s.program = x :: rest) (hlead : s.busy = false ∨ s.lead ≠ 0) : s.mover = some .host := by
  cases hb : s.busy with
  | false => simp [State.mover, hr, hb, hprog]
  | true =>
    have hpos : s.lead ≠ 0 := by simpa [hb] using hlead
    simp [State.mover, hr, hb, hprog, hpos]

/-! ### The step of each mover -/

/-- At the end of a run nothing changes (R243). -/
theorem step_of_nobody {s : State} (hc : s.cfg.wellFormed = true) (hm : s.mover = none) : step s = .next s := by
  simp [step, agentEvent, hc, hm]

theorem step_of_reset {s : State} (hc : s.cfg.wellFormed = true) (hm : s.mover = some .reset) :
    step s = .next (s.moveOn .reset false s.resetBlock) := by
  simp [step, agentEvent, hc, hm]

theorem step_of_sequencer {s : State} (hc : s.cfg.wellFormed = true) (hm : s.mover = some .sequencer) :
    step s = andThen (seqStep s) (s.moveOn .sequencer false) := by
  simp [step, agentEvent, hc, hm]

/-- The bookkeeping after a reset from outside, field by field. -/
theorem moveOn_reset {s : State} {n : Nat} {rest : List Nat} (h : s.resetAfter = n :: rest) (t : State) :
    s.moveOn .reset false t =
      { t with lead := Config.hostLead s.tick, resetAfter := rest, tick := t.tick + 1 } := by
  simp [State.moveOn, State.leadAfter, State.resetsAfter, h]

/-- Settles O6: each clause's premises name the mover, and the mover's step is the event. -/
theorem eachStepIsOneEnabledEvent : Obligations.EachStepIsOneEnabledEvent := by
  intro s hc
  refine ⟨fun hprog hb hreset => ?_, fun n rest hreset hnow => ?_, fun hhead hb hlead => ?_,
    fun hhead x rest hprog hlead => ?_⟩
  · exact step_of_nobody hc (mover_eq_none hprog hb hreset)
  · have hm := mover_of_resetNow ((resetNow_iff s).mpr ⟨n, rest, hreset, hnow⟩)
    rw [step_of_reset hc hm, moveOn_reset hreset]
    rfl
  · exact step_of_sequencer hc (mover_eq_sequencer (resetNow_eq_false hhead fun _ => hb) hb hlead)
  · have hr := resetNow_eq_false hhead (by simp [hprog])
    exact step_of_host hc hprog (mover_eq_host hr hprog hlead)

/-- Settles O32: after reset the block is idle and neither an access nor a reset is to come, so nobody moves. -/
theorem resetStartsNothing : Obligations.ResetStartsNothing :=
  ⟨step_of_nobody (by decide) (mover_eq_none rfl rfl rfl), fun _ hc => step_of_nobody hc (mover_eq_none rfl rfl rfl)⟩

/-! ### Every event brings the end of the run nearer -/

/-- What is still to come from outside the block: lines of the host's program, and resets. -/
def inputsLeft (s : State) : Nat := s.program.length + s.resetAfter.length

/-- What every event of a run brings down: the inputs left or, while they stay the same, the events left between two of
them. -/
def runLeft (s : State) : Nat ×ₗ (Nat ×ₗ Nat) := toLex (inputsLeft s, eventsLeft s)

theorem runLeft_lt_of_inputsLeft {s t : State} (h : inputsLeft t < inputsLeft s) : runLeft t < runLeft s :=
  Prod.Lex.toLex_lt_toLex.mpr (.inl h)

theorem runLeft_lt_of_eventsLeft {s t : State} (h : inputsLeft t = inputsLeft s) (he : eventsLeft t < eventsLeft s) :
    runLeft t < runLeft s :=
  Prod.Lex.toLex_lt_toLex.mpr (.inr ⟨h, he⟩)

/-- Only a reset from outside takes a reset from those to come (log 13). -/
theorem resetsAfter_length (s : State) {who : Agent} (h : who ≠ .reset) :
    (s.resetsAfter who).length = s.resetAfter.length := by
  cases hreset : s.resetAfter with
  | nil => rw [resetsAfter_of_nil hreset]
  | cons n rest =>
    cases who with
    | reset => exact absurd rfl h
    | host => simp [State.resetsAfter, hreset]
    | sequencer => simp [State.resetsAfter, hreset]

theorem resetsAfter_reset_length {s : State} (h : s.resetAfter ≠ []) :
    (s.resetsAfter .reset).length < s.resetAfter.length := by
  cases hreset : s.resetAfter with
  | nil => exact absurd hreset h
  | cons n rest => simp [State.resetsAfter, hreset]

theorem runLeft_reset {s : State} (hm : s.mover = some .reset) :
    runLeft (s.moveOn .reset false s.resetBlock) < runLeft s := by
  have hlen := resetsAfter_reset_length (resetAfter_of_mover_reset hm)
  refine runLeft_lt_of_inputsLeft ?_
  simpa [inputsLeft] using hlen

/-- A sequencer step of a busy block leaves fewer steps to make, none when it ends the operation. -/
theorem seqStep_stepsLeft_lt {s t : State} (h : Inv s) (hb : s.busy = true) (hstep : seqStep s = .next t) :
    stepsLeft (t.cfg.proofSize + 1) t < stepsLeft (s.cfg.proofSize + 1) s := by
  rcases seqStep_stepsLeft h hb hstep with ⟨hidle, _⟩ | ⟨_, hlt⟩
  · have hzero : stepsLeft (t.cfg.proofSize + 1) t = 0 := by simp only [stepsLeft, (not_busy_iff t).mp hidle]
    rw [hzero]
    exact stepsLeft_pos h hb
  · exact hlt

theorem runLeft_sequencer {s u : State} (h : Inv s) (hm : s.mover = some .sequencer) (hu : seqStep s = .next u) :
    runLeft (s.moveOn .sequencer false u) < runLeft s := by
  refine runLeft_lt_of_eventsLeft ?_ (Prod.Lex.toLex_lt_toLex.mpr (.inl ?_))
  · simp [inputsLeft, resetsAfter_length, (seqStep_frame hu).program]
  · exact (seqStep_stepsLeft_lt h (mover_sequencer_busy hm) hu :)

/-- Only a `WAIT` of a busy block stays in the host's program (R92). -/
theorem doneAfter_eq_false {x : HostAction} {s : State} (h : x.doneAfter s = false) : x = .wait ∧ s.busy = true := by
  cases x <;> simp_all [HostAction.doneAfter]

/-- A finished line leaves the program; a `WAIT` that stays costs the host one of its lead (R240; log 3). -/
theorem runLeft_host {s u : State} {x : HostAction} {rest : List HostAction} (hm : s.mover = some .host)
    (hprog : s.program = x :: rest) (hu : hostEvent x s = .next u) :
    runLeft (s.moveOn .host (x.doneAfter s) u) < runLeft s := by
  have huprog : u.program = s.program := (hostEvent_inputs hu).1
  cases hdone : x.doneAfter s with
  | true =>
    refine runLeft_lt_of_inputsLeft ?_
    simp [inputsLeft, resetsAfter_length, huprog, hprog]
  | false =>
    obtain ⟨rfl, hb⟩ := doneAfter_eq_false hdone
    have hframe : u = s.withFlagsAndReads u := busyHostAccessesDisturbNothing s u .wait hb rfl hu
    have hleft : stepsLeft (u.cfg.proofSize + 1) u = stepsLeft (s.cfg.proofSize + 1) s := by rw [hframe]; rfl
    have hlead := moveOn_host_lead hm hb false u
    refine runLeft_lt_of_eventsLeft ?_ (Prod.Lex.toLex_lt_toLex.mpr (.inr ⟨hleft, by omega⟩))
    simp [inputsLeft, resetsAfter_length, huprog]

theorem step_runLeft {s t : State} (h : Inv s) (hm : s.mover ≠ none) (hstep : step s = .next t) :
    runLeft t < runLeft s := by
  rcases step_cases hstep with ⟨hnone, _⟩ | ⟨hr, rfl⟩ | ⟨hs, u, hu, rfl⟩ | ⟨hh, x, rest, u, hprog, hu, rfl⟩
  · exact absurd hnone hm
  · exact runLeft_reset hr
  · exact runLeft_sequencer h hs hu
  · exact runLeft_host hh hprog hu

/-- Every run comes to a state in which nobody moves. -/
theorem Inv.exists_run_end {s : State} (h : Inv s) : ∃ k t, run k s = .next t ∧ Inv t ∧ t.mover = none := by
  induction hd : runLeft s using WellFoundedLT.induction generalizing s with
  | ind d ih =>
    by_cases hm : s.mover = none
    · exact ⟨0, s, rfl, h, hm⟩
    · obtain ⟨t, ht⟩ := soundStatesNeverStop s h
      obtain ⟨k, u, hrun, hend⟩ := ih _ (hd ▸ step_runLeft h hm ht) (everyStepKeepsTheInvariant s t h ht) rfl
      exact ⟨k + 1, u, (run_succ ht).trans hrun, hend⟩

/-- Settles O56: `runLeft` comes down with every event, and where nobody moves the run is at its end. -/
theorem everyRunEnds : Obligations.EveryRunEnds := by
  intro s h
  obtain ⟨k, t, hrun, hinv, hm⟩ := h.exists_run_end
  obtain ⟨hprog, hb, hreset⟩ : t.program = [] ∧ t.busy = false ∧ t.resetAfter = [] := by
    rcases mover_cases t with ⟨_, hend⟩ | ⟨hmover, _⟩ | ⟨hmover, _⟩ | ⟨hmover, _⟩
    · exact hend
    all_goals simp [hm] at hmover
  exact ⟨k, t, hrun, hprog, hb, hreset, step_of_nobody hinv.config hm⟩

end Sys2Proof.Machine
end

section
/-! What reads show while the block is busy (`70_reset_and_hazards.md` R231). -/

namespace Sys2Proof.Machine

/-- Settles O57: the invariant keeps the flags off while busy, and a result register that is not valid at 0. -/
theorem busyBlockShowsNoResult : Obligations.BusyBlockShowsNoResult := by
  intro s h hb
  obtain ⟨hdone, hnode, hverdict⟩ := h.busyQuiet hb
  have hcode := h.verdictHeld hverdict
  have hbit := (statusBitsAreTheFlags.1 s s.keyValidRead).1
  have hword : s.view .verdict = s.verdictWord := rfl
  refine ⟨(hbit (0, s.busy) (by simp)).trans hb, (hbit (1, s.done) (by simp)).trans hdone,
    (hbit (4, s.nodeValid) (by simp)).trans hnode, (hbit (5, s.verdictValid) (by simp)).trans hverdict,
    h.nodeHeld hnode, ?_⟩
  simp [hword, State.verdictWord, flagAt, hcode, hverdict]

theorem keyUnsettled_of_busy {s : State} (hb : s.busy = true) (ho : s.opc = 0x05) : s.keyUnsettled = true := by
  simp [State.keyUnsettled, hb, ho, Instr.opcode]

theorem keyRead_of_unsettled {s : State} (h : s.keyUnsettled = true) (j : Fin 4) :
    s.keyRead j = s.keyBefore[j] ∨ s.keyRead j = s.keyAfter[j] := by
  unfold State.keyRead
  rw [if_pos h]
  split
  · exact .inr rfl
  · exact .inl rfl

/-- `KEY_VALID` from before the running `VERIFY_HEADER` (R23, R231). -/
def State.keyValidBefore (s : State) : Bool := { s with keyv := s.keyvBefore }.keyValid

theorem keyValidBefore_iff (s : State) : s.keyValidBefore = true ↔ ∀ j : Fin 4, s.keyvBefore[j] = true :=
  keyValid_iff { s with keyv := s.keyvBefore }

/-- A passed length check leaves a valid key, a failed one the key as it was (R174). -/
theorem keyValid_of_keyvAfter (s : State) :
    { s with keyv := s.keyvAfter }.keyValid = (s.lenOk || s.keyValidBefore) := by
  cases hl : s.lenOk <;> simp [State.keyvAfter, State.keyValidBefore, State.keyValid, hl]

theorem keyValidRead_of_unsettled {s : State} (h : s.keyUnsettled = true) :
    s.keyValidRead = s.keyValidBefore ∨ s.keyValidRead = (s.lenOk || s.keyValidBefore) := by
  unfold State.keyValidRead
  rw [if_pos h]
  split
  · exact .inr (keyValid_of_keyvAfter s)
  · exact .inl rfl

/-- Settles O29: the free value of the read chooses between the key from before and the key to come. -/
theorem unsettledKeyReadsAreOldOrNew : Obligations.UnsettledKeyReadsAreOldOrNew := by
  intro s hb ho
  have hu := keyUnsettled_of_busy hb ho
  refine ⟨fun j => ?_, s.keyValidBefore, keyValidBefore_iff s, ?_⟩
  · have hread : regRead (0x0010 + BitVec.ofNat 16 j.val) s = s.record (s.keyRead j) :=
      regRead_of_mapped (ofNumber_key s.cfg j)
    rw [hread]
    exact (keyRead_of_unsettled hu j).imp (congrArg s.record) (congrArg s.record)
  · have hread : regRead 0x0004 s = s.record (s.statusWord s.keyValidRead) := regRead_of_mapped (r := .status) rfl
    rw [hread]
    exact (keyValidRead_of_unsettled hu).imp (congrArg fun kv => s.record (s.statusWord kv))
      (congrArg fun kv => s.record (s.statusWord kv))

end Sys2Proof.Machine
end
